-- ==== Sys2Proof/Word.lean ====
section
/-!
DEFINITION. The word types of HFE: the widths of `00_scope.md` rule R6 and the plain-data table type the three index
spaces of `20_memory.md` rule R50 are held in.
-/

namespace Sys2Proof

/-- A command word, `CMD_W` = 64 bits (R6, R70). -/
abbrev Word := BitVec 64

/-- The `op` field of a command word, 8 bits (R71). -/
abbrev Opcode := BitVec 8

/-- The `sel` field of a command word, 8 bits (R71). -/
abbrev Sel := BitVec 8

/-- The `idx` field of a command word, and every node index and child link: `IDX_W` = 10 bits (R6, R71). -/
abbrev Index := BitVec 10

/-- A frequency count, and the `data` field of a command word: `CNT_W` = 32 bits (R6, R71). -/
abbrev Count := BitVec 32

/-- A literal byte (R7). -/
abbrev Byte := BitVec 8

/-- A symbol value, `SYM_W` = 9 bits (R6, R7). -/
abbrev Symbol := BitVec 9

/-- A node weight, `W_W` = 41 bits (R6). -/
abbrev Weight := BitVec 41

/-- A code length, `CLEN_W` = 9 bits (R6). -/
abbrev CodeLen := BitVec 9

/-- The code-bit store of one symbol, `CODE_W` = 256 bits (R6). -/
abbrev CodeBits := BitVec 256

/-- The entries of one index space that differ from their reset value, as pairs of index and entry.
An index that is not listed holds the entry's reset value (log entry 1). -/
abbrev Table (β : Type) := List (Nat × β)

end Sys2Proof
end

