-- ==== Sys2Proof/Syntax.lean ====
section
/-!
DEFINITION. The 16 commands of `30_encoding.md` rule R72, one constructor per row of `spec/opcode_table.json`, with the
operands of that rule.
-/

namespace Sys2Proof

/-- A command. An operand has the width of the field that carries it (R71); which values are legal is
`Instr.wellFormed` (R73). -/
inductive Instr where
  /-- RESET, release everything and return to phase 0 (R150). -/
  | reset
  /-- RDST, read the status word or the faulting command (R151). -/
  | rdst (sel : Sel)
  /-- CNT, count one input byte (R90). -/
  | cnt (byte : Index)
  /-- CEOS, count the end-of-stream symbol (R91). -/
  | ceos
  /-- LDF, load one frequency-table entry (R92). -/
  | ldf (sym : Index) (count : Count)
  /-- RDF, read one frequency-table entry (R93). -/
  | rdf (sym : Index)
  /-- QLOAD, load the queue with one leaf per table entry (R102). -/
  | qload
  /-- MERGE, one turn of the merge loop (R103). -/
  | merge
  /-- BUILD, build the whole tree (R104). -/
  | build
  /-- RDN, read a node (R105). -/
  | rdn (node : Index) (sel : Sel)
  /-- DERIVE, derive the code table from the tree (R121). -/
  | derive
  /-- RDC, read a code-table entry (R123). -/
  | rdc (sym : Index) (sel : Sel)
  /-- ENC, encode one input byte (R131). -/
  | enc (byte : Index)
  /-- EEOS, write the end-of-stream code (R132). -/
  | eeos
  /-- DSTEP, decode one bit (R141). -/
  | dstep
  /-- DECODE, decode to the end of the stream (R142). -/
  | decode
  deriving DecidableEq, Repr

end Sys2Proof
end

