-- ==== Sys2Proof/WellFormed.lean ====
section
/-!
DEFINITION. The operand ranges of `30_encoding.md` rule R73: which commands a command word can carry without being illegal
by rule R75 (d).
-/

namespace Sys2Proof

/-- The operands are in the ranges of R73: a literal byte for CNT and ENC, a symbol up to `EOS` for LDF, RDF and RDC, a
node slot for RDN; `sel` at most 1 for RDST, 2 for RDN, 8 for RDC; any count for LDF. -/
def Instr.wellFormed : Instr → Bool
  | .reset => true
  | .rdst sel => decide (sel.toNat ≤ 1)
  | .cnt byte => decide (byte.toNat ≤ 255)
  | .ceos => true
  | .ldf sym _ => decide (sym.toNat ≤ 256)
  | .rdf sym => decide (sym.toNat ≤ 256)
  | .qload => true
  | .merge => true
  | .build => true
  | .rdn node sel => decide (node.toNat ≤ 512) && decide (sel.toNat ≤ 2)
  | .derive => true
  | .rdc sym sel => decide (sym.toNat ≤ 256) && decide (sel.toNat ≤ 8)
  | .enc byte => decide (byte.toNat ≤ 255)
  | .eeos => true
  | .dstep => true
  | .decode => true

end Sys2Proof
end

