-- ==== Sys2Proof/Decode.lean ====
section
/-!
DEFINITION. The command encoding of `30_encoding.md`: the fields of a command word (R71), the opcode map with its `match`
and `mask` words (R72), the decoder (R75), and the encoder.
-/

namespace Sys2Proof

/-! ## The fields of a command word (R71) -/

/-- `cmd[63:56]` (R71). -/
def opField (w : Word) : Opcode := w.extractLsb' 56 8

/-- `cmd[55:48]` (R71). -/
def selField (w : Word) : Sel := w.extractLsb' 48 8

/-- `cmd[47:42]`, reserved (R71). -/
def rsvField (w : Word) : BitVec 6 := w.extractLsb' 42 6

/-- `cmd[41:32]` (R71). -/
def idxField (w : Word) : Index := w.extractLsb' 32 10

/-- `cmd[31:0]` (R71). -/
def dataField (w : Word) : Count := w.extractLsb' 0 32

/-- The command word with the given fields and `rsv = 0` (R71). -/
def makeWord (op : Opcode) (sel : Sel) (idx : Index) (data : Count) : Word :=
  op ++ sel ++ (0 : BitVec 6) ++ idx ++ data

/-! ## The operands of a command, field by field (R72, R73) -/

/-- The opcode of each command (R72). -/
def Instr.op : Instr → Opcode
  | .reset => 0x01
  | .rdst _ => 0x02
  | .cnt _ => 0x10
  | .ceos => 0x11
  | .ldf _ _ => 0x12
  | .rdf _ => 0x13
  | .qload => 0x20
  | .merge => 0x21
  | .build => 0x22
  | .rdn _ _ => 0x23
  | .derive => 0x30
  | .rdc _ _ => 0x31
  | .enc _ => 0x40
  | .eeos => 0x41
  | .dstep => 0x50
  | .decode => 0x51

/-- The `sel` field of each command: 0 where the command takes none (R71, R73). -/
def Instr.sel : Instr → Sel
  | .rdst sel => sel
  | .rdn _ sel => sel
  | .rdc _ sel => sel
  | .reset | .cnt _ | .ceos | .ldf _ _ | .rdf _ | .qload | .merge | .build | .derive | .enc _ | .eeos
  | .dstep | .decode => 0

/-- The `idx` field of each command: 0 where the command takes none (R71, R73). -/
def Instr.idx : Instr → Index
  | .cnt byte => byte
  | .ldf sym _ => sym
  | .rdf sym => sym
  | .rdn node _ => node
  | .rdc sym _ => sym
  | .enc byte => byte
  | .reset | .rdst _ | .ceos | .qload | .merge | .build | .derive | .eeos | .dstep | .decode => 0

/-- The `data` field of each command: 0 for all but LDF (R71, R73). -/
def Instr.data : Instr → Count
  | .ldf _ count => count
  | .reset | .rdst _ | .cnt _ | .ceos | .rdf _ | .qload | .merge | .build | .rdn _ _ | .derive | .rdc _ _
  | .enc _ | .eeos | .dstep | .decode => 0

/-! ## The decoder (R75, R77) -/

/-- Why a word is illegal: the four cases of R75, in the order of `60_exceptions.md` rule R172 (2). All four raise the
same fault, `E_ILLEGAL`. -/
inductive DecodeError where
  /-- R75 (a): `op` is not one of the 16 values of R72. -/
  | unknownOpcode
  /-- R75 (b): `rsv != 0`. -/
  | reservedBits
  /-- R75 (c): a field the command does not use is nonzero. -/
  | unusedField
  /-- R75 (d): a field the command uses is out of range by R73. -/
  | operandRange
  deriving DecidableEq, Repr

/-- The command an opcode names, with its operands taken from the fields it uses (R72); none for an unknown opcode. -/
def instrOfFields (op : Opcode) (sel : Sel) (idx : Index) (data : Count) : Option Instr :=
  if op = 0x01 then some .reset
  else if op = 0x02 then some (.rdst sel)
  else if op = 0x10 then some (.cnt idx)
  else if op = 0x11 then some .ceos
  else if op = 0x12 then some (.ldf idx data)
  else if op = 0x13 then some (.rdf idx)
  else if op = 0x20 then some .qload
  else if op = 0x21 then some .merge
  else if op = 0x22 then some .build
  else if op = 0x23 then some (.rdn idx sel)
  else if op = 0x30 then some .derive
  else if op = 0x31 then some (.rdc idx sel)
  else if op = 0x40 then some (.enc idx)
  else if op = 0x41 then some .eeos
  else if op = 0x50 then some .dstep
  else if op = 0x51 then some .decode
  else none

/-- Decode a command word: the command it carries, or which case of R75 makes it illegal. A word is decoded the same way
in every phase and whether or not HFE is faulted (R70). -/
def decode (w : Word) : Except DecodeError Instr :=
  match instrOfFields (opField w) (selField w) (idxField w) (dataField w) with
  | none => .error .unknownOpcode
  | some i =>
    if rsvField w ≠ 0 then .error .reservedBits
    else if selField w ≠ i.sel ∨ idxField w ≠ i.idx ∨ dataField w ≠ i.data then .error .unusedField
    else if i.wellFormed then .ok i
    else .error .operandRange

/-! ## The encoder -/

/-- The command word of a command: its opcode and its operands in their fields, every other bit 0 (R71, R72). -/
def encode (i : Instr) : Word := makeWord i.op i.sel i.idx i.data

/-! ## The opcode table (R72) -/

/-- One row of the opcode map of R72: a word has the command's fixed bits right when `word AND fixedMask` is
`fixedBits`. -/
structure OpcodeRow where
  mnemonic : String
  fixedBits : Word
  fixedMask : Word
  idxMax : Nat
  selMax : Nat
  deriving DecidableEq, Repr

/-- The 16 rows of R72, in the order of that rule; `idxMax` and `selMax` are its column "range checks beyond the mask",
with the largest value of the field where the column asks for no check. -/
def opcodeTable : List OpcodeRow :=
  [ ⟨"CNT", 0x1000000000000000, 0xFFFFFF00FFFFFFFF, 1023, 255⟩,
    ⟨"CEOS", 0x1100000000000000, 0xFFFFFFFFFFFFFFFF, 1023, 255⟩,
    ⟨"LDF", 0x1200000000000000, 0xFFFFFE0000000000, 256, 255⟩,
    ⟨"RDF", 0x1300000000000000, 0xFFFFFE00FFFFFFFF, 256, 255⟩,
    ⟨"QLOAD", 0x2000000000000000, 0xFFFFFFFFFFFFFFFF, 1023, 255⟩,
    ⟨"MERGE", 0x2100000000000000, 0xFFFFFFFFFFFFFFFF, 1023, 255⟩,
    ⟨"BUILD", 0x2200000000000000, 0xFFFFFFFFFFFFFFFF, 1023, 255⟩,
    ⟨"RDN", 0x2300000000000000, 0xFFFCFC00FFFFFFFF, 512, 2⟩ ] ++
  [ ⟨"DERIVE", 0x3000000000000000, 0xFFFFFFFFFFFFFFFF, 1023, 255⟩,
    ⟨"RDC", 0x3100000000000000, 0xFFF0FE00FFFFFFFF, 256, 8⟩,
    ⟨"ENC", 0x4000000000000000, 0xFFFFFF00FFFFFFFF, 1023, 255⟩,
    ⟨"EEOS", 0x4100000000000000, 0xFFFFFFFFFFFFFFFF, 1023, 255⟩,
    ⟨"DSTEP", 0x5000000000000000, 0xFFFFFFFFFFFFFFFF, 1023, 255⟩,
    ⟨"DECODE", 0x5100000000000000, 0xFFFFFFFFFFFFFFFF, 1023, 255⟩,
    ⟨"RESET", 0x0100000000000000, 0xFFFFFFFFFFFFFFFF, 1023, 255⟩,
    ⟨"RDST", 0x0200000000000000, 0xFFFEFFFFFFFFFFFF, 1023, 255⟩ ]

/-- The word has the row's fixed bits right and its operands pass the row's range checks (R72). -/
def OpcodeRow.accepts (r : OpcodeRow) (w : Word) : Bool :=
  (w &&& r.fixedMask) == r.fixedBits && decide ((idxField w).toNat ≤ r.idxMax) && decide ((selField w).toNat ≤ r.selMax)

/-! ## The host's view of the table -/

/-- The command word of an instruction whose first `nbits` bits are `w`, every bit above them 0. A command is one 64-bit
word that moves whole (R52, R70), so the word is the number itself. -/
def tableWord (nbits w : Nat) : Word := BitVec.ofNat 64 (w % 2 ^ nbits)

/-- The command the decoder reads from an instruction whose bits are `w`, numbered as the opcode table numbers them. No
command is longer than one word (R70). -/
def decodeTableWord (nbits w : Nat) : Option Instr :=
  if nbits ≤ 64 then (decode (tableWord nbits w)).toOption else none

end Sys2Proof
end

