-- ==== Sys2Proof/Config.lean ====
section
/-!
DEFINITION. The parameters of `00_scope.md` rule R6. The spec leaves none open (`92_eei_decisions.md`: "the model takes
no parameter"), so there is no free value here.
-/

namespace Sys2Proof

/-- `NSYM`: 256 literal bytes and the end-of-stream symbol (R6). -/
@[simp] def Config.numSymbols : Nat := 257

/-- `NNODE`: entries in the node arena (R6). -/
@[simp] def Config.numNodes : Nat := 513

/-- `INT_BASE`: index of the first internal node (R6). -/
@[simp] def Config.internalBase : Nat := 257

/-- `EOS`, the end-of-stream symbol, as a table index (R6, R7). -/
@[simp] def Config.eos : Nat := 256

/-- `EOS` as a 9-bit symbol (R7). -/
@[simp] def Config.eosSymbol : Symbol := 256

/-- `NAS`, "not a symbol": the symbol field of an internal node (R6, R7). -/
@[simp] def Config.notASymbol : Symbol := 257

/-- `NIL`, the absent link, and `ROOT` and `CUR` when there is no tree (R6). -/
@[simp] def Config.nil : Index := 0x3FF

/-- `CNT_MAX` = 2^32 - 1 (R6). -/
@[simp] def Config.maxCount : Count := 0xFFFFFFFF

/-- `CODE_W`: the number of bits the code store of one symbol holds (R6). -/
@[simp] def Config.codeWidth : Nat := 256

end Sys2Proof
end

