-- ==== Sys2Proof/Machine/State.lean ====
section
/-!
DEFINITION. The state of HFE (`10_state.md` rules R20 to R35), its reset value (`70_reset_and_hazards.md` rule R191), and
the outcomes a step of the model can end in besides a next state.
-/

namespace Sys2Proof.Machine

/-- `PH`, the phase register (R23): the four values of its 2 bits. -/
inductive Phase where
  /-- 0 TABLE: the frequency table is open for writing. -/
  | table
  /-- 1 MERGING: at least two entries remain in the queue. -/
  | merging
  /-- 2 TREE: the tree is complete, the code table is not derived. -/
  | tree
  /-- 3 CODED: the tree is complete and the code table is derived. -/
  | coded
  deriving DecidableEq, Repr

/-- The six faults that are recorded in `ERR`, codes 1 to 6 of R165. These are architectural: a command that faults
ends in a next state. -/
inductive FaultCode where
  /-- 0x01: the frequency table has no end-of-stream entry. -/
  | malformed
  /-- 0x02: the bit-in port reported `END` before the terminal state. -/
  | trunc
  /-- 0x03: the byte to encode has no code. -/
  | noCode
  /-- 0x04: the command word is illegal. -/
  | illegal
  /-- 0x05: the command is not legal in the current phase. -/
  | seq
  /-- 0x06: a count of 2^32 - 1 would be incremented. -/
  | cntOvf
  deriving DecidableEq, Repr

/-- The code of a response (R76, R165): `OK`, a fault, or `E_HALTED`, which is a response only. -/
inductive RspCode where
  | ok
  | fault (f : FaultCode)
  | halted
  deriving DecidableEq, Repr

/-- The 72-bit response to one command: an 8-bit code and 64 bits of data (R76). -/
structure Response where
  code : RspCode
  data : BitVec 64
  deriving DecidableEq, Repr

/-- One slot of the node arena (R30): `NV`, `INQ` and the four fields of `NODE`. -/
structure Slot where
  /-- `NV[i]`: the slot holds a node. -/
  nv : Bool
  /-- `INQ[i]`: the node is an entry of the priority queue. -/
  inq : Bool
  /-- `NODE[i].sym`. -/
  sym : Symbol
  /-- `NODE[i].w`. -/
  w : Weight
  /-- `NODE[i].zero`. -/
  zero : Index
  /-- `NODE[i].one`. -/
  one : Index
  deriving DecidableEq, Repr

/-- The reset value of a slot (R30, R191). -/
@[simp] def Slot.empty : Slot := ⟨false, false, 0, 0, 0, 0⟩

/-- One entry of the code table (R32). -/
structure CodeEntry where
  /-- `CV[s]`: the symbol has a code. -/
  cv : Bool
  /-- `CLEN[s]`. -/
  clen : CodeLen
  /-- `CBITS[s]`: bit `i` is the `i`-th choice from the root. -/
  cbits : CodeBits
  deriving DecidableEq, Repr

/-- The reset value of a code entry (R32, R191). -/
@[simp] def CodeEntry.empty : CodeEntry := ⟨false, 0, 0⟩

/-- What the outside world does to HFE, one event between two commands at a time: the model's own way of holding the
host's side of the command port, of the reset input and of the bit-in port as plain data (log entry 2). -/
inductive HostEvent where
  /-- The host presents a command word (R22, R58). -/
  | command (w : Word)
  /-- The hardware reset input is raised (R190). -/
  | hardwareReset
  /-- The host positions the bit-in port: the bits not yet read are these (R35, R154). -/
  | positionBits (bits : List Bool)
  deriving DecidableEq, Repr

/-- The state of HFE: the eight scalar registers, the three tables (R20), the three port histories (R33 to R35), and
the host's side of the command and response ports. -/
structure State where
  /-- `PH` (R23). -/
  ph : Phase
  /-- `ERR`, the fault register, 4 bits (R24). -/
  err : BitVec 4
  /-- `ECMD`, the faulting-command register (R25). -/
  ecmd : Word
  /-- `ROOT`, 10 bits (R21). -/
  root : Index
  /-- `CUR`, 10 bits (R21). -/
  cur : Index
  /-- `DT`, decoder terminal (R27). -/
  dt : Bool
  /-- `QN`, 10 bits (R21). -/
  qn : BitVec 10
  /-- `NINT`, 9 bits (R21). -/
  nint : BitVec 9
  /-- `FREQ[0..256]`; an unlisted symbol has count 0 (R29). -/
  freq : Table Count
  /-- `NV`, `INQ` and `NODE`, slots 0 to 512; an unlisted slot is `Slot.empty` (R30). -/
  nodes : Table Slot
  /-- `CV`, `CLEN` and `CBITS`, symbols 0 to 256; an unlisted symbol is `CodeEntry.empty` (R32). -/
  codes : Table CodeEntry
  /-- `BITOUT`, oldest bit first (R33). -/
  bitOut : List Bool
  /-- `BYTEOUT`, oldest byte first (R34). -/
  byteOut : List Byte
  /-- `BITIN`, the bits not yet read, next bit first (R35). -/
  bitIn : List Bool
  /-- What the host will do, next event first (log entry 2). -/
  hostIn : List HostEvent
  /-- The responses returned so far, oldest first (R76, R58; log entry 3). -/
  rspOut : List Response
  deriving DecidableEq, Repr

/-- Where the model stops because the spec gives no effect. Each can be raised only in a state that breaks the
invariants R36 to R42, which no run from reset reaches (log entry 6). All are safe: the model stops and claims nothing. -/
inductive Fault where
  /-- A rule names an entry, or a bit of a code, that does not exist: a node index above 512, a symbol above 256, a code
  bit above 255 (R50, R51). Raised by MERGE, BUILD, DERIVE, ENC, EEOS, DSTEP and DECODE. Safe. -/
  | outOfRange
  /-- `qmin()` of an empty queue, which R12 leaves undefined. Raised by MERGE and BUILD. Safe. -/
  | emptyQueue
  /-- An exact sum, difference or path that a rule stores does not fit the element's width (R8). Raised by MERGE and
  BUILD (a weight, `QN`) and by DERIVE (a path of more than 256 bits). Safe. -/
  | doesNotFit
  deriving DecidableEq, Repr

/-- Why the model gives an instruction no meaning. -/
inductive Refusal where
  /-- The instruction has no meaning yet. Raised by `exec`'s refused arms only. Safe. -/
  | notModelled (mnemonic : String)
  deriving DecidableEq, Repr

/-- The state right after a hardware reset: every element at the value of R191, the output histories empty (R190), and
nothing presented by the host. -/
def State.reset : State :=
  { ph := .table
    err := 0
    ecmd := 0
    root := Config.nil
    cur := Config.nil
    dt := false
    qn := 0
    nint := 0
    freq := []
    nodes := []
    codes := []
    bitOut := []
    byteOut := []
    bitIn := []
    hostIn := []
    rspOut := [] }

end Sys2Proof.Machine
end

