-- ==== Sys2Proof/Machine/Table.lean ====
section
/-!
DEFINITION. Reading and writing one entry of an index space (`20_memory.md` rule R50), and the canonical form the tables
are held in: indices strictly rising, no entry equal to the reset value, no index outside the space.
-/

namespace Sys2Proof.Machine

/-- The entry at index `i`; `d` is the entry's reset value, which an unlisted index holds. -/
def tableGet {β : Type} (d : β) : Table β → Nat → β
  | [], _ => d
  | (j, v) :: rest, i => if i = j then v else tableGet d rest i

/-- List the entry `v` at index `i`, keeping the indices in rising order. -/
def tableInsert {β : Type} (i : Nat) (v : β) : Table β → Table β
  | [] => [(i, v)]
  | (j, u) :: rest =>
    if i < j then (i, v) :: (j, u) :: rest
    else if i = j then (i, v) :: rest
    else (j, u) :: tableInsert i v rest

/-- Write `v` to the entry at index `i`; writing the reset value takes the entry out of the list. -/
def tableSet {β : Type} [DecidableEq β] (d : β) (t : Table β) (i : Nat) (v : β) : Table β :=
  if v = d then t.filter (fun e => e.1 != i) else tableInsert i v t

/-- The canonical form of a table with `n` entries of reset value `d`. -/
def tableWf {β : Type} [DecidableEq β] (d : β) (n : Nat) : Table β → Bool
  | [] => true
  | (j, v) :: rest =>
    decide (v ≠ d) && decide (j < n) && rest.all (fun e => decide (j < e.1)) && tableWf d n rest

/-! ## The three index spaces (R50) -/

/-- `FREQ[s]` (R29). -/
def State.freqAt (s : State) (i : Nat) : Count := tableGet 0 s.freq i

/-- `NV[i]`, `INQ[i]` and `NODE[i]` (R30). -/
def State.nodeAt (s : State) (i : Nat) : Slot := tableGet Slot.empty s.nodes i

/-- `CV[s]`, `CLEN[s]` and `CBITS[s]` (R32). -/
def State.codeAt (s : State) (i : Nat) : CodeEntry := tableGet CodeEntry.empty s.codes i

/-- `FREQ[s] <- n`. -/
def State.setFreq (s : State) (i : Nat) (n : Count) : State := { s with freq := tableSet 0 s.freq i n }

/-- Write slot `i` of the node arena. -/
def State.setNode (s : State) (i : Nat) (x : Slot) : State := { s with nodes := tableSet Slot.empty s.nodes i x }

/-- Node slot `i`, if it exists: slots 0 to 512 do (R50, R51). -/
def State.node? (s : State) (i : Nat) : Option Slot := if i < 513 then some (s.nodeAt i) else none

/-- All three tables are in canonical form. -/
def State.tablesWf (s : State) : Bool :=
  tableWf 0 257 s.freq && tableWf Slot.empty 513 s.nodes && tableWf CodeEntry.empty 257 s.codes

end Sys2Proof.Machine
end

