-- ==== Sys2Proof/Machine/Flags.lean ====
section
/-!
DEFINITION. What HFE computes from its registers: the numeric codes of phases and faults, the faulted condition and the
`fault` output, the status word, the exempt commands and the phases each command is legal in.
-/

namespace Sys2Proof.Machine

/-- The value of `PH` (R23). -/
def Phase.bits : Phase → BitVec 2
  | .table => 0
  | .merging => 1
  | .tree => 2
  | .coded => 3

/-- The code a fault has in `ERR` (R24, R165). -/
def FaultCode.errBits : FaultCode → BitVec 4
  | .malformed => 1
  | .trunc => 2
  | .noCode => 3
  | .illegal => 4
  | .seq => 5
  | .cntOvf => 6

/-- The `code` field of a response (R76, R165). -/
def RspCode.bits : RspCode → BitVec 8
  | .ok => 0x00
  | .fault f => f.errBits.setWidth 8
  | .halted => 0x07

/-- The 72 bits of a response: `code` in 71:64, `data` in 63:0 (R76). -/
def Response.bits (r : Response) : BitVec 72 := r.code.bits ++ r.data

/-- HFE is faulted: `ERR != 0` (R171). -/
def State.faulted (s : State) : Bool := s.err != 0

/-- The level output `fault`, equal to `FLT` (R26, R176). -/
def State.faultOutput (s : State) : BitVec 1 := BitVec.ofBool s.faulted

/-- `STATUS`, the packing of the scalar registers, bits 63:47 zero (R26, R151). -/
def State.status (s : State) : BitVec 64 :=
  (s.nint ++ s.qn ++ s.cur ++ s.root ++ s.err ++ BitVec.ofBool s.dt ++ s.faultOutput ++ s.ph.bits).setWidth 64

/-- The opcode is that of an exempt command: RESET, RDST, RDF, RDN or RDC (R77, R171). -/
def exemptOp (op : Opcode) : Bool :=
  op == 0x01 || op == 0x02 || op == 0x13 || op == 0x23 || op == 0x31

/-- The phases a command is legal in (R74). -/
def legalPhase : Instr → Phase → Bool
  | .cnt _, ph | .ceos, ph | .ldf _ _, ph | .qload, ph => ph == .table
  | .merge, ph => ph == .merging
  | .build, ph => ph == .table || ph == .merging
  | .derive, ph => ph == .tree
  | .enc _, ph | .eeos, ph => ph == .coded
  | .dstep, ph | .decode, ph => ph == .tree || ph == .coded
  | .rdf _, _ | .rdn _ _, _ | .rdc _ _, _ | .rdst _, _ | .reset, _ => true

end Sys2Proof.Machine
end

