-- ==== Sys2Proof/Machine/Ops.lean ====
section
/-!
DEFINITION. The operations every command is made of: answering (R11), raising a fault (R170), the port primitives (R10),
release of everything (R150, R190), and the front end each command word passes through (R77).
-/

namespace Sys2Proof.Machine

/-- What one step of the model answers. -/
abbrev Result := Host.Outcome State Fault Refusal

/-- Return the response `(code, data)` (R11, R76). -/
def State.respond (s : State) (code : RspCode) (data : BitVec 64) : State :=
  { s with rspOut := s.rspOut ++ [⟨code, data⟩] }

/-- End the command with `respond(OK, data)` (R11). -/
def answer (s : State) (data : BitVec 64) : Result := .next (s.respond .ok data)

/-- Record a fault in `ERR` and the command word in `ECMD`, if no fault is recorded yet (R24, R25, R170). -/
def State.recordFault (s : State) (f : FaultCode) (cmd : Word) : State :=
  if s.err = 0 then { s with err := f.errBits, ecmd := cmd } else s

/-- The fault primitive `raise F`: record the fault and return `(F, 0)` (R170). It transfers control nowhere. -/
def State.raise (s : State) (f : FaultCode) (cmd : Word) : State :=
  (s.recordFault f cmd).respond (.fault f) 0

/-- `WriteBit` of each bit in turn (R10, R33). -/
def State.writeBits (s : State) (bits : List Bool) : State := { s with bitOut := s.bitOut ++ bits }

/-- `WriteByte(v)` (R10, R34). -/
def State.writeByte (s : State) (v : Byte) : State := { s with byteOut := s.byteOut ++ [v] }

/-- Everything RESET and the hardware reset do: every state element takes its reset value; the port histories and the
host's side are not touched (R150, R190, R191). It is the only way out of the faulted state (R173). -/
def State.release (s : State) : State :=
  { State.reset with
    bitOut := s.bitOut
    byteOut := s.byteOut
    bitIn := s.bitIn
    hostIn := s.hostIn
    rspOut := s.rspOut }

/-- Refuse a command because HFE is faulted: respond `(E_HALTED, 0)`, no state element changes (R171). -/
def State.halt (s : State) : State := s.respond .halted 0

/-- The front end of R77, in its order: `E_HALTED` by the opcode alone, `E_ILLEGAL`, `E_SEQ`, then the command's own
rule. -/
def frontEnd (op : Opcode) (cmd : Word) (legal : Bool) (inPhase : Bool) (rule : State → Result) (s : State) : Result :=
  if s.faulted && !exemptOp op then .next s.halt
  else if !legal then .next (s.raise .illegal cmd)
  else if !inPhase then .next (s.raise .seq cmd)
  else rule s

/-- Run a command: its word through the front end, then its own rule (R77). A command with an operand out of range is the
illegal word that `encode` gives for it (R75 (d)). -/
def command (i : Instr) (rule : State → Result) (s : State) : Result :=
  frontEnd i.op (encode i) i.wellFormed (legalPhase i s.ph) rule s

/-- What HFE does with an illegal command word (R75, R77). -/
def illegalWord (w : Word) (s : State) : Result := frontEnd (opField w) w false true (answer · 0) s

end Sys2Proof.Machine
end

