-- ==== Sys2Proof/Machine/Operands.lean ====
section
/-!
DEFINITION. The operand and data forms of the commands: the leaf test (R11), the priority queue's order and minimum
(R12, R101), the field packings of RDN (R105) and RDC (R123), and a code as a sequence of bits (R130).
-/

namespace Sys2Proof.Machine

/-- `leaf(i)`: both links absent (R11). -/
def Slot.isLeaf (x : Slot) : Bool := x.zero == Config.nil && x.one == Config.nil

/-- The leaf QLOAD makes for symbol `i` with count `n` (R102). -/
def leafSlot (i : Nat) (n : Count) : Slot :=
  { nv := true, inq := true, sym := BitVec.ofNat 9 i, w := n.setWidth 41, zero := Config.nil, one := Config.nil }

/-- The internal node MERGE makes (R103). -/
def innerSlot (a b : Nat) (w : Weight) : Slot :=
  { nv := true, inq := true, sym := Config.notASymbol, w := w, zero := BitVec.ofNat 10 a, one := BitVec.ofNat 10 b }

/-- Node `i` leaves the queue before node `j`: `(NODE[i].w, i) < (NODE[j].w, j)` in lexicographic order (R8, R12, R101). -/
def State.leavesBefore (s : State) (i j : Nat) : Bool :=
  decide ((s.nodeAt i).w.toNat < (s.nodeAt j).w.toNat) ||
    (decide ((s.nodeAt i).w.toNat = (s.nodeAt j).w.toNat) && decide (i < j))

/-- The least queue entry among `best` and the listed indices. -/
def State.leastOf (s : State) : Option Nat → List Nat → Option Nat
  | best, [] => best
  | none, i :: rest => if (s.nodeAt i).inq then s.leastOf (some i) rest else s.leastOf none rest
  | some b, i :: rest =>
    if (s.nodeAt i).inq && s.leavesBefore i b then s.leastOf (some i) rest else s.leastOf (some b) rest

/-- `qmin()`: the index with `INQ = 1` whose pair (weight, index) is least; none when the queue is empty, where R12 does
not define it. -/
@[irreducible] def State.qmin (s : State) : Option Nat := s.leastOf none (List.range 513)

/-- `INQ[i] <- 0` (R31). -/
def State.dequeue (s : State) (i : Nat) : State := s.setNode i { s.nodeAt i with inq := false }

/-- The number of table entries: symbols with a count above 0 (R29, R102). -/
def State.numEntries (s : State) : Nat := (List.range 257).countP (fun i => s.freqAt i != 0)

/-- What RDN reads from a slot (R105). An empty slot reads 0. -/
def rdnData (x : Slot) (sel : Sel) : BitVec 64 :=
  if x.nv = false then 0
  else if sel = 0 then (BitVec.ofBool x.inq ++ 1#1 ++ BitVec.ofBool x.isLeaf ++ x.sym).setWidth 64
  else if sel = 1 then x.w.setWidth 64
  else (x.one ++ x.zero).setWidth 64

/-- What RDC reads from a code entry (R123). A symbol without a code reads 0. -/
def rdcData (c : CodeEntry) (sel : Sel) : BitVec 64 :=
  if c.cv = false then 0
  else if sel.toNat ≤ 7 then (c.cbits.extractLsb' (32 * sel.toNat) 32).setWidth 64
  else (1#1 ++ c.clen).setWidth 64

/-- The bits of a code in the order they are written: the choice at the root first (R130). -/
def CodeEntry.bits (c : CodeEntry) : List Bool := (List.range c.clen.toNat).map (fun i => c.cbits.getLsbD i)

end Sys2Proof.Machine
end

