-- ==== Sys2Proof/Machine/CodeTable.lean ====
section
/-!
DEFINITION. The code-table commands of `42_code_table.md`: DERIVE and RDC.
-/

namespace Sys2Proof.Machine

/-- Record the path to a leaf as the code of its symbol, and count it (R121). The model stops where the leaf's symbol names
no entry of the code table. -/
def recordCode (sym : Symbol) (len : Nat) (bits : CodeBits) (acc : Table CodeEntry × Nat) :
    Except Fault (Table CodeEntry × Nat) :=
  if sym.toNat ≤ 256 then
    .ok (tableSet CodeEntry.empty acc.1 sym.toNat ⟨true, BitVec.ofNat 9 len, bits⟩, acc.2 + 1)
  else .error .outOfRange

/-- DERIVE's depth-first walk from node `n`, zero-child first, recording a code at each leaf (R120, R121). The first
argument is how many code bits the store has left, so the walk is structural; `len` and `bits` are the path so far, and the
answer is the code table with the number of leaves recorded. The order of the visits is not observable (R120). The model
stops where a link names no node, and where a path does not fit the 256 bits of the store. -/
def State.deriveFrom (s : State) :
    Nat → (n len : Nat) → CodeBits → Table CodeEntry × Nat → Except Fault (Table CodeEntry × Nat)
  | 0, n, len, bits, acc =>
    match s.node? n with
    | none => .error .outOfRange
    | some x => if x.isLeaf then recordCode x.sym len bits acc else .error .doesNotFit
  | room + 1, n, len, bits, acc =>
    match s.node? n with
    | none => .error .outOfRange
    | some x =>
      if x.isLeaf then recordCode x.sym len bits acc
      else
        match s.deriveFrom room x.zero.toNat (len + 1) bits acc with
        | .error f => .error f
        | .ok acc' => s.deriveFrom room x.one.toNat (len + 1) (bits ||| (1#256 <<< len)) acc'

/-- DERIVE (R121): clear the code table, walk the tree from the root, enter phase 3, return the number of codes. -/
def execDerive (s : State) : Result :=
  command .derive (fun s =>
    match s.deriveFrom Config.codeWidth s.root.toNat 0 0 ([], 0) with
    | .error f => .fault f
    | .ok (codes, count) => answer { s with codes := codes, ph := .coded } (BitVec.ofNat 64 count)) s

/-- RDC (R123). -/
def execRdc (sym : Index) (sel : Sel) (s : State) : Result :=
  command (.rdc sym sel) (fun s => answer s (rdcData (s.codeAt sym.toNat) sel)) s

end Sys2Proof.Machine
end

