-- ==== Sys2Proof/Machine/Decoder.lean ====
section
/-!
DEFINITION. The decoder commands of `44_decoder.md`: DSTEP and DECODE.
-/

namespace Sys2Proof.Machine

/-- Where one bit took the decoder (R141): to an internal node, to the leaf of a literal byte, or to the end-of-stream
leaf. -/
inductive Arrival where
  | moved
  | emitted (v : Byte)
  | ended
  deriving DecidableEq, Repr

/-- The response data of DSTEP, `{kind, byte}` in bits 9:0 (R141). -/
def Arrival.data : Arrival → BitVec 64
  | .moved => 0x000
  | .emitted v => 0x100 + v.setWidth 64
  | .ended => 0x200

/-- Follow the link for bit `b` from `CUR` and act on the node reached (R141, from the line `n <- …` on). The model stops
where `CUR` or the link is no node index, which R39 and R41 exclude. -/
def State.walk (s : State) (b : Bool) : Except Fault (State × Arrival) :=
  match s.node? s.cur.toNat with
  | none => .error .outOfRange
  | some here =>
    let n := if b then here.one else here.zero
    match s.node? n.toNat with
    | none => .error .outOfRange
    | some x =>
      if x.isLeaf then
        if x.sym = Config.eosSymbol then .ok ({ s with cur := n, dt := true }, .ended)
        else .ok ({ s.writeByte (x.sym.setWidth 8) with cur := s.root }, .emitted (x.sym.setWidth 8))
      else .ok ({ s with cur := n }, .moved)

/-- DSTEP (R141). -/
def execDstep (s : State) : Result :=
  command .dstep (fun s =>
    if s.dt then answer s 0x200
    else
      match s.bitIn with
      | [] => .next (s.raise .trunc (encode .dstep))
      | b :: rest =>
        match { s with bitIn := rest }.walk b with
        | .error f => .fault f
        | .ok (s', arrival) => answer s' arrival.data) s

/-- DECODE's loop on the bits of `BITIN`: one turn of DSTEP's body a bit, until the terminal state; `count` is the bytes
written so far (R142). -/
def decodeLoop : List Bool → Nat → State → Result
  | bits, count, s =>
    if s.dt then answer s (BitVec.ofNat 64 count)
    else
      match bits with
      | [] => .next (s.raise .trunc (encode .decode))
      | b :: rest =>
        match { s with bitIn := rest }.walk b with
        | .error f => .fault f
        | .ok (s', .emitted _) => decodeLoop rest (count + 1) s'
        | .ok (s', .moved) => decodeLoop rest count s'
        | .ok (s', .ended) => decodeLoop rest count s'

/-- DECODE (R142). -/
def execDecode (s : State) : Result := command .decode (fun s => decodeLoop s.bitIn 0 s) s

end Sys2Proof.Machine
end

