-- ==== Sys2Proof/Machine/Encoder.lean ====
section
/-!
DEFINITION. The encoder commands of `43_encoder.md`: ENC and EEOS.
-/

namespace Sys2Proof.Machine

/-- Write the code of a symbol to the bit-out port and return its length (R131, R132). The model stops where `CLEN` names
code bits that do not exist; R32 has it at most 256. -/
def writeCode (c : CodeEntry) (s : State) : Result :=
  if c.clen.toNat ≤ 256 then answer (s.writeBits c.bits) (c.clen.setWidth 64) else .fault .outOfRange

/-- ENC (R131). -/
def execEnc (byte : Index) (s : State) : Result :=
  command (.enc byte) (fun s =>
    if (s.codeAt byte.toNat).cv then writeCode (s.codeAt byte.toNat) s
    else .next (s.raise .noCode (encode (.enc byte)))) s

/-- EEOS (R132). -/
def execEeos (s : State) : Result := command .eeos (fun s => writeCode (s.codeAt Config.eos) s) s

end Sys2Proof.Machine
end

