-- ==== Sys2Proof/Machine/Frequency.lean ====
section
/-!
DEFINITION. The frequency-table commands of `40_frequency_table.md`: CNT, CEOS, LDF and RDF.
-/

namespace Sys2Proof.Machine

/-- Increment `FREQ[i]` for the command `cmd`: `E_CNTOVF` when the count is 2^32 - 1, else the new count (R90, R91). -/
def countUp (i : Nat) (cmd : Word) (s : State) : Result :=
  if s.freqAt i = Config.maxCount then .next (s.raise .cntOvf cmd)
  else answer (s.setFreq i (s.freqAt i + 1)) ((s.freqAt i + 1).setWidth 64)

/-- CNT (R90). -/
def execCnt (byte : Index) (s : State) : Result :=
  command (.cnt byte) (countUp byte.toNat (encode (.cnt byte))) s

/-- CEOS (R91). -/
def execCeos (s : State) : Result := command .ceos (countUp Config.eos (encode .ceos)) s

/-- LDF (R92). -/
def execLdf (sym : Index) (count : Count) (s : State) : Result :=
  command (.ldf sym count) (fun s => answer (s.setFreq sym.toNat count) 0) s

/-- RDF (R93). -/
def execRdf (sym : Index) (s : State) : Result :=
  command (.rdf sym) (fun s => answer s ((s.freqAt sym.toNat).setWidth 64)) s

end Sys2Proof.Machine
end

