-- ==== Sys2Proof/Machine/System.lean ====
section
/-!
DEFINITION. The system commands of `45_system_pipeline.md`: RESET and RDST.
-/

namespace Sys2Proof.Machine

/-- RESET (R150). -/
def execReset (s : State) : Result := command .reset (fun s => answer s.release 0) s

/-- RDST (R151). -/
def execRdst (sel : Sel) (s : State) : Result :=
  command (.rdst sel) (fun s => answer s (if sel = 0 then s.status else s.ecmd)) s

end Sys2Proof.Machine
end

