-- ==== Sys2Proof/Machine/Tree.lean ====
section
/-!
DEFINITION. The tree-builder commands of `41_tree_builder.md`: QLOAD, MERGE, BUILD and RDN.
-/

namespace Sys2Proof.Machine

/-- One turn of QLOAD's loop: the leaf of symbol `i`, if it has a count (R102). -/
def State.loadLeaf (s : State) (i : Nat) : State :=
  if s.freqAt i = 0 then s else s.setNode i (leafSlot i (s.freqAt i))

/-- QLOAD's loop over the symbols, ascending (R102). -/
def State.loadLeaves (s : State) : State := (List.range 257).foldl State.loadLeaf s

/-- The body of QLOAD without its respond; none where it raises `E_MALFORMED` (R102). -/
def State.loadQueue (s : State) : Option State :=
  if s.freqAt Config.eos = 0 then none
  else
    let loaded := { s.loadLeaves with qn := BitVec.ofNat 10 s.numEntries, nint := 0 }
    if s.numEntries = 1 then some { loaded with root := 256, cur := 256, dt := true, ph := .tree }
    else some { loaded with ph := .merging }

/-- The end of a MERGE that has created node `n`: when it is the only entry left it is the root (R103). -/
def State.completeTree (s : State) (n : Nat) : State :=
  if s.qn = 1 then { s with root := BitVec.ofNat 10 n, cur := BitVec.ofNat 10 n, dt := false, ph := .tree } else s

/-- Create internal node `n = 257 + NINT` over `A` and `B`, which have left the queue (R103). The model stops where the
slot does not exist, and where the exact sum of the weights or the exact `QN - 1` does not fit its element (R8): R103
shows that neither happens in a reachable state. -/
def State.join (s : State) (a b : Nat) : Except Fault State :=
  let n := 257 + s.nint.toNat
  let w := (s.nodeAt a).w.toNat + (s.nodeAt b).w.toNat
  if 513 ≤ n then .error .outOfRange
  else if 2 ^ 41 ≤ w ∨ s.qn = 0 then .error .doesNotFit
  else .ok ({ s.setNode n (innerSlot a b (BitVec.ofNat 41 w)) with nint := s.nint + 1, qn := s.qn - 1 }.completeTree n)

/-- The body of MERGE without its respond: two removals, then the new node (R103). -/
def State.mergeOnce (s : State) : Except Fault State :=
  match s.qmin with
  | none => .error .emptyQueue
  | some a =>
    match (s.dequeue a).qmin with
    | none => .error .emptyQueue
    | some b => ((s.dequeue a).dequeue b).join a b

/-- BUILD's loop, `while PH = 1: MERGE` (R104). `free` is the number of internal slots not yet used: with none left a
further MERGE stops, so the recursion cuts no run short. -/
def State.mergeAll : Nat → State → Except Fault State
  | 0, s => if s.ph = .merging then s.mergeOnce else .ok s
  | free + 1, s =>
    if s.ph = .merging then
      match s.mergeOnce with
      | .error f => .error f
      | .ok s' => State.mergeAll free s'
    else .ok s

/-- BUILD from the state in which merging is to start (R104). -/
def finishBuild (s : State) : Result :=
  match State.mergeAll (256 - s.nint.toNat) s with
  | .error f => .fault f
  | .ok s' => answer s' (s'.root.setWidth 64)

/-- QLOAD (R102). -/
def execQload (s : State) : Result :=
  command .qload (fun s =>
    match s.loadQueue with
    | none => .next (s.raise .malformed (encode .qload))
    | some s' => answer s' (s'.qn.setWidth 64)) s

/-- MERGE (R103): it returns the index of the node created. -/
def execMerge (s : State) : Result :=
  command .merge (fun s =>
    match s.mergeOnce with
    | .error f => .fault f
    | .ok s' => answer s' (BitVec.ofNat 64 (257 + s.nint.toNat))) s

/-- BUILD (R104). -/
def execBuild (s : State) : Result :=
  command .build (fun s =>
    if s.ph = .table then
      match s.loadQueue with
      | none => .next (s.raise .malformed (encode .build))
      | some s' => finishBuild s'
    else finishBuild s) s

/-- RDN (R105). -/
def execRdn (node : Index) (sel : Sel) (s : State) : Result :=
  command (.rdn node sel) (fun s => answer s (rdnData (s.nodeAt node.toNat) sel)) s

end Sys2Proof.Machine
end

