-- ==== Sys2Proof/Machine/Dispatch.lean ====
section
/-!
DEFINITION. One arm per command: the meaning of each constructor of `Instr`.
-/

namespace Sys2Proof.Machine

def exec (i : Instr) (s : State) : Host.Outcome State Fault Refusal :=
  match i with
  | .reset => Sys2Proof.Machine.execReset s
  | .rdst sel => Sys2Proof.Machine.execRdst sel s
  | .cnt byte => Sys2Proof.Machine.execCnt byte s
  | .ceos => Sys2Proof.Machine.execCeos s
  | .ldf sym count => Sys2Proof.Machine.execLdf sym count s
  | .rdf sym => Sys2Proof.Machine.execRdf sym s
  | .qload => Sys2Proof.Machine.execQload s
  | .merge => Sys2Proof.Machine.execMerge s
  | .build => Sys2Proof.Machine.execBuild s
  | .rdn node sel => Sys2Proof.Machine.execRdn node sel s
  | .derive => Sys2Proof.Machine.execDerive s
  | .rdc sym sel => Sys2Proof.Machine.execRdc sym sel s
  | .enc byte => Sys2Proof.Machine.execEnc byte s
  | .eeos => Sys2Proof.Machine.execEeos s
  | .dstep => Sys2Proof.Machine.execDstep s
  | .decode => Sys2Proof.Machine.execDecode s

end Sys2Proof.Machine
end

