-- ==== Sys2Proof/Machine/Step.lean ====
section
/-!
DEFINITION. One step of the machine: HFE takes the host's next event, a command word above all, and acts on it whole
(R5, R58). There is no program counter and no fetch (R22, R62).
-/

namespace Sys2Proof.Machine

/-- One step. A command word is decoded and run, or, if it is illegal, answered by the front end (R77); a hardware reset
acts as RESET does, without a response (R190); the host may position the bit-in port (R35). With no event HFE is idle and
keeps all state (R185). -/
def step (s : State) : Host.Outcome State Fault Refusal :=
  match s.hostIn with
  | [] => .next s
  | .hardwareReset :: rest => .next { s with hostIn := rest }.release
  | .positionBits bits :: rest => .next { s with hostIn := rest, bitIn := bits }
  | .command w :: rest =>
    match decode w with
    | .ok i => exec i { s with hostIn := rest }
    | .error _ => illegalWord w { s with hostIn := rest }

/-- `s` with the instruction whose bits are `w` presented by the host as its next command. -/
def State.withFetchWord (s : State) (nbits w : Nat) : State :=
  { s with hostIn := .command (tableWord nbits w) :: s.hostIn }

end Sys2Proof.Machine
end

