-- ==== Sys2Proof/Machine/Assembler.lean ====
section
/-!
DEFINITION. The assembler of `30_encoding.md` rule R78, from a line of characters to a command word, and the
pseudo-instructions of rule R79. The step does not use it: it is the host's way of writing command words.
-/

namespace Sys2Proof.Machine

/-- A token of a line: a run of letters and digits, a character between single quotes, or a comma (R78). -/
inductive Token where
  | word (cs : List Char)
  | quoted (c : Char)
  | comma
  deriving DecidableEq, Repr

/-- A letter or a digit: the characters that mnemonics, `EOS` and numbers are made of (R78). -/
def wordChar (c : Char) : Bool := c.isAlphanum

/-- Put a letter or digit in front of the tokens of what follows it; `joins` says that it stands next to another. -/
def prependChar (c : Char) (joins : Bool) : List Token → List Token
  | .word cs :: rest => if joins then .word (c :: cs) :: rest else .word [c] :: .word cs :: rest
  | rest => .word [c] :: rest

/-- The first character is a letter or a digit. -/
def startsWord : List Char → Bool
  | [] => false
  | c :: _ => wordChar c

/-- The tokens of a line: blanks separate, a semicolon starts a comment (R78). -/
def lexLine : List Char → Option (List Token)
  | [] => some []
  | '\'' :: c :: '\'' :: rest => (lexLine rest).map (Token.quoted c :: ·)
  | c :: rest =>
    if c = ';' then some []
    else if c = ' ' || c = '\t' then lexLine rest
    else if c = ',' then (lexLine rest).map (Token.comma :: ·)
    else if wordChar c then (lexLine rest).map (prependChar c (startsWord rest))
    else none

/-- The value of a digit of the given base, 10 or 16. -/
def digitValue (base : Nat) (c : Char) : Option Nat :=
  let v :=
    if '0' ≤ c ∧ c ≤ '9' then c.toNat - 48
    else if 'a' ≤ c ∧ c ≤ 'f' then c.toNat - 87
    else if 'A' ≤ c ∧ c ≤ 'F' then c.toNat - 55
    else base
  if v < base then some v else none

/-- The number a run of digits stands for, after the digits already read. -/
def digitsValue (base : Nat) : Nat → List Char → Option Nat
  | acc, [] => some acc
  | acc, c :: rest =>
    match digitValue base c with
    | none => none
    | some v => digitsValue base (acc * base + v) rest

/-- The value of an operand: a decimal or hexadecimal number, the ASCII code of a quoted character, or `EOS` = 256
(R78). -/
def operandValue : Token → Option Nat
  | .word ('0' :: 'x' :: c :: rest) => digitsValue 16 0 (c :: rest)
  | .word cs => if cs = ['E', 'O', 'S'] then some 256 else digitsValue 10 0 cs
  | .quoted c => if c.toNat < 128 then some c.toNat else none
  | .comma => none

/-- The operands after the mnemonic, separated by commas (R78). -/
def operandValues : List Token → Option (List Nat)
  | [] => some []
  | [t] => (operandValue t).map ([·])
  | t :: .comma :: t' :: rest =>
    match operandValue t, operandValues (t' :: rest) with
    | some v, some vs => some (v :: vs)
    | _, _ => none
  | _ => none

/-- A number as an operand of `w` bits; the assembler refuses one that does not fit rather than truncate it (R78). -/
def operandBits (w n : Nat) : Option (BitVec w) := if n < 2 ^ w then some (BitVec.ofNat w n) else none

/-- The command a mnemonic and its operand values stand for, ranges unchecked: the first operand goes to `idx`, except
for RDST, whose only operand is `sel`; a trailing `sel` may be left out and is then 0 (R78). -/
def commandOf (mnemonic : List Char) (ops : List Nat) : Option Instr :=
  if mnemonic = ['C', 'N', 'T'] then
    match ops with
    | [b] => (operandBits 10 b).map .cnt
    | _ => none
  else if mnemonic = ['C', 'E', 'O', 'S'] then if ops = [] then some .ceos else none
  else if mnemonic = ['L', 'D', 'F'] then
    match ops with
    | [s, n] =>
      match operandBits 10 s, operandBits 32 n with
      | some s, some n => some (.ldf s n)
      | _, _ => none
    | _ => none
  else if mnemonic = ['R', 'D', 'F'] then
    match ops with
    | [s] => (operandBits 10 s).map .rdf
    | _ => none
  else if mnemonic = ['Q', 'L', 'O', 'A', 'D'] then if ops = [] then some .qload else none
  else if mnemonic = ['M', 'E', 'R', 'G', 'E'] then if ops = [] then some .merge else none
  else if mnemonic = ['B', 'U', 'I', 'L', 'D'] then if ops = [] then some .build else none
  else if mnemonic = ['R', 'D', 'N'] then
    match ops with
    | [i] => (operandBits 10 i).map (.rdn · 0)
    | [i, sel] =>
      match operandBits 10 i, operandBits 8 sel with
      | some i, some sel => some (.rdn i sel)
      | _, _ => none
    | _ => none
  else if mnemonic = ['D', 'E', 'R', 'I', 'V', 'E'] then if ops = [] then some .derive else none
  else if mnemonic = ['R', 'D', 'C'] then
    match ops with
    | [s] => (operandBits 10 s).map (.rdc · 0)
    | [s, sel] =>
      match operandBits 10 s, operandBits 8 sel with
      | some s, some sel => some (.rdc s sel)
      | _, _ => none
    | _ => none
  else if mnemonic = ['E', 'N', 'C'] then
    match ops with
    | [b] => (operandBits 10 b).map .enc
    | _ => none
  else if mnemonic = ['E', 'E', 'O', 'S'] then if ops = [] then some .eeos else none
  else if mnemonic = ['D', 'S', 'T', 'E', 'P'] then if ops = [] then some .dstep else none
  else if mnemonic = ['D', 'E', 'C', 'O', 'D', 'E'] then if ops = [] then some .decode else none
  else if mnemonic = ['R', 'E', 'S', 'E', 'T'] then if ops = [] then some .reset else none
  else if mnemonic = ['R', 'D', 'S', 'T'] then
    match ops with
    | [] => some (.rdst 0)
    | [sel] => (operandBits 8 sel).map .rdst
    | _ => none
  else none

/-- The command of a line, refused when an operand is out of the range of R73 (R78). -/
def parseLine (line : List Char) : Option Instr :=
  match lexLine line with
  | some (.word mnemonic :: operands) =>
    match operandValues operands with
    | none => none
    | some ops =>
      match commandOf mnemonic ops with
      | none => none
      | some i => if i.wellFormed then some i else none
  | _ => none

/-- The command word of a line (R78). -/
def assembleLine (line : List Char) : Option Word := (parseLine line).map encode

/-! ## Pseudo-instructions (R79) -/

/-- `CNTS`: one CNT for each byte of the string, in string order. -/
def expandCnts (bytes : List Byte) : List Instr := bytes.map (fun b => .cnt (b.setWidth 10))

/-- `ENCS`: one ENC for each byte of the string, in string order. -/
def expandEncs (bytes : List Byte) : List Instr := bytes.map (fun b => .enc (b.setWidth 10))

/-- `LDFT`: one LDF for each entry, in the order written. -/
def expandLdft (entries : List (Index × Count)) : List Instr := entries.map (fun e => .ldf e.1 e.2)

end Sys2Proof.Machine
end

