-- ==== Sys2Proof/Machine/Pipeline.lean ====
section
/-!
DEFINITION. The host's command sequences of `45_system_pipeline.md`, rules R153 and R154, and a run of commands through
the machine's step.
-/

namespace Sys2Proof.Machine

/-- The entries the host persists: from the responses to `RDF 0` to `RDF 256` it keeps the symbols with a nonzero count,
with their counts (R153, R155). -/
def persistedEntries (reads : List Response) : List (Index × Count) :=
  (reads.zipIdx.filter (fun e => e.1.data != 0)).map (fun e => (BitVec.ofNat 10 e.2, e.1.data.setWidth 32))

/-- The compress sequence for the input bytes (R153). -/
def compressCommands (input : List Byte) : List Instr :=
  [.reset] ++ expandCnts input ++ [.ceos, .build, .derive] ++
    (List.range 257).map (fun i => .rdf (BitVec.ofNat 10 i)) ++ expandEncs input ++ [.eeos]

/-- The decompress sequence for the persisted table (R154). -/
def decompressCommands (entries : List (Index × Count)) : List Instr :=
  [.reset] ++ expandLdft entries ++ [.build, .decode]

/-- `s` with the host about to present the command words of the list, in order (R58). -/
def State.present (s : State) (commands : List Instr) : State :=
  { s with hostIn := commands.map (fun i => .command (encode i)) }

/-- Present the commands one after another and run the machine until each has had its step. -/
def runCommands (commands : List Instr) (s : State) : Result :=
  Host.Core.run Sys2Proof.core commands.length (s.present commands)

end Sys2Proof.Machine
end

