-- ==== Sys2Proof/Safety.lean ====
section
/-!
DEFINITION. What the claims about HFE are stated in terms of: the invariants of `10_state.md` rules R36 to R42 with the
facts R24 and R151 say of the fault registers, and the notions those rules use.
-/

namespace Sys2Proof.Machine

/-- The number of queue entries: `i` in 0 to 512 with `INQ[i] = 1` (R36). -/
def State.queueSize (s : State) : Nat := (List.range 513).countP (fun i => (s.nodeAt i).inq)

/-- The sum of all `FREQ[s]` (R40). -/
def State.totalCount (s : State) : Nat := ((List.range 257).map (fun i => (s.freqAt i).toNat)).sum

/-- The sum of the weights of the queue's entries. -/
def State.queueWeight (s : State) : Nat :=
  ((List.range 513).map (fun i => if (s.nodeAt i).inq then (s.nodeAt i).w.toNat else 0)).sum

/-- Node `c` is a child of the valid internal node `n`. -/
def State.isChild (s : State) (n c : Nat) : Prop :=
  257 ≤ n ∧ (s.nodeAt n).nv = true ∧ ((s.nodeAt n).zero.toNat = c ∨ (s.nodeAt n).one.toNat = c)

/-- The node the choices lead to from node `i`: a bit 0 follows the zero-child, a bit 1 the one-child of an internal node;
none where a choice is left at a leaf or at no node (R32, R42). -/
def State.follow (s : State) : Nat → List Bool → Option Nat
  | i, [] => some i
  | i, b :: rest =>
    if (s.nodeAt i).nv && !(s.nodeAt i).isLeaf then
      s.follow (if b then (s.nodeAt i).one.toNat else (s.nodeAt i).zero.toNat) rest
    else none

/-- A tree is complete: `PH >= 2` (R23). -/
def State.hasTree (s : State) : Prop := s.ph = .tree ∨ s.ph = .coded

/-- Node `i` is reachable from the root (R40). -/
def State.reachableFromRoot (s : State) (i : Nat) : Prop := ∃ path, s.follow s.root.toNat path = some i

/-- Queue entry `i` goes before queue entry `j`: `(NODE[i].w, i) < (NODE[j].w, j)` in the order of R8 (R12, R101). -/
def State.goesBefore (s : State) (i j : Nat) : Prop :=
  (s.nodeAt i).w.toNat < (s.nodeAt j).w.toNat ∨ ((s.nodeAt i).w.toNat = (s.nodeAt j).w.toNat ∧ i < j)

/-- The bits of the encoded stream of R130: the codes of the bytes in order, then the end-of-stream code. -/
def State.codeStream (s : State) (input : List Byte) : List Bool :=
  input.flatMap (fun b => (s.codeAt b.toNat).bits) ++ (s.codeAt 256).bits

/-- The 16 opcodes of R72. -/
def opcodes : List Opcode :=
  [0x10, 0x11, 0x12, 0x13, 0x20, 0x21, 0x22, 0x23, 0x30, 0x31, 0x40, 0x41, 0x50, 0x51, 0x01, 0x02]

/-- The largest `idx` R73 allows with an opcode. -/
def idxLimit (op : Opcode) : Nat :=
  if op = 0x10 ∨ op = 0x40 then 255
  else if op = 0x12 ∨ op = 0x13 ∨ op = 0x31 then 256
  else if op = 0x23 then 512
  else 0

/-- The largest `sel` R73 allows with an opcode. -/
def selLimit (op : Opcode) : Nat := if op = 0x02 then 1 else if op = 0x23 then 2 else if op = 0x31 then 8 else 0

/-- A word is legal, field by field: none of the four cases of R75 holds, with the ranges of R73. -/
def legalWord (w : Word) : Prop :=
  opField w ∈ opcodes ∧ rsvField w = 0 ∧ (idxField w).toNat ≤ idxLimit (opField w) ∧
    (selField w).toNat ≤ selLimit (opField w) ∧ (opField w = 0x12 ∨ dataField w = 0)

/-- The fields of a command word that hold operands (R71). -/
inductive OperandField where
  | idx
  | sel
  | data
  deriving DecidableEq, Repr

/-- The largest value R73 allows in a field with an opcode that uses it. -/
def OperandField.limit (op : Opcode) : OperandField → Nat
  | .idx => idxLimit op
  | .sel => selLimit op
  | .data => 2 ^ 32 - 1

/-- What a field of a command holds. -/
def OperandField.value (i : Instr) : OperandField → Nat
  | .idx => i.idx.toNat
  | .sel => i.sel.toNat
  | .data => i.data.toNat

/-- One mnemonic of R78, with its opcode and the fields its operands go to, in operand order. -/
structure AssemblerRow where
  mnemonic : List Char
  op : Opcode
  fields : List OperandField
  deriving DecidableEq, Repr

/-- The 16 mnemonics of R78 and their operand order. -/
def assemblerRows : List AssemblerRow :=
  [ ⟨['C', 'N', 'T'], 0x10, [.idx]⟩,
    ⟨['C', 'E', 'O', 'S'], 0x11, []⟩,
    ⟨['L', 'D', 'F'], 0x12, [.idx, .data]⟩,
    ⟨['R', 'D', 'F'], 0x13, [.idx]⟩,
    ⟨['Q', 'L', 'O', 'A', 'D'], 0x20, []⟩,
    ⟨['M', 'E', 'R', 'G', 'E'], 0x21, []⟩,
    ⟨['B', 'U', 'I', 'L', 'D'], 0x22, []⟩,
    ⟨['R', 'D', 'N'], 0x23, [.idx, .sel]⟩ ] ++
  [ ⟨['D', 'E', 'R', 'I', 'V', 'E'], 0x30, []⟩,
    ⟨['R', 'D', 'C'], 0x31, [.idx, .sel]⟩,
    ⟨['E', 'N', 'C'], 0x40, [.idx]⟩,
    ⟨['E', 'E', 'O', 'S'], 0x41, []⟩,
    ⟨['D', 'S', 'T', 'E', 'P'], 0x50, []⟩,
    ⟨['D', 'E', 'C', 'O', 'D', 'E'], 0x51, []⟩,
    ⟨['R', 'E', 'S', 'E', 'T'], 0x01, []⟩,
    ⟨['R', 'D', 'S', 'T'], 0x02, [.sel]⟩ ]

/-- `n` operands are the right number for the mnemonic: one for each field, or one less where the last is `sel` (R78). -/
def AssemblerRow.takes (r : AssemblerRow) (n : Nat) : Prop :=
  n = r.fields.length ∨ (n + 1 = r.fields.length ∧ r.fields.getLast? = some .sel)

/-- The phases R74 marks for an opcode. -/
def phasesOf (op : Opcode) : List Phase :=
  if op ∈ [0x10, 0x11, 0x12, 0x20] then [.table]
  else if op = 0x21 then [.merging]
  else if op = 0x22 then [.table, .merging]
  else if op = 0x30 then [.tree]
  else if op ∈ [0x40, 0x41] then [.coded]
  else if op ∈ [0x50, 0x51] then [.tree, .coded]
  else [.table, .merging, .tree, .coded]

/-- The opcodes of the exempt commands (R171). -/
def exemptOpcodes : List Opcode := [0x01, 0x02, 0x13, 0x23, 0x31]

/-- The step is about to run a command whose opcode is in the list. -/
def State.presents (s : State) (ops : List Opcode) : Prop :=
  ∃ w rest i, s.hostIn = .command w :: rest ∧ decode w = .ok i ∧ i.op ∈ ops

/-- The response codes each command can return, the rows of the table of R167 (and `OK`, R165). -/
def responseCodes : Instr → List RspCode
  | .cnt _ | .ceos => [.ok, .halted, .fault .illegal, .fault .seq, .fault .cntOvf]
  | .ldf _ _ | .merge | .derive | .eeos => [.ok, .halted, .fault .illegal, .fault .seq]
  | .rdf _ | .rdn _ _ | .rdc _ _ | .reset | .rdst _ => [.ok, .fault .illegal]
  | .qload | .build => [.ok, .halted, .fault .illegal, .fault .seq, .fault .malformed]
  | .enc _ => [.ok, .halted, .fault .illegal, .fault .seq, .fault .noCode]
  | .dstep | .decode => [.ok, .halted, .fault .illegal, .fault .seq, .fault .trunc]

/-- R24 and R151: `ERR` holds 0 or a code of 1 to 6, and `ECMD` is 0 whenever `ERR` is 0. -/
structure State.FaultInv (s : State) : Prop where
  errRange : s.err.toNat ≤ 6
  ecmdClear : s.err = 0 → s.ecmd = 0

/-- R36. -/
structure State.QueueInv (s : State) : Prop where
  count : s.qn.toNat = s.queueSize
  valid : ∀ i, (s.nodeAt i).inq = true → (s.nodeAt i).nv = true

/-- R37: what holds in phase 0. -/
structure State.TableInv (s : State) : Prop where
  noNode : ∀ i, (s.nodeAt i).nv = false ∧ (s.nodeAt i).inq = false
  root : s.root = Config.nil
  cur : s.cur = Config.nil
  dt : s.dt = false
  qn : s.qn = 0
  nint : s.nint = 0

/-- R38: what holds once the queue has been loaded. -/
structure State.LoadedInv (s : State) : Prop where
  leaves : ∀ i, i < 257 → ((s.nodeAt i).nv = true ↔ s.freqAt i ≠ 0)
  eos : s.freqAt 256 ≠ 0
  inner : ∀ k, k < 256 → ((s.nodeAt (257 + k)).nv = true ↔ k < s.nint.toNat)
  balance : s.qn.toNat + s.nint.toNat = s.numEntries

/-- R38, last sentence: what holds in phase 1. -/
structure State.MergingInv (s : State) : Prop where
  qn : 2 ≤ s.qn.toNat
  root : s.root = Config.nil
  cur : s.cur = Config.nil
  dt : s.dt = false

/-- R39: every valid node is well formed, no node is the child of two, a queue entry is the child of none. The last two
fields are what R40 is derived from: a valid node out of the queue is some node's child, and the queue's entries weigh
together what the table counts. -/
structure State.NodesInv (s : State) : Prop where
  leaf : ∀ i, i < 257 → (s.nodeAt i).nv = true →
    (s.nodeAt i).sym = BitVec.ofNat 9 i ∧ (s.nodeAt i).w = (s.freqAt i).setWidth 41 ∧
      (s.nodeAt i).zero = Config.nil ∧ (s.nodeAt i).one = Config.nil
  inner : ∀ n, 257 ≤ n → (s.nodeAt n).nv = true →
    (s.nodeAt n).sym = Config.notASymbol ∧
      (s.nodeAt n).zero.toNat < n ∧ (s.nodeAt n).one.toNat < n ∧ (s.nodeAt n).zero ≠ (s.nodeAt n).one ∧
      (s.nodeAt (s.nodeAt n).zero.toNat).nv = true ∧ (s.nodeAt (s.nodeAt n).one.toNat).nv = true ∧
      (s.nodeAt n).w.toNat =
        (s.nodeAt (s.nodeAt n).zero.toNat).w.toNat + (s.nodeAt (s.nodeAt n).one.toNat).w.toNat
  oneParent : ∀ m n c, s.isChild m c → s.isChild n c → m = n
  queuedNoParent : ∀ n c, (s.nodeAt c).inq = true → ¬ s.isChild n c
  hasParent : ∀ c, (s.nodeAt c).nv = true → (s.nodeAt c).inq = false → ∃ n, s.isChild n c
  weight : s.queueWeight = s.totalCount

/-- R40 and R41: what holds once a tree is complete. -/
structure State.TreeInv (s : State) : Prop where
  qn : s.qn = 1
  root : (s.nodeAt s.root.toNat).inq = true
  cur : (s.nodeAt s.cur.toNat).nv = true
  terminal : s.dt = true ↔ s.cur = 256
  walking : s.dt = false → 257 ≤ s.cur.toNat

/-- R32 and R42: what holds of the code table in phase 3. -/
structure State.CodesInv (s : State) : Prop where
  coded : ∀ i, i < 257 → ((s.codeAt i).cv = true ↔ s.freqAt i ≠ 0)
  length : ∀ i, (s.codeAt i).cv = true → (s.codeAt i).clen.toNat ≤ 256
  unused : ∀ i k, (s.codeAt i).cv = true → (s.codeAt i).clen.toNat ≤ k → (s.codeAt i).cbits.getLsbD k = false
  path : ∀ i, (s.codeAt i).cv = true → s.follow s.root.toNat (s.codeAt i).bits = some i

/-- The invariant of HFE: the tables are in canonical form, and R24, R36 to R42 and R151 hold, phase by phase. -/
structure State.Inv (s : State) : Prop where
  wf : s.tablesWf = true
  fault : s.FaultInv
  queue : s.QueueInv
  table : s.ph = .table → s.TableInv
  loaded : s.ph ≠ .table → s.LoadedInv
  nodes : s.ph ≠ .table → s.NodesInv
  merging : s.ph = .merging → s.MergingInv
  tree : s.hasTree → s.TreeInv
  codes : s.ph = .coded → s.CodesInv
  noCodes : s.ph ≠ .coded → ∀ i, (s.codeAt i).cv = false

end Sys2Proof.Machine
end

