-- ==== Sys2Proof/Certificates/Slice0/Obligations.lean ====
section
/-!
DEFINITION. The statements for the provers. A statement about a command says what `exec` answers and, by writing the next
state as the old one with the changed elements named, that everything else is unchanged: `t = { s with freq := t.freq, … }`
leaves every register, table and port history not named as it was.
-/

open Sys2Proof Sys2Proof.Machine

/-! ## Encoding -/

/-- Encoding loses nothing: every well-formed command is read back from its word, every operand at every value
(R71, R72, R73). -/
def Obligations.DecodeOfEncode : Prop :=
  ∀ i : Instr, i.wellFormed = true → decode (encode i) = .ok i

/-- Each command has one word: what decodes to `i` is the word of `i`, and `i` is well formed (R75). -/
def Obligations.EncodeOfDecode : Prop :=
  ∀ (w : Word) (i : Instr), decode w = .ok i → encode i = w ∧ i.wellFormed = true

/-- R75: a word is decoded exactly when none of the four cases holds, field by field, with the ranges of R73. -/
def Obligations.LegalWordsDecode : Prop :=
  ∀ w : Word, (∃ i, decode w = .ok i) ↔ legalWord w

/-- R72: a word is decoded exactly when a row of the opcode map accepts it by `match`, `mask` and range checks; no two rows
accept the same word, and the row's opcode is that of the command read. -/
def Obligations.OpcodeMapDecides : Prop :=
  (∀ w : Word, (∃ i, decode w = .ok i) ↔ ∃ r ∈ opcodeTable, r.accepts w = true) ∧
  (∀ w : Word, ∀ r ∈ opcodeTable, ∀ r' ∈ opcodeTable, r.accepts w = true → r'.accepts w = true → r = r') ∧
  (∀ w : Word, ∀ i : Instr, ∀ r ∈ opcodeTable, decode w = .ok i → r.accepts w = true →
    opField r.fixedBits = i.op ∧ opField w = i.op)

/-- The words the spec writes out are read as the commands it says they are (R78, R90 to R93, R131, R141). -/
def Obligations.WordsWrittenOut : Prop :=
  decode 0x1000006100000000 = .ok (.cnt 97) ∧ decode 0x1200010000000001 = .ok (.ldf 256 1) ∧
  decode 0x2302010200000000 = .ok (.rdn 258 2) ∧ decode 0x3108006200000000 = .ok (.rdc 98 8) ∧
  decode 0x0201000000000000 = .ok (.rdst 1) ∧ decode 0x4000006200000000 = .ok (.enc 98) ∧
  decode 0x5000000000000000 = .ok .dstep ∧ decode 0 = .error .unknownOpcode

/-- R78, R73: the assembler makes legal words only, each decoding to the command of its line, and a line it reads is one of
the 16 mnemonics with operands. It refuses a line with a value above the limit of the field the operand goes to, or with the
wrong number of operands; every other line it turns into the command of that mnemonic whose fields hold exactly the values,
in operand order, a trailing `sel` left out being 0. The five examples of R78 assemble to the words given. How characters are
grouped into tokens is log entry 13. -/
def Obligations.AssemblerMakesLegalWords : Prop :=
  (∀ (line : List Char) (w : Word), assembleLine line = some w →
    legalWord w ∧ ∃ i, parseLine line = some i ∧ decode w = .ok i) ∧
  (∀ (line : List Char) (i : Instr), parseLine line = some i →
    ∃ mnemonic tokens values, lexLine line = some (.word mnemonic :: tokens) ∧ operandValues tokens = some values ∧
      ∃ r ∈ assemblerRows, r.mnemonic = mnemonic) ∧
  (∀ (line mnemonic : List Char) (tokens : List Token) (values : List Nat),
    lexLine line = some (.word mnemonic :: tokens) → operandValues tokens = some values →
    ∀ r ∈ assemblerRows, r.mnemonic = mnemonic →
      ((∃ f v, (f, v) ∈ r.fields.zip values ∧ f.limit r.op < v) → parseLine line = none) ∧
      (¬ r.takes values.length → parseLine line = none) ∧
      (r.takes values.length → (∀ f v, (f, v) ∈ r.fields.zip values → v ≤ f.limit r.op) →
        ∃ i, parseLine line = some i ∧ assembleLine line = some (encode i) ∧ i.op = r.op ∧
          ∀ k f, r.fields[k]? = some f → f.value i = values.getD k 0)) ∧
  assembleLine ['C', 'N', 'T', ' ', '\'', 'a', '\''] = some 0x1000006100000000 ∧
  assembleLine ['L', 'D', 'F', ' ', 'E', 'O', 'S', ',', ' ', '1'] = some 0x1200010000000001 ∧
  assembleLine ['R', 'D', 'N', ' ', '2', '5', '8', ',', ' ', '2'] = some 0x2302010200000000 ∧
  assembleLine ['R', 'D', 'C', ' ', '\'', 'b', '\'', ',', ' ', '8'] = some 0x3108006200000000 ∧
  assembleLine ['R', 'D', 'S', 'T', ' ', '1'] = some 0x0201000000000000

/-! ## The step and the front end -/

/-- A step runs the command the presented word decodes to, after taking the word from the host (R70, R77). -/
def Obligations.StepRunsDecodedCommand : Prop :=
  ∀ (s : State) (w : Word) (rest : List HostEvent) (i : Instr), s.hostIn = .command w :: rest → decode w = .ok i →
    step s = exec i { s with hostIn := rest }

/-- R185, R190: with nothing presented the machine keeps all state; a hardware reset gives every element its reset value,
leaves the port histories; positioning the bit-in port changes `BITIN` alone. The host events are the model's own (log
entry 2), and that the hardware reset answers no response is the model's reading of R190 (log entry 14). -/
def Obligations.StepWithoutCommand : Prop :=
  ∀ (s : State) (rest : List HostEvent),
    (s.hostIn = [] → step s = .next s) ∧
    (s.hostIn = .hardwareReset :: rest → step s = .next { s with
      hostIn := rest, ph := .table, err := 0, ecmd := 0, root := 0x3FF, cur := 0x3FF, dt := false, qn := 0, nint := 0,
      freq := [], nodes := [], codes := [] }) ∧
    (∀ bits, s.hostIn = .positionBits bits :: rest → step s = .next { s with hostIn := rest, bitIn := bits })

/-- R75, R77, R170, R171: an illegal word raises `E_ILLEGAL`; a fault already recorded stays as it is. -/
def Obligations.IllegalWordFaults : Prop :=
  ∀ (s : State) (w : Word) (rest : List HostEvent), s.hostIn = .command w :: rest → ¬ legalWord w →
    (s.err = 0 → step s = .next { s with
      hostIn := rest, err := 4, ecmd := w, rspOut := s.rspOut ++ [⟨.fault .illegal, 0⟩] }) ∧
    (s.err ≠ 0 → opField w ∈ exemptOpcodes → step s = .next { s with
      hostIn := rest, rspOut := s.rspOut ++ [⟨.fault .illegal, 0⟩] })

/-- R171: a faulted HFE refuses every word whose top byte is not an exempt opcode, legal or not, and changes nothing; an
exempt command is executed, and an illegal word with an exempt opcode answers `E_ILLEGAL` without being recorded. -/
def Obligations.FaultedRefusesAllButExempt : Prop :=
  ∀ (s : State) (w : Word) (rest : List HostEvent), s.hostIn = .command w :: rest → s.err ≠ 0 →
    (opField w ∉ exemptOpcodes →
      step s = .next { s with hostIn := rest, rspOut := s.rspOut ++ [⟨.halted, 0⟩] }) ∧
    (opField w ∈ exemptOpcodes → ¬ legalWord w →
      step s = .next { s with hostIn := rest, rspOut := s.rspOut ++ [⟨.fault .illegal, 0⟩] }) ∧
    (opField w ∈ exemptOpcodes → legalWord w →
      ∃ t d, step s = .next t ∧ t.rspOut = s.rspOut ++ [⟨.ok, d⟩] ∧
        (w ≠ 0x0100000000000000 → t = { s with hostIn := rest, rspOut := s.rspOut ++ [⟨.ok, d⟩] }))

/-- A command value with an operand out of the range of R73 faults as the illegal word that carries it does by R75 (d); a
faulted HFE records nothing. The spec speaks of words only: that `exec` answers this on such a value is the model's own
(log entry 5). -/
def Obligations.OperandOutOfRangeFaults : Prop :=
  ∀ (i : Instr) (s : State), i.wellFormed = false → (s.err = 0 ∨ i.op ∈ exemptOpcodes) →
    exec i s = .next (if s.err = 0 then
        { s with err := 4, ecmd := encode i, rspOut := s.rspOut ++ [⟨.fault .illegal, 0⟩] }
      else { s with rspOut := s.rspOut ++ [⟨.fault .illegal, 0⟩] })

/-- R74: a command issued in a phase it is not legal in raises `E_SEQ` and changes nothing else; in a phase it is legal
in it never answers `E_SEQ`. -/
def Obligations.WrongPhaseFaults : Prop :=
  ∀ (i : Instr) (s : State), s.err = 0 → i.wellFormed = true →
    (s.ph ∉ phasesOf i.op →
      exec i s = .next { s with err := 5, ecmd := encode i, rspOut := s.rspOut ++ [⟨.fault .seq, 0⟩] }) ∧
    (s.ph ∈ phasesOf i.op → ∀ t d, exec i s = .next t → t.rspOut ≠ s.rspOut ++ [⟨.fault .seq, d⟩])

/-- R76: a command that completes returns exactly one response, of 72 bits: the code in bits 71:64 and the data in 63:0,
which is 0 when the code is not `OK`. The history of responses is the model's own (log entry 3). -/
def Obligations.OneResponsePerCommand : Prop :=
  ∀ (i : Instr) (s t : State), exec i s = .next t →
    ∃ r, t.rspOut = s.rspOut ++ [r] ∧ r.bits.extractLsb' 64 8 = r.code.bits ∧ r.bits.extractLsb' 0 64 = r.data ∧
      (r.code ≠ .ok → r.data = 0) ∧ t.hostIn = s.hostIn

/-- R165, R167: the codes have the values 0 to 7 of the table of R165, the recorded ones the same in `ERR`, and a command
returns only the codes its row of R167 has: `E_SEQ` in a phase it is not legal in only, `E_MALFORMED` from phase 0 only. -/
def Obligations.ResponseCodesOfEachCommand : Prop :=
  (RspCode.ok.bits = 0x00 ∧ (RspCode.fault .malformed).bits = 0x01 ∧ (RspCode.fault .trunc).bits = 0x02 ∧
    (RspCode.fault .noCode).bits = 0x03 ∧ (RspCode.fault .illegal).bits = 0x04 ∧ (RspCode.fault .seq).bits = 0x05 ∧
    (RspCode.fault .cntOvf).bits = 0x06 ∧ RspCode.halted.bits = 0x07 ∧
    ∀ f : FaultCode, f.errBits.setWidth 8 = (RspCode.fault f).bits) ∧
  ∀ (i : Instr) (s t : State) (c : RspCode) (d : BitVec 64), exec i s = .next t → t.rspOut = s.rspOut ++ [⟨c, d⟩] →
    c ∈ responseCodes i ∧ (c = .halted → s.err ≠ 0) ∧ (c = .fault .malformed → s.ph = .table) ∧
    (c = .fault .seq → s.ph ∉ phasesOf i.op)

/-- R43, R169: whatever the word, a fault changes `ERR` and `ECMD` only, and those only when no fault was recorded; no later
command has started. DECODE (0x51) alone keeps effects: those of the decoder steps it completed, which are those of as many
DSTEP commands that answer `OK` (run as log entry 15 says). The invariant holds in the faulted state too. -/
def Obligations.FaultsArePrecise : Prop :=
  ∀ (s t : State) (w : Word) (rest : List HostEvent) (f : FaultCode) (d : BitVec 64),
    s.hostIn = .command w :: rest → step s = .next t → t.rspOut = s.rspOut ++ [⟨.fault f, d⟩] →
    (s.Inv → t.Inv) ∧
    (w = 0x5100000000000000 → ∃ (u : State) (steps : List Response),
      runCommands (List.replicate steps.length .dstep) s = .next u ∧ u.rspOut = s.rspOut ++ steps ∧
        (∀ r ∈ steps, r.code = .ok) ∧ t.bitIn = u.bitIn ∧ t.byteOut = u.byteOut ∧ t.cur = u.cur) ∧
    ∃ used bytes, s.bitIn = used ++ t.bitIn ∧
      (w ≠ 0x5100000000000000 → used = [] ∧ bytes = [] ∧ t.cur = s.cur) ∧
      t = { s with
        hostIn := rest
        err := if s.err = 0 then f.errBits else s.err
        ecmd := if s.err = 0 then w else s.ecmd
        bitIn := t.bitIn, byteOut := s.byteOut ++ bytes, cur := t.cur
        rspOut := s.rspOut ++ [⟨.fault f, 0⟩] }

/-- R24, R25: `ERR` and `ECMD` are written when `ERR` is 0 and a command faults, with the code and the whole word, and
then kept until a hardware reset or a step that runs RESET, which clear both. -/
def Obligations.FirstFaultIsKept : Prop :=
  ∀ s t : State, step s = .next t →
    (s.err = 0 → (t.err = 0 ∧ (t.ecmd = s.ecmd ∨ t.ecmd = 0)) ∨
      ∃ w rest f, s.hostIn = .command w :: rest ∧ t.rspOut = s.rspOut ++ [⟨.fault f, 0⟩] ∧ t.err = f.errBits ∧
        t.ecmd = w) ∧
    ((∃ rest, s.hostIn = .hardwareReset :: rest ∨ s.hostIn = .command 0x0100000000000000 :: rest) →
      t.err = 0 ∧ t.ecmd = 0) ∧
    (s.err ≠ 0 →
      ¬ (∃ rest, s.hostIn = .hardwareReset :: rest ∨ s.hostIn = .command 0x0100000000000000 :: rest) →
      t.err = s.err ∧ t.ecmd = s.ecmd)

/-! ## System commands -/

/-- R190, R191: the value of every element after reset. -/
def Obligations.ResetState : Prop :=
  State.reset.ph = .table ∧ State.reset.err = 0 ∧ State.reset.ecmd = 0 ∧ State.reset.root = 0x3FF ∧
  State.reset.cur = 0x3FF ∧ State.reset.dt = false ∧ State.reset.qn = 0 ∧ State.reset.nint = 0 ∧
  (∀ i, State.reset.freqAt i = 0) ∧ (∀ i, State.reset.nodeAt i = ⟨false, false, 0, 0, 0, 0⟩) ∧
  (∀ i, State.reset.codeAt i = ⟨false, 0, 0⟩) ∧ State.reset.bitOut = [] ∧ State.reset.byteOut = [] ∧
  State.reset.status = 0x000000000FFFFF00 ∧ State.reset.faultOutput = 0

/-- R150: RESET gives every element its reset value in any state, faulted or not, and leaves the port histories; a word
with RESET's opcode that is not exactly RESET's word is illegal and resets nothing. -/
def Obligations.ResetReleasesEverything : Prop :=
  ∀ s : State,
    exec .reset s = .next { s with
      ph := .table, err := 0, ecmd := 0, root := 0x3FF, cur := 0x3FF, dt := false, qn := 0, nint := 0,
      freq := [], nodes := [], codes := [], rspOut := s.rspOut ++ [⟨.ok, 0⟩] } ∧
    ∀ (w : Word) (rest : List HostEvent), s.hostIn = .command w :: rest → opField w = 0x01 →
      w ≠ 0x0100000000000000 → step s = .next { s with
        hostIn := rest, err := if s.err = 0 then 4 else s.err, ecmd := if s.err = 0 then w else s.ecmd
        rspOut := s.rspOut ++ [⟨.fault .illegal, 0⟩] }

/-- R151, R26, R176: in any state RDST 0 returns `STATUS`, each register at its bits and `FLT`, the `fault` output, at bit
2; RDST 1 returns `ECMD`; nothing else changes. -/
def Obligations.RdstReadsStatus : Prop :=
  ∀ s : State,
    (∃ d : BitVec 64, exec (.rdst 0) s = .next { s with rspOut := s.rspOut ++ [⟨.ok, d⟩] } ∧
      d.extractLsb' 0 2 = s.ph.bits ∧ d.getLsbD 2 = decide (s.err ≠ 0) ∧ d.getLsbD 3 = s.dt ∧
      d.extractLsb' 4 4 = s.err ∧ d.extractLsb' 8 10 = s.root ∧ d.extractLsb' 18 10 = s.cur ∧
      d.extractLsb' 28 10 = s.qn ∧ d.extractLsb' 38 9 = s.nint ∧ d.extractLsb' 47 17 = 0 ∧
      s.faultOutput = d.extractLsb' 2 1) ∧
    exec (.rdst 1) s = .next { s with rspOut := s.rspOut ++ [⟨.ok, s.ecmd⟩] }

/-- R56: a read changes no state element and no port history, and the same read issued again returns the same data. -/
def Obligations.ReadsHaveNoSideEffect : Prop :=
  ∀ (i : Instr) (s : State), i.op ∈ [0x02, 0x13, 0x23, 0x31] → i.wellFormed = true →
    ∃ d, exec i s = .next { s with rspOut := s.rspOut ++ [⟨.ok, d⟩] } ∧
      exec i { s with rspOut := s.rspOut ++ [⟨.ok, d⟩] } =
        .next { s with rspOut := s.rspOut ++ [⟨.ok, d⟩] ++ [⟨.ok, d⟩] }

/-! ## The frequency table -/

/-- R90: CNT raises the count of its byte by one, from any count below 2^32 - 1, and returns the new count; no other count
and nothing else changes. -/
def Obligations.CntCountsByte : Prop :=
  ∀ (s : State) (b : Index), s.err = 0 → s.ph = .table → b.toNat ≤ 255 → s.freqAt b.toNat ≠ 0xFFFFFFFF →
    ∃ t, exec (.cnt b) s = .next t ∧ (t.freqAt b.toNat).toNat = (s.freqAt b.toNat).toNat + 1 ∧
      (∀ k, k ≠ b.toNat → t.freqAt k = s.freqAt k) ∧
      t = { s with freq := t.freq, rspOut := s.rspOut ++ [⟨.ok, (t.freqAt b.toNat).setWidth 64⟩] }

/-- R91: CEOS raises the count of the end-of-stream symbol by one and returns it; nothing else changes. -/
def Obligations.CeosCountsEndOfStream : Prop :=
  ∀ s : State, s.err = 0 → s.ph = .table → s.freqAt 256 ≠ 0xFFFFFFFF →
    ∃ t, exec .ceos s = .next t ∧ (t.freqAt 256).toNat = (s.freqAt 256).toNat + 1 ∧
      (∀ k, k ≠ 256 → t.freqAt k = s.freqAt k) ∧
      t = { s with freq := t.freq, rspOut := s.rspOut ++ [⟨.ok, (t.freqAt 256).setWidth 64⟩] }

/-- R90, R91: a count of 2^32 - 1 is not incremented: `E_CNTOVF`, and the count stays. -/
def Obligations.CountOverflowFaults : Prop :=
  ∀ s : State, s.err = 0 → s.ph = .table →
    (∀ b : Index, b.toNat ≤ 255 → s.freqAt b.toNat = 0xFFFFFFFF → exec (.cnt b) s = .next { s with
      err := 6, ecmd := encode (.cnt b), rspOut := s.rspOut ++ [⟨.fault .cntOvf, 0⟩] }) ∧
    (s.freqAt 256 = 0xFFFFFFFF → exec .ceos s = .next { s with
      err := 6, ecmd := encode .ceos, rspOut := s.rspOut ++ [⟨.fault .cntOvf, 0⟩] })

/-- R92: LDF replaces the count of one symbol, `EOS` included, by any count, 0 included. -/
def Obligations.LdfLoadsEntry : Prop :=
  ∀ (s : State) (sym : Index) (n : Count), s.err = 0 → s.ph = .table → sym.toNat ≤ 256 →
    ∃ t, exec (.ldf sym n) s = .next t ∧ t.freqAt sym.toNat = n ∧ (∀ k, k ≠ sym.toNat → t.freqAt k = s.freqAt k) ∧
      t = { s with freq := t.freq, rspOut := s.rspOut ++ [⟨.ok, 0⟩] }

/-- R92: LDF commands for distinct symbols commute: the same table results in either order. Commands are run one after
another as log entry 15 says. -/
def Obligations.LdfCommandsCommute : Prop :=
  ∀ (s : State) (a b : Index) (m n : Count), s.tablesWf = true → s.err = 0 → s.ph = .table →
    a.toNat ≤ 256 → b.toNat ≤ 256 → a ≠ b →
    ∃ t, runCommands [.ldf a m, .ldf b n] s = .next t ∧ runCommands [.ldf b n, .ldf a m] s = .next t

/-- R93: RDF returns the count of any symbol, in any phase, faulted or not; nothing else changes. -/
def Obligations.RdfReadsEntry : Prop :=
  ∀ (s : State) (sym : Index), sym.toNat ≤ 256 →
    exec (.rdf sym) s = .next { s with rspOut := s.rspOut ++ [⟨.ok, (s.freqAt sym.toNat).setWidth 64⟩] }

/-- R94: after one CNT for each byte of a sequence, and one CEOS, in any order, from reset, the table holds the number of
occurrences of each byte and one end-of-stream count, and the counts sum to the length plus one. Commands are run one after
another as log entry 15 says. -/
def Obligations.FrequencyCompleteness : Prop :=
  ∀ (input : List Byte) (commands : List Instr), (∀ b, input.count b < 2 ^ 32) →
    commands.Perm (expandCnts input ++ [.ceos]) →
    ∃ t, runCommands commands State.reset = .next t ∧ t.err = 0 ∧
      (∀ b : Byte, (t.freqAt b.toNat).toNat = input.count b) ∧ t.freqAt 256 = 1 ∧
      t.totalCount = input.length + 1

/-! ## The tree builder -/

/-- R12: `qmin()` is defined exactly when some `i` has `INQ[i] = 1`, and is the entry whose pair is least. -/
def Obligations.QminIsLeastEntry : Prop :=
  ∀ (s : State) (a : Nat),
    (s.qmin = some a ↔ a < 513 ∧ (s.nodeAt a).inq = true ∧
      ∀ c, c < 513 → (s.nodeAt c).inq = true → c ≠ a → s.goesBefore a c) ∧
    (s.qmin = none ↔ ¬ ∃ c, c < 513 ∧ (s.nodeAt c).inq = true)

/-- R102: QLOAD makes one queued leaf for each table entry, counts them, and completes the tree at once when the
end-of-stream leaf is alone; it returns the number of leaves. No other slot and nothing else changes. -/
def Obligations.QloadLoadsLeaves : Prop :=
  ∀ s : State, s.err = 0 → s.ph = .table → s.freqAt 256 ≠ 0 →
    ∃ t, exec .qload s = .next t ∧
      (∀ k, t.nodeAt k = if k < 257 ∧ s.freqAt k ≠ 0
        then ⟨true, true, BitVec.ofNat 9 k, (s.freqAt k).setWidth 41, 0x3FF, 0x3FF⟩ else s.nodeAt k) ∧
      t.qn.toNat = s.numEntries ∧
      t = { s with
        nodes := t.nodes, qn := t.qn, nint := 0
        root := if s.numEntries = 1 then 256 else s.root
        cur := if s.numEntries = 1 then 256 else s.cur
        dt := if s.numEntries = 1 then true else s.dt
        ph := if s.numEntries = 1 then .tree else .merging
        rspOut := s.rspOut ++ [⟨.ok, t.qn.setWidth 64⟩] }

/-- R102, R104: without an end-of-stream entry QLOAD and BUILD from phase 0 raise `E_MALFORMED` and load nothing. -/
def Obligations.MalformedTableFaults : Prop :=
  ∀ s : State, s.err = 0 → s.ph = .table → s.freqAt 256 = 0 →
    exec .qload s = .next { s with
      err := 1, ecmd := encode .qload, rspOut := s.rspOut ++ [⟨.fault .malformed, 0⟩] } ∧
    exec .build s = .next { s with
      err := 1, ecmd := encode .build, rspOut := s.rspOut ++ [⟨.fault .malformed, 0⟩] }

/-- R103, R101: in phase 1 MERGE takes the two least entries `A` and `B` out of the queue, makes node `257 + NINT` over
them with the exact sum of their weights, and completes the tree when that node is the only entry left; it returns the
node's index. -/
def Obligations.MergeJoinsTwoLeastEntries : Prop :=
  ∀ s : State, s.Inv → s.err = 0 → s.ph = .merging →
    ∃ (t : State) (a b : Nat), exec .merge s = .next t ∧ a ≠ b ∧
      (s.nodeAt a).inq = true ∧ (s.nodeAt b).inq = true ∧ s.goesBefore a b ∧
      (∀ c, (s.nodeAt c).inq = true → c ≠ a → c ≠ b → s.goesBefore b c) ∧
      (t.nodeAt (257 + s.nint.toNat)).nv = true ∧ (t.nodeAt (257 + s.nint.toNat)).inq = true ∧
      (t.nodeAt (257 + s.nint.toNat)).sym = 257 ∧
      (t.nodeAt (257 + s.nint.toNat)).w.toNat = (s.nodeAt a).w.toNat + (s.nodeAt b).w.toNat ∧
      (t.nodeAt (257 + s.nint.toNat)).zero.toNat = a ∧ (t.nodeAt (257 + s.nint.toNat)).one.toNat = b ∧
      t.nodeAt a = { s.nodeAt a with inq := false } ∧ t.nodeAt b = { s.nodeAt b with inq := false } ∧
      (∀ k, k ≠ a → k ≠ b → k ≠ 257 + s.nint.toNat → t.nodeAt k = s.nodeAt k) ∧
      t.nint.toNat = s.nint.toNat + 1 ∧ t.qn.toNat + 1 = s.qn.toNat ∧
      t = { s with
        nodes := t.nodes, nint := t.nint, qn := t.qn
        root := if s.qn = 2 then BitVec.ofNat 10 (257 + s.nint.toNat) else s.root
        cur := if s.qn = 2 then BitVec.ofNat 10 (257 + s.nint.toNat) else s.cur
        dt := if s.qn = 2 then false else s.dt
        ph := if s.qn = 2 then .tree else s.ph
        rspOut := s.rspOut ++ [⟨.ok, BitVec.ofNat 64 (257 + s.nint.toNat)⟩] }

/-- R104: BUILD completes from phase 0 with an end-of-stream entry and from phase 1: afterwards `PH = 2`, `QN = 1`, the
root is queued, `CUR = ROOT`, `DT = 1` exactly for the single leaf 256; it returns `ROOT` and changes no count, no code, no
port. -/
def Obligations.BuildCompletesTree : Prop :=
  ∀ s : State, s.Inv → s.err = 0 → ((s.ph = .table ∧ s.freqAt 256 ≠ 0) ∨ s.ph = .merging) →
    ∃ t, exec .build s = .next t ∧ t.Inv ∧ t.ph = .tree ∧ t.qn = 1 ∧ (t.nodeAt t.root.toNat).inq = true ∧
      t.cur = t.root ∧ (t.dt = true ↔ t.root = 256) ∧ t.nint.toNat + 1 = s.numEntries ∧
      t = { s with
        nodes := t.nodes, nint := t.nint, qn := 1, root := t.root, cur := t.root, dt := t.dt, ph := .tree
        rspOut := s.rspOut ++ [⟨.ok, t.root.setWidth 64⟩] }

/-- R104: BUILD from phase 0 is equal in effect to QLOAD followed by `QN - 1` MERGE commands, and from phase 1 to the
remaining `QN - 1` MERGE commands; only the responses differ. Commands are run one after another as log entry 15 says. -/
def Obligations.BuildEqualsQloadAndMerges : Prop :=
  ∀ s : State, s.Inv → s.err = 0 →
    (s.ph = .table → s.freqAt 256 ≠ 0 →
      ∃ t u, runCommands [.build] s = .next t ∧
        runCommands (.qload :: List.replicate (s.numEntries - 1) .merge) s = .next u ∧
        { u with rspOut := t.rspOut } = t) ∧
    (s.ph = .merging →
      ∃ t u, runCommands [.build] s = .next t ∧
        runCommands (List.replicate (s.qn.toNat - 1) .merge) s = .next u ∧ { u with rspOut := t.rspOut } = t)

/-- R105: RDN returns the selected field of a node and 0 for an empty slot, in any phase, faulted or not. -/
def Obligations.RdnReadsNode : Prop :=
  ∀ (s : State) (i : Index), i.toNat ≤ 512 →
    let x := s.nodeAt i.toNat
    let answers := fun (sel : Sel) (d : BitVec 64) =>
      exec (.rdn i sel) s = .next { s with rspOut := s.rspOut ++ [⟨.ok, d⟩] }
    (x.nv = false → answers 0 0 ∧ answers 1 0 ∧ answers 2 0) ∧
    (x.nv = true →
      (∃ d, answers 0 d ∧ d.getLsbD 11 = x.inq ∧ d.getLsbD 10 = true ∧
        d.getLsbD 9 = decide (x.zero = 0x3FF ∧ x.one = 0x3FF) ∧ d.extractLsb' 0 9 = x.sym ∧ d.extractLsb' 12 52 = 0) ∧
      answers 1 (x.w.setWidth 64) ∧
      (∃ d, answers 2 d ∧ d.extractLsb' 0 10 = x.zero ∧ d.extractLsb' 10 10 = x.one ∧ d.extractLsb' 20 44 = 0))

/-- R106: the tree is a function of the table: two states of phase 0 with equal counts, whatever else they hold, build
trees that hold the same nodes slot for slot, with the same root. -/
def Obligations.TreeIsFunctionOfTable : Prop :=
  ∀ s s' : State, s.Inv → s'.Inv → s.err = 0 → s'.err = 0 → s.ph = .table → s'.ph = .table → s.freqAt 256 ≠ 0 →
    (∀ i, i ≤ 256 → s.freqAt i = s'.freqAt i) →
    ∃ t t', exec .build s = .next t ∧ exec .build s' = .next t' ∧
      (∀ i, (t.nodeAt i).nv = (t'.nodeAt i).nv ∧ ((t.nodeAt i).nv = true → t.nodeAt i = t'.nodeAt i)) ∧
      t.root = t'.root ∧ t.cur = t'.cur ∧ t.dt = t'.dt ∧ t.qn = t'.qn ∧ t.nint = t'.nint

/-- R40: in a complete tree the root is the one queue entry, every valid node is reachable from it and nothing else is, the
reachable leaves are exactly the table's symbols, and the root weighs what all counts sum to. -/
def Obligations.CompleteTreeHoldsTable : Prop :=
  ∀ s : State, s.Inv → s.hasTree →
    s.qn = 1 ∧ (∀ i, (s.nodeAt i).inq = true ↔ i = s.root.toNat) ∧ s.root ≠ 0x3FF ∧
    (∀ i, (s.nodeAt i).nv = true ↔ s.reachableFromRoot i) ∧
    (∀ i, (s.reachableFromRoot i ∧ (s.nodeAt i).isLeaf = true) ↔ (i ≤ 256 ∧ s.freqAt i ≠ 0)) ∧
    (s.nodeAt s.root.toNat).w.toNat = s.totalCount

/-! ## The code table -/

/-- R120, R121: DERIVE gives every symbol of the table the code that is its path from the root, with `CLEN` its length and
the bits above it 0, and every other symbol none; it returns the number of codes. -/
def Obligations.DeriveRecordsPaths : Prop :=
  ∀ s : State, s.Inv → s.err = 0 → s.ph = .tree →
    ∃ t, exec .derive s = .next t ∧
      (∀ k, k ≤ 256 → s.freqAt k ≠ 0 →
        (t.codeAt k).cv = true ∧ (t.codeAt k).clen.toNat ≤ 256 ∧
        s.follow s.root.toNat (t.codeAt k).bits = some k ∧
        ∀ j, (t.codeAt k).clen.toNat ≤ j → (t.codeAt k).cbits.getLsbD j = false) ∧
      (∀ k, k ≤ 256 → s.freqAt k = 0 → t.codeAt k = ⟨false, 0, 0⟩) ∧
      t = { s with
        codes := t.codes, ph := .coded, rspOut := s.rspOut ++ [⟨.ok, BitVec.ofNat 64 s.numEntries⟩] }

/-- R42, R122: in phase 3 a symbol has a code exactly when the table has it, its bits lead from the root to its leaf, and
no code is a prefix of another; before phase 3 no symbol has a code. -/
def Obligations.CodesArePrefixFree : Prop :=
  ∀ s : State, s.Inv →
    (s.ph = .coded → (∀ k, k ≤ 256 → ((s.codeAt k).cv = true ↔ s.freqAt k ≠ 0)) ∧
      (∀ k, k ≤ 256 → s.freqAt k ≠ 0 → (s.codeAt k).bits.length = (s.codeAt k).clen.toNat ∧
        (∀ j, j < (s.codeAt k).bits.length → (s.codeAt k).bits[j]? = some ((s.codeAt k).cbits.getLsbD j)) ∧
        s.follow s.root.toNat (s.codeAt k).bits = some k) ∧
      ∀ j k, j ≠ k → (s.codeAt j).cv = true → (s.codeAt k).cv = true →
        ¬ (s.codeAt j).bits <+: (s.codeAt k).bits) ∧
    (s.ph ≠ .coded → ∀ k, (s.codeAt k).cv = false)

/-- R123: RDC returns 32 code bits for `sel` 0 to 7, the length with bit 9 set for `sel` 8, and 0 for a symbol without a
code, in any phase, faulted or not. -/
def Obligations.RdcReadsCode : Prop :=
  ∀ (s : State) (sym : Index) (sel : Sel), sym.toNat ≤ 256 → sel.toNat ≤ 8 →
    ∃ d : BitVec 64, exec (.rdc sym sel) s = .next { s with rspOut := s.rspOut ++ [⟨.ok, d⟩] } ∧
      ((s.codeAt sym.toNat).cv = false → d = 0) ∧
      ((s.codeAt sym.toNat).cv = true → sel.toNat ≤ 7 →
        (∀ j, j < 32 → d.getLsbD j = (s.codeAt sym.toNat).cbits.getLsbD (32 * sel.toNat + j)) ∧
        d.extractLsb' 32 32 = 0) ∧
      ((s.codeAt sym.toNat).cv = true → sel = 8 →
        d.extractLsb' 0 9 = (s.codeAt sym.toNat).clen ∧ d.getLsbD 9 = true ∧ d.extractLsb' 10 54 = 0)

/-! ## The encoder -/

/-- R131: ENC of a byte with a code appends the code's `CLEN` bits, the choice at the root first, and returns their number;
nothing else changes. In a state of the invariant it writes at least one bit. -/
def Obligations.EncWritesCode : Prop :=
  ∀ (s : State) (b : Index), s.err = 0 → s.ph = .coded → b.toNat ≤ 255 → (s.codeAt b.toNat).cv = true →
    (s.codeAt b.toNat).clen.toNat ≤ 256 →
    ∃ bits, exec (.enc b) s = .next { s with
        bitOut := s.bitOut ++ bits, rspOut := s.rspOut ++ [⟨.ok, (s.codeAt b.toNat).clen.setWidth 64⟩] } ∧
      bits.length = (s.codeAt b.toNat).clen.toNat ∧
      (∀ i, i < bits.length → bits[i]? = some ((s.codeAt b.toNat).cbits.getLsbD i)) ∧
      (s.Inv → bits ≠ [])

/-- R131: ENC of a byte without a code raises `E_NOCODE` and writes no bit. -/
def Obligations.EncWithoutCodeFaults : Prop :=
  ∀ (s : State) (b : Index), s.err = 0 → s.ph = .coded → b.toNat ≤ 255 → (s.codeAt b.toNat).cv = false →
    exec (.enc b) s = .next { s with
      err := 3, ecmd := encode (.enc b), rspOut := s.rspOut ++ [⟨.fault .noCode, 0⟩] }

/-- R132: in phase 3 EEOS always completes: the end-of-stream symbol has a code, whose bits it appends, the choice at the
root first; in the single-leaf tree there are none. -/
def Obligations.EeosWritesEndOfStreamCode : Prop :=
  ∀ s : State, s.Inv → s.err = 0 → s.ph = .coded →
    (s.codeAt 256).cv = true ∧
    ∃ bits, exec .eeos s = .next { s with
        bitOut := s.bitOut ++ bits, rspOut := s.rspOut ++ [⟨.ok, (s.codeAt 256).clen.setWidth 64⟩] } ∧
      bits.length = (s.codeAt 256).clen.toNat ∧
      (∀ i, i < bits.length → bits[i]? = some ((s.codeAt 256).cbits.getLsbD i)) ∧
      (s.root = 256 ↔ bits = [])

/-! ## The decoder -/

/-- R141: with `DT = 0` and a bit on the port, DSTEP reads it and follows the link: an internal node becomes the position,
the end-of-stream leaf ends the decoding, a byte's leaf is written out and the walk returns to the root. -/
def Obligations.DstepWalksOneLink : Prop :=
  ∀ (s : State) (b : Bool) (rest : List Bool), s.Inv → s.err = 0 → s.hasTree → s.dt = false → s.bitIn = b :: rest →
    let n := if b then (s.nodeAt s.cur.toNat).one else (s.nodeAt s.cur.toNat).zero
    (257 ≤ n.toNat → exec .dstep s = .next { s with
      bitIn := rest, cur := n, rspOut := s.rspOut ++ [⟨.ok, 0x000⟩] }) ∧
    (n = 256 → exec .dstep s = .next { s with
      bitIn := rest, cur := 256, dt := true, rspOut := s.rspOut ++ [⟨.ok, 0x200⟩] }) ∧
    (n.toNat ≤ 255 → exec .dstep s = .next { s with
      bitIn := rest, cur := s.root, byteOut := s.byteOut ++ [n.setWidth 8]
      rspOut := s.rspOut ++ [⟨.ok, 0x100 + n.setWidth 64⟩] })

/-- R141, R142: in the terminal state DSTEP and DECODE read no bit and change nothing; with `DT = 0` and no bit on the port
both raise `E_TRUNC`. -/
def Obligations.DecoderAtItsEnds : Prop :=
  ∀ s : State, s.err = 0 → s.hasTree →
    (s.dt = true → exec .dstep s = .next { s with rspOut := s.rspOut ++ [⟨.ok, 0x200⟩] } ∧
      exec .decode s = .next { s with rspOut := s.rspOut ++ [⟨.ok, 0⟩] }) ∧
    (s.dt = false → s.bitIn = [] →
      exec .dstep s = .next { s with
        err := 2, ecmd := encode .dstep, rspOut := s.rspOut ++ [⟨.fault .trunc, 0⟩] } ∧
      exec .decode s = .next { s with
        err := 2, ecmd := encode .decode, rspOut := s.rspOut ++ [⟨.fault .trunc, 0⟩] })

/-- R142: DECODE always completes: it removes bits from the front of `BITIN` and appends bytes; it ends in the terminal
state and returns the number of bytes it wrote, or with `BITIN` empty and `E_TRUNC`, keeping the steps done. -/
def Obligations.DecodeCompletes : Prop :=
  ∀ s : State, s.Inv → s.err = 0 → s.hasTree →
    ∃ (t : State) (bytes : List Byte) (used : List Bool), exec .decode s = .next t ∧ s.bitIn = used ++ t.bitIn ∧
      bytes.length ≤ used.length ∧
      ((t = { s with
          bitIn := t.bitIn, byteOut := s.byteOut ++ bytes, cur := 256, dt := true
          rspOut := s.rspOut ++ [⟨.ok, BitVec.ofNat 64 bytes.length⟩] }) ∨
       (t = { s with
          bitIn := [], byteOut := s.byteOut ++ bytes, cur := t.cur, err := 2, ecmd := encode .decode
          rspOut := s.rspOut ++ [⟨.fault .trunc, 0⟩] } ∧ s.dt = false))

/-- R142: DECODE is equal in effect to issuing DSTEP until one returns `kind = 2` or faults; the responses differ, and
after a fault `ECMD` names the other command. Commands are run one after another as log entry 15 says. -/
def Obligations.DecodeEqualsRepeatedDstep : Prop :=
  ∀ s : State, s.Inv → s.err = 0 → s.hasTree →
    ∃ (t u : State) (steps : List Response) (last : Response), runCommands [.decode] s = .next t ∧
      runCommands (List.replicate (steps.length + 1) .dstep) s = .next u ∧
      u.rspOut = s.rspOut ++ steps ++ [last] ∧
      (∀ r ∈ steps, r.code = .ok ∧ r.data ≠ 0x200) ∧
      (last = ⟨.ok, 0x200⟩ ∧
          t = { u with
            rspOut := s.rspOut ++ [⟨.ok, BitVec.ofNat 64 (steps.countP (fun r => r.data.getLsbD 8))⟩] } ∨
       last = ⟨.fault .trunc, 0⟩ ∧
          t = { u with ecmd := encode .decode, rspOut := s.rspOut ++ [⟨.fault .trunc, 0⟩] })

/-- R143: take the encoded stream of a byte sequence under the code table of one state, and a decoder with the same tree
at its root (or in the terminal state, for the single-leaf tree). It writes exactly that sequence, reads no further bit and
ends in the terminal state. -/
def Obligations.DecodingUndoesEncoding : Prop :=
  ∀ (c s : State) (input : List Byte) (rest : List Bool), c.Inv → c.ph = .coded →
    (∀ b ∈ input, c.freqAt b.toNat ≠ 0) → s.Inv → s.err = 0 → s.hasTree → s.cur = s.root → s.root = c.root →
    (∀ i, s.nodeAt i = c.nodeAt i) → s.bitIn = c.codeStream input ++ rest →
    exec .decode s = .next { s with
      bitIn := rest, byteOut := s.byteOut ++ input, cur := 256, dt := true
      rspOut := s.rspOut ++ [⟨.ok, BitVec.ofNat 64 input.length⟩] }

/-! ## Which command writes what -/

/-- R21, R27, R50: the tables and the working registers are written only by the commands the spec names for them, whatever
the state. -/
def Obligations.OnlyNamedCommandsWrite : Prop :=
  ∀ (i : Instr) (s t : State), exec i s = .next t →
    (i.op ∉ [0x10, 0x11, 0x12, 0x01] → t.freq = s.freq) ∧
    (i.op ∉ [0x20, 0x21, 0x22, 0x01] → t.nodes = s.nodes ∧ t.root = s.root ∧ t.qn = s.qn ∧ t.nint = s.nint) ∧
    (i.op ∉ [0x20, 0x21, 0x22, 0x50, 0x51, 0x01] → t.cur = s.cur ∧ t.dt = s.dt) ∧
    (i.op ∉ [0x30, 0x01] → t.codes = s.codes) ∧
    (i.op ∉ [0x20, 0x21, 0x22, 0x30, 0x01] → t.ph = s.ph)

/-- R29, R57: from the moment `PH` leaves 0 until the next reset the frequency table does not change. -/
def Obligations.TableIsReadOnlyAfterPhaseZero : Prop :=
  ∀ s t : State, s.ph ≠ .table → step s = .next t → t.ph ≠ .table → t.freq = s.freq

/-- R23: `PH` has the four values, is 0 after reset, moves only forward, by the commands named, and back to 0 by RESET or a
hardware reset. -/
def Obligations.PhaseOnlyMovesForward : Prop :=
  State.reset.ph.bits = 0 ∧ Phase.merging.bits = 1 ∧ Phase.tree.bits = 2 ∧ Phase.coded.bits = 3 ∧
  (∀ (i : Instr) (s t : State), exec i s = .next t → t.ph ≠ s.ph →
    (i = .reset ∧ t.ph = .table) ∨
    (i = .qload ∧ s.ph = .table ∧ ((t.ph = .merging ∧ s.numEntries ≠ 1) ∨ (t.ph = .tree ∧ s.numEntries = 1))) ∨
    (i = .merge ∧ s.ph = .merging ∧ t.ph = .tree) ∨
    (i = .build ∧ (s.ph = .table ∨ s.ph = .merging) ∧ t.ph = .tree) ∨
    (i = .derive ∧ s.ph = .tree ∧ t.ph = .coded)) ∧
  ∀ s t : State, step s = .next t → t.ph ≠ s.ph →
    (∃ w rest i, s.hostIn = .command w :: rest ∧ decode w = .ok i) ∨
    (∃ rest, s.hostIn = .hardwareReset :: rest ∧ t.ph = .table)

/-- R33, R34: the bit and byte histories start empty and only grow, whatever the step; only ENC and EEOS add bits, only
DSTEP and DECODE bytes. No response is taken back either: the history of responses is the model's own (log entry 3). -/
def Obligations.OutputsAreAppendOnly : Prop :=
  State.reset.bitOut = [] ∧ State.reset.byteOut = [] ∧
  ∀ s t : State, step s = .next t → ∃ bits bytes, t.bitOut = s.bitOut ++ bits ∧ t.byteOut = s.byteOut ++ bytes ∧
    s.rspOut <+: t.rspOut ∧ (¬ s.presents [0x40, 0x41] → bits = []) ∧ (¬ s.presents [0x50, 0x51] → bytes = [])

/-- R35: HFE takes bits from the front of `BITIN` only, by DSTEP at most one and by DECODE, at least one for each byte
written; every other command and a hardware reset leave it. -/
def Obligations.BitsAreReadFromTheFront : Prop :=
  (∀ (i : Instr) (s t : State), exec i s = .next t →
    ∃ used, s.bitIn = used ++ t.bitIn ∧ t.byteOut.length ≤ s.byteOut.length + used.length ∧
      (i = .dstep → used.length ≤ 1) ∧ (i ≠ .dstep → i ≠ .decode → used = [])) ∧
  ∀ (s t : State) (rest : List HostEvent), s.hostIn = .hardwareReset :: rest → step s = .next t → t.bitIn = s.bitIn

/-! ## The invariant -/

/-- The reset state meets the invariant (R24, R36 to R42). -/
def Obligations.InvariantAtReset : Prop := State.reset.Inv

/-- R36 to R39 and what R40 to R42 rest on: every step from a state that meets the invariant answers one that meets it. -/
def Obligations.StepKeepsInvariant : Prop :=
  ∀ s t : State, s.Inv → step s = .next t → t.Inv

/-- R201, R103, R121: every command completes: no step from a state that meets the invariant stops. -/
def Obligations.StepAlwaysCompletes : Prop :=
  ∀ s : State, s.Inv → ∃ t, step s = .next t

/-- Every step keeps the three tables in canonical form, whatever else the state holds (the model's own representation,
log entry 1). -/
def Obligations.StepKeepsTablesCanonical : Prop :=
  ∀ s t : State, s.tablesWf = true → step s = .next t → t.tablesWf = true

/-! ## The two pipelines -/

/-- R153: from any state, for any input in which no byte occurs 2^32 or more times, the compress sequence runs without a
fault, appends the encoded stream of the input, and its RDF responses are the counts of the input. Commands are run one after
another as log entry 15 says. -/
def Obligations.CompressNeverFaults : Prop :=
  ∀ (input : List Byte) (s : State), (∀ b, input.count b < 2 ^ 32) →
    ∃ t rsp, runCommands (compressCommands input) s = .next t ∧ t.Inv ∧ t.err = 0 ∧ t.ph = .coded ∧
      t.rspOut = s.rspOut ++ rsp ∧ rsp.length = (compressCommands input).length ∧ (∀ r ∈ rsp, r.code = .ok) ∧
      t.bitOut = s.bitOut ++ t.codeStream input ∧
      (∀ b : Byte, (t.freqAt b.toNat).toNat = input.count b) ∧ t.freqAt 256 = 1 ∧
      (rsp.drop (input.length + 4)).take 257 = (List.range 257).map (fun i => ⟨.ok, (t.freqAt i).setWidth 64⟩)

/-- R155: what one machine compresses, any machine decompresses: loading the entries the RDF commands read, in any order,
and decoding the bits the compress sequence wrote, whatever follows them, gives back exactly the input and no fault; for the
empty input no bit is written and DECODE returns 0. Commands are run one after another as log entry 15 says. -/
def Obligations.DecompressUndoesCompress : Prop :=
  ∀ (input : List Byte) (s u : State) (entries : List (Index × Count)) (rest : List Bool),
    (∀ b, input.count b < 2 ^ 32) →
    ∃ t rsp bits, runCommands (compressCommands input) s = .next t ∧ t.rspOut = s.rspOut ++ rsp ∧
      t.bitOut = s.bitOut ++ bits ∧ (input = [] → bits = []) ∧
      (entries.Perm (persistedEntries ((rsp.drop (input.length + 4)).take 257)) → u.bitIn = bits ++ rest →
        ∃ v rsp', runCommands (decompressCommands entries) u = .next v ∧ v.byteOut = u.byteOut ++ input ∧
          v.bitIn = rest ∧ v.err = 0 ∧ v.rspOut = u.rspOut ++ rsp' ∧ (∀ r ∈ rsp', r.code = .ok) ∧
          rsp'.getLast? = some ⟨.ok, BitVec.ofNat 64 input.length⟩)
end

