-- ==== Sys2Proof/Laws/Table.lean ====
section
/-!
SUPPORT. The laws of the tables: a read after a write, the canonical form kept by every write, and equality of canonical
tables that read the same.
-/

namespace Sys2Proof.Machine

section Generic

variable {β : Type}

theorem tableGet_insert_self (d : β) (i : Nat) (v : β) (t : Table β) :
    tableGet d (tableInsert i v t) i = v := by
  induction t with
  | nil => simp [tableInsert, tableGet]
  | cons e rest ih =>
    obtain ⟨j, u⟩ := e
    unfold tableInsert
    split
    · simp [tableGet]
    · split
      · simp [tableGet]
      · next h => simp [tableGet, h, ih]

theorem tableGet_insert_other (d : β) {i k : Nat} (v : β) (t : Table β) (h : k ≠ i) :
    tableGet d (tableInsert i v t) k = tableGet d t k := by
  induction t with
  | nil => simp [tableInsert, tableGet, h]
  | cons e rest ih =>
    obtain ⟨j, u⟩ := e
    unfold tableInsert
    split
    · simp [tableGet, h]
    · split
      · next h' => subst h'; simp [tableGet, h]
      · simp [tableGet, ih]

theorem tableGet_filter_self (d : β) (i : Nat) (t : Table β) :
    tableGet d (t.filter (fun e => e.1 != i)) i = d := by
  induction t with
  | nil => rfl
  | cons e rest ih =>
    obtain ⟨j, u⟩ := e
    by_cases h : j = i
    · simpa [List.filter_cons, h] using ih
    · have h' : i ≠ j := fun hh => h hh.symm
      simpa [List.filter_cons, h, tableGet, h'] using ih

theorem tableGet_filter_other (d : β) {i k : Nat} (t : Table β) (h : k ≠ i) :
    tableGet d (t.filter (fun e => e.1 != i)) k = tableGet d t k := by
  induction t with
  | nil => rfl
  | cons e rest ih =>
    obtain ⟨j, u⟩ := e
    by_cases hj : j = i
    · subst hj; simpa [List.filter_cons, tableGet, h] using ih
    · simp only [ne_eq, bne_iff_ne, hj, not_false_eq_true, List.filter_cons_of_pos, tableGet]
      split
      · rfl
      · exact ih

theorem tableGet_of_lt (d : β) (t : Table β) (i : Nat) (h : ∀ x ∈ t, i < x.1) : tableGet d t i = d := by
  induction t with
  | nil => rfl
  | cons e rest ih =>
    obtain ⟨j, u⟩ := e
    have hj : i < j := h (j, u) List.mem_cons_self
    have hne : i ≠ j := by omega
    simp only [tableGet, hne, if_false]
    exact ih fun x hx => h x (List.mem_cons_of_mem _ hx)

variable [DecidableEq β]

/-- A read after a write to the same index gives the value written. -/
@[simp] theorem tableGet_set_self (d : β) (t : Table β) (i : Nat) (v : β) :
    tableGet d (tableSet d t i v) i = v := by
  unfold tableSet
  split
  · next h => rw [h, tableGet_filter_self]
  · exact tableGet_insert_self d i v t

/-- A write leaves every other index alone. -/
theorem tableGet_set_other (d : β) (t : Table β) {i k : Nat} (v : β) (h : k ≠ i) :
    tableGet d (tableSet d t i v) k = tableGet d t k := by
  unfold tableSet
  split
  · exact tableGet_filter_other d t h
  · exact tableGet_insert_other d v t h

theorem tableGet_set (d : β) (t : Table β) (i k : Nat) (v : β) :
    tableGet d (tableSet d t i v) k = if k = i then v else tableGet d t k := by
  split
  · next h => subst h; simp
  · next h => exact tableGet_set_other d t v h

theorem tableWf_cons (d : β) (n : Nat) (e : Nat × β) (rest : Table β) :
    tableWf d n (e :: rest) = true ↔
      e.2 ≠ d ∧ e.1 < n ∧ (∀ x ∈ rest, e.1 < x.1) ∧ tableWf d n rest = true := by
  obtain ⟨j, v⟩ := e
  simp [tableWf, and_assoc]

theorem tableWf_filter (d : β) (n : Nat) (p : Nat × β → Bool) (t : Table β)
    (h : tableWf d n t = true) : tableWf d n (t.filter p) = true := by
  induction t with
  | nil => exact h
  | cons e rest ih =>
    rw [tableWf_cons] at h
    obtain ⟨h1, h2, h3, h4⟩ := h
    by_cases hp : p e = true
    · rw [List.filter_cons_of_pos hp, tableWf_cons]
      exact ⟨h1, h2, fun x hx => h3 x (List.mem_of_mem_filter hx), ih h4⟩
    · rw [List.filter_cons_of_neg hp]
      exact ih h4

theorem mem_tableInsert {i : Nat} {v : β} {t : Table β} {x : Nat × β} (h : x ∈ tableInsert i v t) :
    x = (i, v) ∨ x ∈ t := by
  induction t with
  | nil => simpa [tableInsert] using h
  | cons e rest ih =>
    obtain ⟨j, u⟩ := e
    unfold tableInsert at h
    split at h
    · simpa using h
    · split at h
      · simp only [List.mem_cons] at h ⊢
        tauto
      · simp only [List.mem_cons] at h ⊢
        rcases h with h | h
        · exact Or.inr (Or.inl h)
        · exact (ih h).imp_right Or.inr

theorem tableWf_insert (d : β) (n : Nat) {i : Nat} {v : β} {t : Table β} (hi : i < n) (hv : v ≠ d)
    (h : tableWf d n t = true) : tableWf d n (tableInsert i v t) = true := by
  induction t with
  | nil => simp [tableInsert, tableWf, hi, hv]
  | cons e rest ih =>
    obtain ⟨j, u⟩ := e
    have h0 := h
    rw [tableWf_cons] at h
    obtain ⟨h1, h2, h3, h4⟩ := h
    unfold tableInsert
    split
    · next hij =>
      rw [tableWf_cons]
      refine ⟨hv, hi, ?_, h0⟩
      intro x hx
      rcases List.mem_cons.1 hx with rfl | hx
      · exact hij
      · exact lt_trans hij (h3 x hx)
    · split
      · next hij =>
        rw [tableWf_cons]
        exact ⟨hv, hi, fun x hx => by have := h3 x hx; simp only at this ⊢; omega, h4⟩
      · next h5 h6 =>
        rw [tableWf_cons]
        refine ⟨h1, h2, ?_, ih h4⟩
        intro x hx
        rcases mem_tableInsert hx with rfl | hx
        · simp only; omega
        · exact h3 x hx

/-- Every write keeps the canonical form. -/
theorem tableWf_set (d : β) (n : Nat) (t : Table β) {i : Nat} (v : β) (hi : i < n)
    (h : tableWf d n t = true) : tableWf d n (tableSet d t i v) = true := by
  unfold tableSet
  split
  · exact tableWf_filter d n _ t h
  · next hv => exact tableWf_insert d n hi hv h

/-- An index outside the space reads as the reset value. -/
theorem tableGet_of_wf (d : β) (n : Nat) (t : Table β) (i : Nat) (h : tableWf d n t = true) (hi : n ≤ i) :
    tableGet d t i = d := by
  induction t with
  | nil => rfl
  | cons e rest ih =>
    obtain ⟨j, u⟩ := e
    rw [tableWf_cons] at h
    obtain ⟨_, h2, _, h4⟩ := h
    have hne : i ≠ j := by simp only at h2; omega
    simp only [tableGet, hne, if_false]
    exact ih h4

/-- Two canonical tables that read the same at every index are equal. -/
theorem tableWf_ext (d : β) (n : Nat) (t u : Table β) (ht : tableWf d n t = true) (hu : tableWf d n u = true)
    (h : ∀ i, tableGet d t i = tableGet d u i) : t = u := by
  induction t generalizing u with
  | nil =>
    cases u with
    | nil => rfl
    | cons e rest =>
      obtain ⟨j, v⟩ := e
      rw [tableWf_cons] at hu
      have := h j
      simp only [tableGet, if_true] at this
      exact absurd this.symm hu.1
  | cons e rest ih =>
    obtain ⟨j, v⟩ := e
    rw [tableWf_cons] at ht
    obtain ⟨ht1, ht2, ht3, ht4⟩ := ht
    cases u with
    | nil =>
      have := h j
      simp only [tableGet, if_true] at this
      exact absurd this ht1
    | cons e' rest' =>
      obtain ⟨k, w⟩ := e'
      rw [tableWf_cons] at hu
      obtain ⟨hu1, hu2, hu3, hu4⟩ := hu
      simp only at ht1 ht2 ht3 hu1 hu2 hu3
      have hjk : j = k := by
        by_contra hne
        rcases Nat.lt_or_gt_of_ne hne with hlt | hgt
        · have h1 := h j
          have h2 : tableGet d ((k, w) :: rest') j = d :=
            tableGet_of_lt d _ j (by
              intro x hx
              rcases List.mem_cons.1 hx with rfl | hx
              · exact hlt
              · exact lt_trans hlt (hu3 x hx))
          rw [h2] at h1
          simp only [tableGet, if_true] at h1
          exact ht1 h1
        · have h1 := h k
          have h2 : tableGet d ((j, v) :: rest) k = d :=
            tableGet_of_lt d _ k (by
              intro x hx
              rcases List.mem_cons.1 hx with rfl | hx
              · exact hgt
              · exact lt_trans hgt (ht3 x hx))
          rw [h2] at h1
          simp only [tableGet, if_true] at h1
          exact hu1 h1.symm
      subst hjk
      have hvw : v = w := by simpa [tableGet] using h j
      subst hvw
      congr 1
      refine ih rest' ht4 hu4 fun i => ?_
      by_cases hij : i = j
      · subst hij
        rw [tableGet_of_lt d rest i ht3, tableGet_of_lt d rest' i hu3]
      · have := h i
        simpa [tableGet, hij] using this

end Generic

/-! ## The three spaces -/

@[simp] theorem freqAt_setFreq_self (s : State) (i : Nat) (n : Count) : (s.setFreq i n).freqAt i = n := by
  simp [State.setFreq, State.freqAt]

theorem freqAt_setFreq (s : State) (i k : Nat) (n : Count) :
    (s.setFreq i n).freqAt k = if k = i then n else s.freqAt k := by
  simp [State.setFreq, State.freqAt, tableGet_set]

@[simp] theorem nodeAt_setNode_self (s : State) (i : Nat) (x : Slot) : (s.setNode i x).nodeAt i = x := by
  simp only [State.setNode, State.nodeAt, tableGet_set_self]

theorem nodeAt_setNode (s : State) (i k : Nat) (x : Slot) :
    (s.setNode i x).nodeAt k = if k = i then x else s.nodeAt k := by
  simp only [State.setNode, State.nodeAt, tableGet_set]

@[simp] theorem nodeAt_setFreq (s : State) (i k : Nat) (n : Count) : (s.setFreq i n).nodeAt k = s.nodeAt k := rfl
@[simp] theorem codeAt_setFreq (s : State) (i k : Nat) (n : Count) : (s.setFreq i n).codeAt k = s.codeAt k := rfl
@[simp] theorem freqAt_setNode (s : State) (i k : Nat) (x : Slot) : (s.setNode i x).freqAt k = s.freqAt k := rfl
@[simp] theorem codeAt_setNode (s : State) (i k : Nat) (x : Slot) : (s.setNode i x).codeAt k = s.codeAt k := rfl

theorem tablesWf_iff (s : State) : s.tablesWf = true ↔
    tableWf 0 257 s.freq = true ∧ tableWf Slot.empty 513 s.nodes = true ∧
      tableWf CodeEntry.empty 257 s.codes = true := by
  simp [State.tablesWf, and_assoc]

theorem tablesWf_setFreq {s : State} {i : Nat} (n : Count) (hi : i < 257) (h : s.tablesWf = true) :
    (s.setFreq i n).tablesWf = true := by
  rw [tablesWf_iff] at h ⊢
  exact ⟨tableWf_set 0 257 s.freq n hi h.1, h.2.1, h.2.2⟩

theorem tablesWf_setNode {s : State} {i : Nat} (x : Slot) (hi : i < 513) (h : s.tablesWf = true) :
    (s.setNode i x).tablesWf = true := by
  rw [tablesWf_iff] at h ⊢
  exact ⟨h.1, tableWf_set Slot.empty 513 s.nodes x hi h.2.1, h.2.2⟩

theorem nodeAt_of_ge {s : State} (h : s.tablesWf = true) {i : Nat} (hi : 513 ≤ i) : s.nodeAt i = Slot.empty :=
  tableGet_of_wf _ 513 _ i ((tablesWf_iff s).1 h).2.1 hi

theorem freqAt_of_ge {s : State} (h : s.tablesWf = true) {i : Nat} (hi : 257 ≤ i) : s.freqAt i = 0 :=
  tableGet_of_wf _ 257 _ i ((tablesWf_iff s).1 h).1 hi

theorem codeAt_of_ge {s : State} (h : s.tablesWf = true) {i : Nat} (hi : 257 ≤ i) : s.codeAt i = CodeEntry.empty :=
  tableGet_of_wf _ 257 _ i ((tablesWf_iff s).1 h).2.2 hi

theorem lt_of_valid {s : State} (h : s.tablesWf = true) {i : Nat} (hi : (s.nodeAt i).nv = true) : i < 513 := by
  by_contra hge
  rw [nodeAt_of_ge h (by omega)] at hi
  simp at hi

end Sys2Proof.Machine
end

