-- ==== Sys2Proof/Laws/State.lean ====
section
/-!
SUPPORT. One lemma per field per update of the state, so that no later proof unfolds a record update, and what the
outcome `next` determines.
-/

namespace Sys2Proof.Machine

theorem next_inj {s t : State} : (Host.Outcome.next s : Result) = .next t ↔ s = t := by
  constructor
  · intro h; injection h
  · intro h; rw [h]

@[simp] theorem fault_ne_next (f : Fault) (t : State) : ¬ (Host.Outcome.fault f : Result) = .next t := by
  intro h; injection h

theorem answer_eq (s : State) (d : BitVec 64) : answer s d = .next (s.respond .ok d) := rfl

theorem nodeAt_congr {s t : State} (h : t.nodes = s.nodes) (i : Nat) : t.nodeAt i = s.nodeAt i := by
  unfold State.nodeAt; rw [h]

theorem freqAt_congr {s t : State} (h : t.freq = s.freq) (i : Nat) : t.freqAt i = s.freqAt i := by
  unfold State.freqAt; rw [h]

theorem codeAt_congr {s t : State} (h : t.codes = s.codes) (i : Nat) : t.codeAt i = s.codeAt i := by
  unfold State.codeAt; rw [h]

/-- Slot `i` of the arena exists and is slot `i`. -/
theorem node?_of_lt (s : State) {i : Nat} (h : i < 513) : s.node? i = some (s.nodeAt i) := by
  simp [State.node?, h]

theorem node?_of_ge (s : State) {i : Nat} (h : 513 ≤ i) : s.node? i = none := by
  simp [State.node?, Nat.not_lt.2 h]

/-! ## `respond` (R11) -/

@[simp] theorem ph_respond (s : State) (c : RspCode) (d : BitVec 64) : (s.respond c d).ph = s.ph := rfl
@[simp] theorem err_respond (s : State) (c : RspCode) (d : BitVec 64) : (s.respond c d).err = s.err := rfl
@[simp] theorem ecmd_respond (s : State) (c : RspCode) (d : BitVec 64) : (s.respond c d).ecmd = s.ecmd := rfl
@[simp] theorem root_respond (s : State) (c : RspCode) (d : BitVec 64) : (s.respond c d).root = s.root := rfl
@[simp] theorem cur_respond (s : State) (c : RspCode) (d : BitVec 64) : (s.respond c d).cur = s.cur := rfl
@[simp] theorem dt_respond (s : State) (c : RspCode) (d : BitVec 64) : (s.respond c d).dt = s.dt := rfl
@[simp] theorem qn_respond (s : State) (c : RspCode) (d : BitVec 64) : (s.respond c d).qn = s.qn := rfl
@[simp] theorem nint_respond (s : State) (c : RspCode) (d : BitVec 64) : (s.respond c d).nint = s.nint := rfl
@[simp] theorem freq_respond (s : State) (c : RspCode) (d : BitVec 64) : (s.respond c d).freq = s.freq := rfl
@[simp] theorem nodes_respond (s : State) (c : RspCode) (d : BitVec 64) : (s.respond c d).nodes = s.nodes := rfl
@[simp] theorem codes_respond (s : State) (c : RspCode) (d : BitVec 64) : (s.respond c d).codes = s.codes := rfl
@[simp] theorem bitOut_respond (s : State) (c : RspCode) (d : BitVec 64) : (s.respond c d).bitOut = s.bitOut := rfl
@[simp] theorem byteOut_respond (s : State) (c : RspCode) (d : BitVec 64) : (s.respond c d).byteOut = s.byteOut := rfl
@[simp] theorem bitIn_respond (s : State) (c : RspCode) (d : BitVec 64) : (s.respond c d).bitIn = s.bitIn := rfl
@[simp] theorem hostIn_respond (s : State) (c : RspCode) (d : BitVec 64) : (s.respond c d).hostIn = s.hostIn := rfl
@[simp] theorem rspOut_respond (s : State) (c : RspCode) (d : BitVec 64) : (s.respond c d).rspOut = s.rspOut ++ [⟨c, d⟩] := rfl

/-! ## `E_HALTED` (R171) -/

@[simp] theorem ph_halt (s : State) : (s.halt).ph = s.ph := rfl
@[simp] theorem err_halt (s : State) : (s.halt).err = s.err := rfl
@[simp] theorem ecmd_halt (s : State) : (s.halt).ecmd = s.ecmd := rfl
@[simp] theorem root_halt (s : State) : (s.halt).root = s.root := rfl
@[simp] theorem cur_halt (s : State) : (s.halt).cur = s.cur := rfl
@[simp] theorem dt_halt (s : State) : (s.halt).dt = s.dt := rfl
@[simp] theorem qn_halt (s : State) : (s.halt).qn = s.qn := rfl
@[simp] theorem nint_halt (s : State) : (s.halt).nint = s.nint := rfl
@[simp] theorem freq_halt (s : State) : (s.halt).freq = s.freq := rfl
@[simp] theorem nodes_halt (s : State) : (s.halt).nodes = s.nodes := rfl
@[simp] theorem codes_halt (s : State) : (s.halt).codes = s.codes := rfl
@[simp] theorem bitOut_halt (s : State) : (s.halt).bitOut = s.bitOut := rfl
@[simp] theorem byteOut_halt (s : State) : (s.halt).byteOut = s.byteOut := rfl
@[simp] theorem bitIn_halt (s : State) : (s.halt).bitIn = s.bitIn := rfl
@[simp] theorem hostIn_halt (s : State) : (s.halt).hostIn = s.hostIn := rfl
@[simp] theorem rspOut_halt (s : State) : (s.halt).rspOut = s.rspOut ++ [⟨.halted, 0⟩] := rfl

/-! ## `WriteBit` (R10) -/

@[simp] theorem ph_writeBits (s : State) (bs : List Bool) : (s.writeBits bs).ph = s.ph := rfl
@[simp] theorem err_writeBits (s : State) (bs : List Bool) : (s.writeBits bs).err = s.err := rfl
@[simp] theorem ecmd_writeBits (s : State) (bs : List Bool) : (s.writeBits bs).ecmd = s.ecmd := rfl
@[simp] theorem root_writeBits (s : State) (bs : List Bool) : (s.writeBits bs).root = s.root := rfl
@[simp] theorem cur_writeBits (s : State) (bs : List Bool) : (s.writeBits bs).cur = s.cur := rfl
@[simp] theorem dt_writeBits (s : State) (bs : List Bool) : (s.writeBits bs).dt = s.dt := rfl
@[simp] theorem qn_writeBits (s : State) (bs : List Bool) : (s.writeBits bs).qn = s.qn := rfl
@[simp] theorem nint_writeBits (s : State) (bs : List Bool) : (s.writeBits bs).nint = s.nint := rfl
@[simp] theorem freq_writeBits (s : State) (bs : List Bool) : (s.writeBits bs).freq = s.freq := rfl
@[simp] theorem nodes_writeBits (s : State) (bs : List Bool) : (s.writeBits bs).nodes = s.nodes := rfl
@[simp] theorem codes_writeBits (s : State) (bs : List Bool) : (s.writeBits bs).codes = s.codes := rfl
@[simp] theorem bitOut_writeBits (s : State) (bs : List Bool) : (s.writeBits bs).bitOut = s.bitOut ++ bs := rfl
@[simp] theorem byteOut_writeBits (s : State) (bs : List Bool) : (s.writeBits bs).byteOut = s.byteOut := rfl
@[simp] theorem bitIn_writeBits (s : State) (bs : List Bool) : (s.writeBits bs).bitIn = s.bitIn := rfl
@[simp] theorem hostIn_writeBits (s : State) (bs : List Bool) : (s.writeBits bs).hostIn = s.hostIn := rfl
@[simp] theorem rspOut_writeBits (s : State) (bs : List Bool) : (s.writeBits bs).rspOut = s.rspOut := rfl

/-! ## `WriteByte` (R10) -/

@[simp] theorem ph_writeByte (s : State) (v : Byte) : (s.writeByte v).ph = s.ph := rfl
@[simp] theorem err_writeByte (s : State) (v : Byte) : (s.writeByte v).err = s.err := rfl
@[simp] theorem ecmd_writeByte (s : State) (v : Byte) : (s.writeByte v).ecmd = s.ecmd := rfl
@[simp] theorem root_writeByte (s : State) (v : Byte) : (s.writeByte v).root = s.root := rfl
@[simp] theorem cur_writeByte (s : State) (v : Byte) : (s.writeByte v).cur = s.cur := rfl
@[simp] theorem dt_writeByte (s : State) (v : Byte) : (s.writeByte v).dt = s.dt := rfl
@[simp] theorem qn_writeByte (s : State) (v : Byte) : (s.writeByte v).qn = s.qn := rfl
@[simp] theorem nint_writeByte (s : State) (v : Byte) : (s.writeByte v).nint = s.nint := rfl
@[simp] theorem freq_writeByte (s : State) (v : Byte) : (s.writeByte v).freq = s.freq := rfl
@[simp] theorem nodes_writeByte (s : State) (v : Byte) : (s.writeByte v).nodes = s.nodes := rfl
@[simp] theorem codes_writeByte (s : State) (v : Byte) : (s.writeByte v).codes = s.codes := rfl
@[simp] theorem bitOut_writeByte (s : State) (v : Byte) : (s.writeByte v).bitOut = s.bitOut := rfl
@[simp] theorem byteOut_writeByte (s : State) (v : Byte) : (s.writeByte v).byteOut = s.byteOut ++ [v] := rfl
@[simp] theorem bitIn_writeByte (s : State) (v : Byte) : (s.writeByte v).bitIn = s.bitIn := rfl
@[simp] theorem hostIn_writeByte (s : State) (v : Byte) : (s.writeByte v).hostIn = s.hostIn := rfl
@[simp] theorem rspOut_writeByte (s : State) (v : Byte) : (s.writeByte v).rspOut = s.rspOut := rfl

/-! ## A write to `FREQ` -/

@[simp] theorem ph_setFreq (s : State) (i : Nat) (n : Count) : (s.setFreq i n).ph = s.ph := rfl
@[simp] theorem err_setFreq (s : State) (i : Nat) (n : Count) : (s.setFreq i n).err = s.err := rfl
@[simp] theorem ecmd_setFreq (s : State) (i : Nat) (n : Count) : (s.setFreq i n).ecmd = s.ecmd := rfl
@[simp] theorem root_setFreq (s : State) (i : Nat) (n : Count) : (s.setFreq i n).root = s.root := rfl
@[simp] theorem cur_setFreq (s : State) (i : Nat) (n : Count) : (s.setFreq i n).cur = s.cur := rfl
@[simp] theorem dt_setFreq (s : State) (i : Nat) (n : Count) : (s.setFreq i n).dt = s.dt := rfl
@[simp] theorem qn_setFreq (s : State) (i : Nat) (n : Count) : (s.setFreq i n).qn = s.qn := rfl
@[simp] theorem nint_setFreq (s : State) (i : Nat) (n : Count) : (s.setFreq i n).nint = s.nint := rfl
@[simp] theorem freq_setFreq (s : State) (i : Nat) (n : Count) : (s.setFreq i n).freq = tableSet 0 s.freq i n := rfl
@[simp] theorem nodes_setFreq (s : State) (i : Nat) (n : Count) : (s.setFreq i n).nodes = s.nodes := rfl
@[simp] theorem codes_setFreq (s : State) (i : Nat) (n : Count) : (s.setFreq i n).codes = s.codes := rfl
@[simp] theorem bitOut_setFreq (s : State) (i : Nat) (n : Count) : (s.setFreq i n).bitOut = s.bitOut := rfl
@[simp] theorem byteOut_setFreq (s : State) (i : Nat) (n : Count) : (s.setFreq i n).byteOut = s.byteOut := rfl
@[simp] theorem bitIn_setFreq (s : State) (i : Nat) (n : Count) : (s.setFreq i n).bitIn = s.bitIn := rfl
@[simp] theorem hostIn_setFreq (s : State) (i : Nat) (n : Count) : (s.setFreq i n).hostIn = s.hostIn := rfl
@[simp] theorem rspOut_setFreq (s : State) (i : Nat) (n : Count) : (s.setFreq i n).rspOut = s.rspOut := rfl

/-! ## A write to `NODE` -/

@[simp] theorem ph_setNode (s : State) (i : Nat) (x : Slot) : (s.setNode i x).ph = s.ph := rfl
@[simp] theorem err_setNode (s : State) (i : Nat) (x : Slot) : (s.setNode i x).err = s.err := rfl
@[simp] theorem ecmd_setNode (s : State) (i : Nat) (x : Slot) : (s.setNode i x).ecmd = s.ecmd := rfl
@[simp] theorem root_setNode (s : State) (i : Nat) (x : Slot) : (s.setNode i x).root = s.root := rfl
@[simp] theorem cur_setNode (s : State) (i : Nat) (x : Slot) : (s.setNode i x).cur = s.cur := rfl
@[simp] theorem dt_setNode (s : State) (i : Nat) (x : Slot) : (s.setNode i x).dt = s.dt := rfl
@[simp] theorem qn_setNode (s : State) (i : Nat) (x : Slot) : (s.setNode i x).qn = s.qn := rfl
@[simp] theorem nint_setNode (s : State) (i : Nat) (x : Slot) : (s.setNode i x).nint = s.nint := rfl
@[simp] theorem freq_setNode (s : State) (i : Nat) (x : Slot) : (s.setNode i x).freq = s.freq := rfl
@[simp] theorem nodes_setNode (s : State) (i : Nat) (x : Slot) : (s.setNode i x).nodes = tableSet Slot.empty s.nodes i x := rfl
@[simp] theorem codes_setNode (s : State) (i : Nat) (x : Slot) : (s.setNode i x).codes = s.codes := rfl
@[simp] theorem bitOut_setNode (s : State) (i : Nat) (x : Slot) : (s.setNode i x).bitOut = s.bitOut := rfl
@[simp] theorem byteOut_setNode (s : State) (i : Nat) (x : Slot) : (s.setNode i x).byteOut = s.byteOut := rfl
@[simp] theorem bitIn_setNode (s : State) (i : Nat) (x : Slot) : (s.setNode i x).bitIn = s.bitIn := rfl
@[simp] theorem hostIn_setNode (s : State) (i : Nat) (x : Slot) : (s.setNode i x).hostIn = s.hostIn := rfl
@[simp] theorem rspOut_setNode (s : State) (i : Nat) (x : Slot) : (s.setNode i x).rspOut = s.rspOut := rfl

/-! ## A removal from the queue (R31) -/

@[simp] theorem ph_dequeue (s : State) (i : Nat) : (s.dequeue i).ph = s.ph := rfl
@[simp] theorem err_dequeue (s : State) (i : Nat) : (s.dequeue i).err = s.err := rfl
@[simp] theorem ecmd_dequeue (s : State) (i : Nat) : (s.dequeue i).ecmd = s.ecmd := rfl
@[simp] theorem root_dequeue (s : State) (i : Nat) : (s.dequeue i).root = s.root := rfl
@[simp] theorem cur_dequeue (s : State) (i : Nat) : (s.dequeue i).cur = s.cur := rfl
@[simp] theorem dt_dequeue (s : State) (i : Nat) : (s.dequeue i).dt = s.dt := rfl
@[simp] theorem qn_dequeue (s : State) (i : Nat) : (s.dequeue i).qn = s.qn := rfl
@[simp] theorem nint_dequeue (s : State) (i : Nat) : (s.dequeue i).nint = s.nint := rfl
@[simp] theorem freq_dequeue (s : State) (i : Nat) : (s.dequeue i).freq = s.freq := rfl
@[simp] theorem nodes_dequeue (s : State) (i : Nat) : (s.dequeue i).nodes = (s.setNode i { s.nodeAt i with inq := false }).nodes := rfl
@[simp] theorem codes_dequeue (s : State) (i : Nat) : (s.dequeue i).codes = s.codes := rfl
@[simp] theorem bitOut_dequeue (s : State) (i : Nat) : (s.dequeue i).bitOut = s.bitOut := rfl
@[simp] theorem byteOut_dequeue (s : State) (i : Nat) : (s.dequeue i).byteOut = s.byteOut := rfl
@[simp] theorem bitIn_dequeue (s : State) (i : Nat) : (s.dequeue i).bitIn = s.bitIn := rfl
@[simp] theorem hostIn_dequeue (s : State) (i : Nat) : (s.dequeue i).hostIn = s.hostIn := rfl
@[simp] theorem rspOut_dequeue (s : State) (i : Nat) : (s.dequeue i).rspOut = s.rspOut := rfl

/-! ## Release (R150, R190) -/

@[simp] theorem ph_release (s : State) : s.release.ph = .table := rfl
@[simp] theorem err_release (s : State) : s.release.err = 0 := rfl
@[simp] theorem ecmd_release (s : State) : s.release.ecmd = 0 := rfl
@[simp] theorem root_release (s : State) : s.release.root = Config.nil := rfl
@[simp] theorem cur_release (s : State) : s.release.cur = Config.nil := rfl
@[simp] theorem dt_release (s : State) : s.release.dt = false := rfl
@[simp] theorem qn_release (s : State) : s.release.qn = 0 := rfl
@[simp] theorem nint_release (s : State) : s.release.nint = 0 := rfl
@[simp] theorem freq_release (s : State) : s.release.freq = [] := rfl
@[simp] theorem nodes_release (s : State) : s.release.nodes = [] := rfl
@[simp] theorem codes_release (s : State) : s.release.codes = [] := rfl
@[simp] theorem bitOut_release (s : State) : s.release.bitOut = s.bitOut := rfl
@[simp] theorem byteOut_release (s : State) : s.release.byteOut = s.byteOut := rfl
@[simp] theorem bitIn_release (s : State) : s.release.bitIn = s.bitIn := rfl
@[simp] theorem hostIn_release (s : State) : s.release.hostIn = s.hostIn := rfl
@[simp] theorem rspOut_release (s : State) : s.release.rspOut = s.rspOut := rfl

/-! ## The fault primitive (R170): `ERR` and `ECMD` change only when no fault is recorded -/

@[simp] theorem ph_recordFault (s : State) (f : FaultCode) (c : Word) : (s.recordFault f c).ph = s.ph := by
  unfold State.recordFault; split <;> rfl
@[simp] theorem root_recordFault (s : State) (f : FaultCode) (c : Word) : (s.recordFault f c).root = s.root := by
  unfold State.recordFault; split <;> rfl
@[simp] theorem cur_recordFault (s : State) (f : FaultCode) (c : Word) : (s.recordFault f c).cur = s.cur := by
  unfold State.recordFault; split <;> rfl
@[simp] theorem dt_recordFault (s : State) (f : FaultCode) (c : Word) : (s.recordFault f c).dt = s.dt := by
  unfold State.recordFault; split <;> rfl
@[simp] theorem qn_recordFault (s : State) (f : FaultCode) (c : Word) : (s.recordFault f c).qn = s.qn := by
  unfold State.recordFault; split <;> rfl
@[simp] theorem nint_recordFault (s : State) (f : FaultCode) (c : Word) : (s.recordFault f c).nint = s.nint := by
  unfold State.recordFault; split <;> rfl
@[simp] theorem freq_recordFault (s : State) (f : FaultCode) (c : Word) : (s.recordFault f c).freq = s.freq := by
  unfold State.recordFault; split <;> rfl
@[simp] theorem nodes_recordFault (s : State) (f : FaultCode) (c : Word) : (s.recordFault f c).nodes = s.nodes := by
  unfold State.recordFault; split <;> rfl
@[simp] theorem codes_recordFault (s : State) (f : FaultCode) (c : Word) : (s.recordFault f c).codes = s.codes := by
  unfold State.recordFault; split <;> rfl
@[simp] theorem bitOut_recordFault (s : State) (f : FaultCode) (c : Word) : (s.recordFault f c).bitOut = s.bitOut := by
  unfold State.recordFault; split <;> rfl
@[simp] theorem byteOut_recordFault (s : State) (f : FaultCode) (c : Word) : (s.recordFault f c).byteOut = s.byteOut := by
  unfold State.recordFault; split <;> rfl
@[simp] theorem bitIn_recordFault (s : State) (f : FaultCode) (c : Word) : (s.recordFault f c).bitIn = s.bitIn := by
  unfold State.recordFault; split <;> rfl
@[simp] theorem hostIn_recordFault (s : State) (f : FaultCode) (c : Word) : (s.recordFault f c).hostIn = s.hostIn := by
  unfold State.recordFault; split <;> rfl
@[simp] theorem rspOut_recordFault (s : State) (f : FaultCode) (c : Word) : (s.recordFault f c).rspOut = s.rspOut := by
  unfold State.recordFault; split <;> rfl
@[simp] theorem ph_raise (s : State) (f : FaultCode) (c : Word) : (s.raise f c).ph = s.ph := by
  simp [State.raise]
@[simp] theorem root_raise (s : State) (f : FaultCode) (c : Word) : (s.raise f c).root = s.root := by
  simp [State.raise]
@[simp] theorem cur_raise (s : State) (f : FaultCode) (c : Word) : (s.raise f c).cur = s.cur := by
  simp [State.raise]
@[simp] theorem dt_raise (s : State) (f : FaultCode) (c : Word) : (s.raise f c).dt = s.dt := by
  simp [State.raise]
@[simp] theorem qn_raise (s : State) (f : FaultCode) (c : Word) : (s.raise f c).qn = s.qn := by
  simp [State.raise]
@[simp] theorem nint_raise (s : State) (f : FaultCode) (c : Word) : (s.raise f c).nint = s.nint := by
  simp [State.raise]
@[simp] theorem freq_raise (s : State) (f : FaultCode) (c : Word) : (s.raise f c).freq = s.freq := by
  simp [State.raise]
@[simp] theorem nodes_raise (s : State) (f : FaultCode) (c : Word) : (s.raise f c).nodes = s.nodes := by
  simp [State.raise]
@[simp] theorem codes_raise (s : State) (f : FaultCode) (c : Word) : (s.raise f c).codes = s.codes := by
  simp [State.raise]
@[simp] theorem bitOut_raise (s : State) (f : FaultCode) (c : Word) : (s.raise f c).bitOut = s.bitOut := by
  simp [State.raise]
@[simp] theorem byteOut_raise (s : State) (f : FaultCode) (c : Word) : (s.raise f c).byteOut = s.byteOut := by
  simp [State.raise]
@[simp] theorem bitIn_raise (s : State) (f : FaultCode) (c : Word) : (s.raise f c).bitIn = s.bitIn := by
  simp [State.raise]
@[simp] theorem hostIn_raise (s : State) (f : FaultCode) (c : Word) : (s.raise f c).hostIn = s.hostIn := by
  simp [State.raise]
@[simp] theorem rspOut_raise (s : State) (f : FaultCode) (c : Word) : (s.raise f c).rspOut = s.rspOut ++ [⟨.fault f, 0⟩] := by
  simp [State.raise]

/-- A fault is recorded when none is recorded yet (R24, R25, R170). -/
theorem recordFault_of_clear {s : State} (h : s.err = 0) (f : FaultCode) (c : Word) :
    s.recordFault f c = { s with err := f.errBits, ecmd := c } :=
  if_pos h

/-- A later fault is not recorded (R24, R170). -/
theorem recordFault_of_faulted {s : State} (h : s.err ≠ 0) (f : FaultCode) (c : Word) : s.recordFault f c = s :=
  if_neg h

theorem errBits_ne_zero (f : FaultCode) : f.errBits ≠ 0 := by cases f <;> decide

theorem errBits_le (f : FaultCode) : f.errBits.toNat ≤ 6 := by cases f <;> decide

@[simp] theorem faulted_eq_false (s : State) : s.faulted = false ↔ s.err = 0 := by simp [State.faulted]

@[simp] theorem faulted_eq_true (s : State) : s.faulted = true ↔ s.err ≠ 0 := by simp [State.faulted]

end Sys2Proof.Machine
end

