-- ==== Sys2Proof/Laws/Queue.lean ====
section
/-!
SUPPORT. The priority queue: the order of removal is a strict total order, `qmin` finds its least entry (R12, R101), and
how counts and sums over an index space change when one entry changes.
-/

namespace Sys2Proof.Machine

/-! ## The order (R12) -/

theorem leavesBefore_iff (s : State) (i j : Nat) : s.leavesBefore i j = true ↔
    (s.nodeAt i).w.toNat < (s.nodeAt j).w.toNat ∨
      ((s.nodeAt i).w.toNat = (s.nodeAt j).w.toNat ∧ i < j) := by
  simp [State.leavesBefore]

theorem leavesBefore_irrefl (s : State) (i : Nat) : ¬ s.leavesBefore i i = true := by
  rw [leavesBefore_iff]; omega

theorem leavesBefore_trans {s : State} {i j k : Nat} (h : s.leavesBefore i j = true)
    (h' : s.leavesBefore j k = true) : s.leavesBefore i k = true := by
  rw [leavesBefore_iff] at *; omega

theorem leavesBefore_total (s : State) {i j : Nat} (h : i ≠ j) :
    s.leavesBefore i j = true ∨ s.leavesBefore j i = true := by
  simp only [leavesBefore_iff]; omega

theorem leavesBefore_asymm {s : State} {i j : Nat} (h : s.leavesBefore i j = true) :
    ¬ s.leavesBefore j i = true := fun h' => leavesBefore_irrefl s i (leavesBefore_trans h h')

/-! ## The minimum (R12) -/

/-- The result of `leastOf` is the best so far or a queue entry of the list, and leaves before all the others. -/
theorem leastOf_spec {s : State} {m : Nat} (l : List Nat) : ∀ {best : Option Nat}, s.leastOf best l = some m →
    (best = some m ∨ (m ∈ l ∧ (s.nodeAt m).inq = true)) ∧
    (∀ i ∈ l, (s.nodeAt i).inq = true → i = m ∨ s.leavesBefore m i = true) ∧
    (∀ b, best = some b → b = m ∨ s.leavesBefore m b = true) := by
  induction l with
  | nil =>
    intro best h
    simp only [State.leastOf] at h
    subst h
    simp
  | cons i rest ih =>
    intro best h
    cases best with
    | none =>
      simp only [State.leastOf] at h
      split at h
      · next hi =>
        obtain ⟨h1, h2, h3⟩ := ih h
        refine ⟨?_, ?_, by simp⟩
        · rcases h1 with h1 | h1
          · cases h1; exact .inr ⟨List.mem_cons_self, hi⟩
          · exact .inr ⟨List.mem_cons_of_mem _ h1.1, h1.2⟩
        · intro k hk hq
          rcases List.mem_cons.1 hk with rfl | hk
          · exact h3 _ rfl
          · exact h2 k hk hq
      · next hi =>
        obtain ⟨h1, h2, h3⟩ := ih h
        refine ⟨?_, ?_, by simp⟩
        · rcases h1 with h1 | h1
          · simp at h1
          · exact .inr ⟨List.mem_cons_of_mem _ h1.1, h1.2⟩
        · intro k hk hq
          rcases List.mem_cons.1 hk with rfl | hk
          · exact absurd hq hi
          · exact h2 k hk hq
    | some b =>
      simp only [State.leastOf] at h
      split at h
      · next hi =>
        rw [Bool.and_eq_true] at hi
        obtain ⟨h1, h2, h3⟩ := ih h
        have him := h3 i rfl
        refine ⟨?_, ?_, ?_⟩
        · rcases h1 with h1 | h1
          · cases h1; exact .inr ⟨List.mem_cons_self, hi.1⟩
          · exact .inr ⟨List.mem_cons_of_mem _ h1.1, h1.2⟩
        · intro k hk hq
          rcases List.mem_cons.1 hk with rfl | hk
          · exact him
          · exact h2 k hk hq
        · intro c hc
          cases hc
          rcases him with rfl | him
          · exact .inr hi.2
          · exact .inr (leavesBefore_trans him hi.2)
      · next hi =>
        rw [Bool.and_eq_true, not_and] at hi
        obtain ⟨h1, h2, h3⟩ := ih h
        have hbm := h3 b rfl
        refine ⟨?_, ?_, ?_⟩
        · rcases h1 with h1 | h1
          · exact .inl h1
          · exact .inr ⟨List.mem_cons_of_mem _ h1.1, h1.2⟩
        · intro k hk hq
          rcases List.mem_cons.1 hk with rfl | hk
          · by_cases hkb : k = b
            · subst hkb; exact hbm
            · have hbk := (leavesBefore_total s hkb).resolve_left (hi hq)
              rcases hbm with rfl | hbm
              · exact .inr hbk
              · exact .inr (leavesBefore_trans hbm hbk)
          · exact h2 k hk hq
        · intro c hc
          cases hc
          exact hbm

theorem leastOf_none {s : State} (l : List Nat) : ∀ {best : Option Nat}, s.leastOf best l = none →
    best = none ∧ ∀ i ∈ l, (s.nodeAt i).inq = false := by
  induction l with
  | nil => intro best h; simpa [State.leastOf] using h
  | cons i rest ih =>
    intro best h
    cases best with
    | none =>
      simp only [State.leastOf] at h
      split at h
      · simpa using (ih h).1
      · next hi =>
        refine ⟨rfl, ?_⟩
        intro k hk
        rcases List.mem_cons.1 hk with rfl | hk
        · simpa using hi
        · exact (ih h).2 k hk
    | some b =>
      simp only [State.leastOf] at h
      split at h
      · simpa using (ih h).1
      · simpa using (ih h).1

theorem qmin_def (s : State) : s.qmin = s.leastOf none (List.range 513) := by
  unfold State.qmin
  exact Eq.refl (s.leastOf none (List.range 513))

/-- `qmin()` is the queue entry that leaves before every other (R12). -/
theorem qmin_some {s : State} {m : Nat} (h : s.qmin = some m) :
    m < 513 ∧ (s.nodeAt m).inq = true ∧
      ∀ i, i < 513 → (s.nodeAt i).inq = true → i = m ∨ s.leavesBefore m i = true := by
  obtain ⟨h1, h2, _⟩ := leastOf_spec _ ((qmin_def s).symm.trans h)
  rcases h1 with h1 | h1
  · simp at h1
  · exact ⟨List.mem_range.1 h1.1, h1.2, fun i hi => h2 i (List.mem_range.2 hi)⟩

/-- `qmin()` is undefined exactly on an empty queue (R12). -/
theorem qmin_none {s : State} (h : s.qmin = none) : ∀ i, i < 513 → (s.nodeAt i).inq = false :=
  fun i hi => (leastOf_none _ ((qmin_def s).symm.trans h)).2 i (List.mem_range.2 hi)

/-- The entry that leaves before every other is `qmin()`. -/
theorem qmin_eq_some {s : State} {m : Nat} (hm : m < 513) (hq : (s.nodeAt m).inq = true)
    (h : ∀ i, i < 513 → (s.nodeAt i).inq = true → i = m ∨ s.leavesBefore m i = true) : s.qmin = some m := by
  cases hk : s.qmin with
  | none => rw [qmin_none hk m hm] at hq; simp at hq
  | some k =>
    obtain ⟨hk1, hk2, hk3⟩ := qmin_some hk
    have hkm : k = m := by
      rcases h k hk1 hk2 with hkm | h1
      · exact hkm
      · rcases hk3 m hm hq with hmk | h2
        · exact hmk.symm
        · exact absurd h2 (leavesBefore_asymm h1)
    rw [hkm]

/-- The minimum depends on the node arena only. -/
theorem qmin_congr {s t : State} (h : t.nodes = s.nodes) : t.qmin = s.qmin := by
  have hn : ∀ i, t.nodeAt i = s.nodeAt i := nodeAt_congr h
  have hb : ∀ i j, t.leavesBefore i j = s.leavesBefore i j := fun i j => by
    simp only [State.leavesBefore, hn]
  have hl : ∀ (l : List Nat) (best : Option Nat), t.leastOf best l = s.leastOf best l := by
    intro l
    induction l with
    | nil => intro best; cases best <;> rfl
    | cons i rest ih => intro best; cases best <;> simp only [State.leastOf, hn, hb, ih]
  exact (qmin_def t).trans ((hl _ _).trans (qmin_def s).symm)

/-! ## Counts and sums over an index space -/

theorem countP_range_congr {n : Nat} {f g : Nat → Bool} (h : ∀ k, k < n → f k = g k) :
    (List.range n).countP f = (List.range n).countP g :=
  List.countP_congr fun k hk => by rw [h k (List.mem_range.1 hk)]

theorem sum_range_congr {n : Nat} {f g : Nat → Nat} (h : ∀ k, k < n → f k = g k) :
    ((List.range n).map f).sum = ((List.range n).map g).sum := by
  rw [List.map_congr_left fun k hk => h k (List.mem_range.1 hk)]

/-- A sum over an index space when one term changes. -/
theorem sum_range_update {i : Nat} {f g : Nat → Nat} (h : ∀ k, k ≠ i → f k = g k) (n : Nat) (hi : i < n) :
    ((List.range n).map f).sum + g i = ((List.range n).map g).sum + f i := by
  induction n with
  | zero => omega
  | succ n ih =>
    simp only [List.range_succ, List.map_append, List.sum_append, List.map_cons, List.map_nil, List.sum_cons,
      List.sum_nil]
    by_cases hin : i = n
    · subst hin
      have : ((List.range i).map f).sum = ((List.range i).map g).sum :=
        sum_range_congr fun k hk => h k (by omega)
      omega
    · have := ih (by omega)
      have := h n (fun hh => hin hh.symm)
      omega

theorem countP_eq_sum (n : Nat) (f : Nat → Bool) :
    (List.range n).countP f = ((List.range n).map (fun k => if f k then 1 else 0)).sum := by
  induction n with
  | zero => rfl
  | succ n ih =>
    simp only [List.range_succ, List.countP_append, List.map_append, List.sum_append, ih, List.countP_cons,
      List.countP_nil, List.map_cons, List.map_nil, List.sum_cons, List.sum_nil]
    cases f n <;> simp

/-- A count over an index space when one entry changes. -/
theorem countP_range_update {i : Nat} {f g : Nat → Bool} (h : ∀ k, k ≠ i → f k = g k) (n : Nat) (hi : i < n) :
    (List.range n).countP f + (g i).toNat = (List.range n).countP g + (f i).toNat := by
  have := sum_range_update (f := fun k => if f k then 1 else 0) (g := fun k => if g k then 1 else 0)
    (fun k hk => by simp only [h k hk]) n hi
  rw [countP_eq_sum, countP_eq_sum]
  have hb : ∀ b : Bool, (if b = true then 1 else 0) = b.toNat := by decide
  simpa only [hb] using this

theorem countP_range_le (n : Nat) (f : Nat → Bool) : (List.range n).countP f ≤ n := by
  simpa using List.countP_le_length (p := f) (l := List.range n)

theorem term_le_sum {i n : Nat} (f : Nat → Nat) (hi : i < n) : f i ≤ ((List.range n).map f).sum :=
  List.single_le_sum (by simp) _ (List.mem_map.2 ⟨i, List.mem_range.2 hi, rfl⟩)

theorem sum_range_le {n b : Nat} (f : Nat → Nat) (h : ∀ k, k < n → f k ≤ b) :
    ((List.range n).map f).sum ≤ n * b := by
  induction n with
  | zero => simp
  | succ n ih =>
    simp only [List.range_succ, List.map_append, List.sum_append, List.map_cons, List.map_nil, List.sum_cons,
      List.sum_nil]
    have := ih fun k hk => h k (by omega)
    have := h n (by omega)
    rw [Nat.succ_mul]
    omega

/-- A count of at least one has a witness. -/
theorem exists_of_countP_pos {n : Nat} {f : Nat → Bool} (h : 0 < (List.range n).countP f) :
    ∃ k, k < n ∧ f k = true := by
  obtain ⟨k, hk, hf⟩ := List.countP_pos_iff.1 h
  exact ⟨k, List.mem_range.1 hk, hf⟩

/-- The largest possible total count fits a weight with room to spare: 257 * (2^32 - 1) < 2^41 (R6, R103). -/
theorem totalCount_lt (s : State) : s.totalCount < 2 ^ 41 := by
  have : s.totalCount ≤ 257 * (2 ^ 32 - 1) :=
    sum_range_le _ fun k _ => by have := (s.freqAt k).isLt; omega
  omega

theorem numEntries_le (s : State) : s.numEntries ≤ 257 := countP_range_le _ _

end Sys2Proof.Machine
end

