-- ==== Sys2Proof/Laws/Inv.lean ====
section
/-!
SUPPORT. The invariant: it does not depend on the ports nor on which fault is recorded, and small facts read off it.
-/

namespace Sys2Proof.Machine

/-- Answering, raising a fault and every port event keep the invariant: it reads neither the ports nor, beyond R24 and
R151, the fault registers. -/
theorem inv_of_same {s t : State} (h : s.Inv) (hf : t.FaultInv) (hph : t.ph = s.ph) (hroot : t.root = s.root)
    (hcur : t.cur = s.cur) (hdt : t.dt = s.dt) (hqn : t.qn = s.qn) (hnint : t.nint = s.nint)
    (hfreq : t.freq = s.freq) (hnodes : t.nodes = s.nodes) (hcodes : t.codes = s.codes) : t.Inv := by
  obtain ⟨ph, err, ecmd, root, cur, dt, qn, nint, freq, nodes, codes, bo, yo, bi, hi, ro⟩ := s
  obtain ⟨ph', err', ecmd', root', cur', dt', qn', nint', freq', nodes', codes', bo', yo', bi', hi', ro'⟩ := t
  simp only at hph hroot hcur hdt hqn hnint hfreq hnodes hcodes
  subst hph hroot hcur hdt hqn hnint hfreq hnodes hcodes
  have hfollow : ∀ (l : List Bool) (i : Nat),
      State.follow ⟨ph', err', ecmd', root', cur', dt', qn', nint', freq', nodes', codes', bo', yo', bi', hi', ro'⟩ i l =
      State.follow ⟨ph', err, ecmd, root', cur', dt', qn', nint', freq', nodes', codes', bo, yo, bi, hi, ro⟩ i l := by
    intro l
    induction l with
    | nil => intro i; rfl
    | cons b rest ih =>
      intro i
      unfold State.follow
      rw [ih]
      rfl
  exact
    { wf := h.wf
      fault := hf
      queue := ⟨h.queue.count, h.queue.valid⟩
      table := fun hp =>
        let k := h.table hp
        ⟨k.noNode, k.root, k.cur, k.dt, k.qn, k.nint⟩
      loaded := fun hp =>
        let k := h.loaded hp
        ⟨k.leaves, k.eos, k.inner, k.balance⟩
      nodes := fun hp =>
        let k := h.nodes hp
        ⟨k.leaf, k.inner, k.oneParent, k.queuedNoParent, k.hasParent, k.weight⟩
      merging := fun hp =>
        let k := h.merging hp
        ⟨k.qn, k.root, k.cur, k.dt⟩
      tree := fun hp =>
        let k := h.tree hp
        ⟨k.qn, k.root, k.cur, k.terminal, k.walking⟩
      codes := fun hp =>
        let k := h.codes hp
        ⟨k.coded, k.length, k.unused, fun i hi => (hfollow _ _).trans (k.path i hi)⟩
      noCodes := h.noCodes }

theorem faultInv_recordFault {s : State} (h : s.FaultInv) (f : FaultCode) (c : Word) :
    (s.recordFault f c).FaultInv := by
  by_cases he : s.err = 0
  · rw [recordFault_of_clear he]
    exact ⟨errBits_le f, fun hz => absurd hz (errBits_ne_zero f)⟩
  · rw [recordFault_of_faulted he]
    exact h

theorem inv_respond {s : State} (h : s.Inv) (c : RspCode) (d : BitVec 64) : (s.respond c d).Inv :=
  inv_of_same h ⟨h.fault.errRange, h.fault.ecmdClear⟩ rfl rfl rfl rfl rfl rfl rfl rfl rfl

theorem inv_halt {s : State} (h : s.Inv) : s.halt.Inv := inv_respond h _ _

theorem inv_recordFault {s : State} (h : s.Inv) (f : FaultCode) (c : Word) : (s.recordFault f c).Inv :=
  inv_of_same h (faultInv_recordFault h.fault f c) (by simp) (by simp) (by simp) (by simp) (by simp) (by simp)
    (by simp) (by simp) (by simp)

theorem inv_raise {s : State} (h : s.Inv) (f : FaultCode) (c : Word) : (s.raise f c).Inv :=
  inv_respond (inv_recordFault h f c) _ _

/-- The state after any RESET or hardware reset meets the invariant (R190, R191). -/
theorem inv_release (s : State) : s.release.Inv where
  wf := rfl
  fault := ⟨Nat.zero_le 6, fun _ => rfl⟩
  queue := ⟨by
    have : s.release.queueSize = 0 := by
      rw [State.queueSize, List.countP_eq_zero]
      intro i _
      simp [State.nodeAt, tableGet]
    rw [this]; rfl, fun i hi => by simp [State.nodeAt, tableGet] at hi⟩
  table := fun _ => ⟨fun i => ⟨rfl, rfl⟩, rfl, rfl, rfl, rfl, rfl⟩
  loaded := fun hp => absurd rfl hp
  nodes := fun hp => absurd rfl hp
  merging := fun hp => by simp at hp
  tree := fun hp => by rcases hp with hp | hp <;> simp at hp
  codes := fun hp => by simp at hp
  noCodes := fun _ _ => rfl

/-! ## Facts read off the invariant -/

theorem hasTree_ne_table {s : State} (h : s.hasTree) : s.ph ≠ .table := by
  rcases h with h | h <;> rw [h] <;> decide

theorem isLeaf_iff (x : Slot) : x.isLeaf = true ↔ x.zero = Config.nil ∧ x.one = Config.nil := by
  simp [Slot.isLeaf]

/-- A valid slot up to 256 is a leaf, a valid slot from 257 on is an internal node (R39). -/
theorem isLeaf_of_valid {s : State} (h : s.NodesInv) {i : Nat} (hv : (s.nodeAt i).nv = true) :
    (s.nodeAt i).isLeaf = decide (i < 257) := by
  by_cases hi : i < 257
  · have := h.leaf i hi hv
    rw [decide_eq_true hi, isLeaf_iff]
    exact ⟨this.2.2.1, this.2.2.2⟩
  · rw [decide_eq_false hi, ← Bool.not_eq_true, isLeaf_iff]
    rintro ⟨hz, ho⟩
    exact (h.inner i (by omega) hv).2.2.2.1 (hz.trans ho.symm)

end Sys2Proof.Machine
end

