-- ==== Sys2Proof/Laws/Tree.lean ====
section
/-!
SUPPORT. What loading the queue and one merge do to a state that meets the invariant: both complete, and both keep the
invariant (R36 to R42 of R102 and R103).
-/

namespace Sys2Proof.Machine

/-! ## QLOAD -/

theorem loadLeaf_eq (s : State) (i : Nat) : ∃ ns, s.loadLeaf i = { s with nodes := ns } := by
  unfold State.loadLeaf
  split
  · exact ⟨s.nodes, rfl⟩
  · exact ⟨_, rfl⟩

theorem foldl_loadLeaf_eq (l : List Nat) : ∀ s : State, ∃ ns, l.foldl State.loadLeaf s = { s with nodes := ns } := by
  induction l with
  | nil => exact fun s => ⟨s.nodes, rfl⟩
  | cons i rest ih =>
    intro s
    obtain ⟨ns, hns⟩ := loadLeaf_eq s i
    obtain ⟨ns', hns'⟩ := ih (s.loadLeaf i)
    exact ⟨ns', by rw [List.foldl_cons, hns', hns]⟩

/-- Loading the leaves writes nothing but the node arena (R102). -/
theorem loadLeaves_eq (s : State) : ∃ ns, s.loadLeaves = { s with nodes := ns } := foldl_loadLeaf_eq _ s

@[simp] theorem freqAt_loadLeaves (s : State) (i : Nat) : s.loadLeaves.freqAt i = s.freqAt i := by
  obtain ⟨ns, h⟩ := loadLeaves_eq s
  rw [h]; rfl

theorem foldl_loadLeaf_nodeAt (s : State) (k n : Nat) :
    ((List.range n).foldl State.loadLeaf s).nodeAt k =
      if k < n ∧ s.freqAt k ≠ 0 then leafSlot k (s.freqAt k) else s.nodeAt k := by
  induction n with
  | zero => simp
  | succ n ih =>
    rw [List.range_succ, List.foldl_append, List.foldl_cons, List.foldl_nil]
    obtain ⟨ns, hns⟩ := foldl_loadLeaf_eq (List.range n) s
    have hf : ∀ i, ((List.range n).foldl State.loadLeaf s).freqAt i = s.freqAt i := fun i => by rw [hns]; rfl
    rw [State.loadLeaf, hf]
    have hlt : k ≠ n → ((k < n + 1 ∧ s.freqAt k ≠ 0) = (k < n ∧ s.freqAt k ≠ 0)) := fun hk => by
      rw [show (k < n + 1) = (k < n) from propext (by omega)]
    by_cases h0 : s.freqAt n = 0
    · rw [if_pos h0, ih]
      by_cases hk : k = n
      · subst hk
        rw [if_neg (fun hh => hh.2 h0), if_neg (fun hh => hh.2 h0)]
      · simp only [hlt hk]
    · rw [if_neg h0, nodeAt_setNode, ih]
      by_cases hk : k = n
      · subst hk
        rw [if_pos rfl, if_pos ⟨Nat.lt_succ_self k, h0⟩]
      · rw [if_neg hk]
        simp only [hlt hk]

/-- After loading, slot `k` holds the leaf of symbol `k` where the table has an entry for it, and is unchanged elsewhere
(R102). -/
theorem nodeAt_loadLeaves (s : State) (k : Nat) :
    s.loadLeaves.nodeAt k = if k < 257 ∧ s.freqAt k ≠ 0 then leafSlot k (s.freqAt k) else s.nodeAt k :=
  foldl_loadLeaf_nodeAt s k 257

theorem foldl_loadLeaf_wf (n : Nat) (hn : n ≤ 513) (s : State) (h : s.tablesWf = true) :
    ((List.range n).foldl State.loadLeaf s).tablesWf = true := by
  induction n with
  | zero => exact h
  | succ n ih =>
    rw [List.range_succ, List.foldl_append, List.foldl_cons, List.foldl_nil]
    rw [State.loadLeaf]
    split
    · exact ih (by omega)
    · exact tablesWf_setNode _ (by omega) (ih (by omega))

theorem tablesWf_loadLeaves {s : State} (h : s.tablesWf = true) : s.loadLeaves.tablesWf = true :=
  foldl_loadLeaf_wf 257 (by omega) s h

/-- `E_MALFORMED` is raised exactly when there is no end-of-stream entry (R102). -/
theorem loadQueue_eq_none (s : State) : s.loadQueue = none ↔ s.freqAt 256 = 0 := by
  unfold State.loadQueue
  constructor
  · intro h
    split at h
    · assumption
    · simp only at h
      split at h <;> simp at h
  · intro h
    rw [if_pos (by simpa using h)]

/-- The state QLOAD leaves when it loads two or more leaves, and when it loads the leaf of `EOS` alone (R102). -/
theorem loadQueue_eq_some {s t : State} (h : s.loadQueue = some t) :
    s.freqAt 256 ≠ 0 ∧
    ((s.numEntries = 1 ∧ t = { s with nodes := s.loadLeaves.nodes, qn := BitVec.ofNat 10 s.numEntries, nint := 0,
                                      root := 256, cur := 256, dt := true, ph := .tree }) ∨
     (s.numEntries ≠ 1 ∧ t = { s with nodes := s.loadLeaves.nodes, qn := BitVec.ofNat 10 s.numEntries, nint := 0,
                                      ph := .merging })) := by
  obtain ⟨ns, hns⟩ := loadLeaves_eq s
  unfold State.loadQueue at h
  split at h
  · simp at h
  · next h0 =>
    refine ⟨by simpa using h0, ?_⟩
    simp only at h
    split at h
    · next h1 =>
      refine .inl ⟨h1, ?_⟩
      rw [← Option.some.inj h, hns]
    · next h1 =>
      refine .inr ⟨h1, ?_⟩
      rw [← Option.some.inj h, hns]

theorem range_513 : List.range 513 = List.range 257 ++ (List.range 256).map (257 + ·) := by
  rw [show 513 = 257 + 256 from rfl, List.range_add]

/-- The symbols with a count are at least one and, where that is all, `EOS` is the one (R102 corner case (a)). -/
theorem numEntries_pos {s : State} (h : s.freqAt 256 ≠ 0) : 1 ≤ s.numEntries := by
  have : 0 < (List.range 257).countP (fun i => s.freqAt i != 0) :=
    List.countP_pos_iff.2 ⟨256, by simp, by simpa using h⟩
  exact this

theorem eq_eos_of_numEntries_one {s : State} (h : s.freqAt 256 ≠ 0) (h1 : s.numEntries = 1) {i : Nat}
    (hi : i < 257) (hf : s.freqAt i ≠ 0) : i = 256 := by
  by_contra hne
  have hlt : i < 256 := by omega
  have : s.numEntries = (List.range 256).countP (fun i => s.freqAt i != 0) + 1 := by
    unfold State.numEntries
    rw [show 257 = 256 + 1 from rfl, List.range_succ, List.countP_append]
    simpa using h
  have hpos : 0 < (List.range 256).countP (fun i => s.freqAt i != 0) :=
    List.countP_pos_iff.2 ⟨i, List.mem_range.2 hlt, by simpa using hf⟩
  omega

theorem loadQueue_inv {s t : State} (h : s.Inv) (hph : s.ph = .table) (hl : s.loadQueue = some t) : t.Inv := by
  have hT := h.table hph
  obtain ⟨h0, hcase⟩ := loadQueue_eq_some hl
  -- what both cases share
  have hN : t.nodes = s.loadLeaves.nodes := by rcases hcase with ⟨_, e⟩ | ⟨_, e⟩ <;> rw [e]
  have hF : t.freq = s.freq := by rcases hcase with ⟨_, e⟩ | ⟨_, e⟩ <;> rw [e]
  have hC : t.codes = s.codes := by rcases hcase with ⟨_, e⟩ | ⟨_, e⟩ <;> rw [e]
  have hE : t.err = s.err ∧ t.ecmd = s.ecmd := by rcases hcase with ⟨_, e⟩ | ⟨_, e⟩ <;> (rw [e]; exact ⟨rfl, rfl⟩)
  have hQ : t.qn = BitVec.ofNat 10 s.numEntries := by rcases hcase with ⟨_, e⟩ | ⟨_, e⟩ <;> rw [e]
  have hI : t.nint = 0 := by rcases hcase with ⟨_, e⟩ | ⟨_, e⟩ <;> rw [e]
  have hP : t.ph ≠ .table ∧ t.ph ≠ .coded := by
    rcases hcase with ⟨_, e⟩ | ⟨_, e⟩ <;> (rw [e]; exact ⟨Phase.noConfusion, Phase.noConfusion⟩)
  have hfreq : ∀ i, t.freqAt i = s.freqAt i := freqAt_congr hF
  have hnode : ∀ k, t.nodeAt k = if k < 257 ∧ s.freqAt k ≠ 0 then leafSlot k (s.freqAt k) else s.nodeAt k :=
    fun k => (nodeAt_congr hN k).trans (nodeAt_loadLeaves s k)
  have hnv : ∀ k, (t.nodeAt k).nv = true ↔ k < 257 ∧ s.freqAt k ≠ 0 := by
    intro k
    rw [hnode]
    split
    · next hk => exact ⟨fun _ => hk, fun _ => rfl⟩
    · next hk => rw [(hT.noNode k).1]; exact ⟨fun hh => Bool.noConfusion hh, fun hh => absurd hh hk⟩
  have hinq : ∀ k, (t.nodeAt k).inq = decide (k < 257 ∧ s.freqAt k ≠ 0) := by
    intro k
    rw [hnode]
    split
    · next hk => rw [decide_eq_true hk]; rfl
    · next hk => rw [(hT.noNode k).2, decide_eq_false hk]
  have hnum : s.numEntries ≤ 257 := numEntries_le s
  have hqn : t.qn.toNat = s.numEntries := by rw [hQ, BitVec.toNat_ofNat]; omega
  have htnum : t.numEntries = s.numEntries := by simp only [State.numEntries, hfreq]
  have hchild : ∀ n c, ¬ t.isChild n c := by
    rintro n c ⟨hn, hv, _⟩
    have := ((hnv n).1 hv).1
    omega
  have hsize : t.queueSize = s.numEntries := by
    unfold State.queueSize State.numEntries
    rw [range_513, List.countP_append]
    have h1 : (List.range 257).countP (fun i => (t.nodeAt i).inq) =
        (List.range 257).countP (fun i => s.freqAt i != 0) :=
      countP_range_congr fun k hk => by
        rw [hinq, Bool.eq_iff_iff, decide_eq_true_iff, bne_iff_ne]
        exact ⟨And.right, fun hf => ⟨hk, hf⟩⟩
    have h2 : ((List.range 256).map (257 + ·)).countP (fun i => (t.nodeAt i).inq) = 0 := by
      rw [List.countP_eq_zero]
      intro a ha
      obtain ⟨k, _, rfl⟩ := List.mem_map.1 ha
      rw [hinq, decide_eq_true_iff]
      omega
    rw [h1, h2, Nat.add_zero]
  have hweight : t.queueWeight = t.totalCount := by
    unfold State.queueWeight State.totalCount
    rw [range_513, List.map_append, List.sum_append]
    have h1 : ((List.range 257).map (fun i => if (t.nodeAt i).inq then (t.nodeAt i).w.toNat else 0)).sum =
        ((List.range 257).map (fun i => (t.freqAt i).toNat)).sum := by
      apply sum_range_congr
      intro k hk
      rw [hinq, hfreq]
      by_cases hz : s.freqAt k = 0
      · rw [decide_eq_false (fun hh => hh.2 hz), hz]; rfl
      · have hk' : k < 257 ∧ s.freqAt k ≠ 0 := ⟨hk, hz⟩
        rw [decide_eq_true hk', if_pos rfl, hnode, if_pos hk']
        have := (s.freqAt k).isLt
        simp only [leafSlot, BitVec.toNat_setWidth]
        omega
    have h2 : (((List.range 256).map (257 + ·)).map
        (fun i => if (t.nodeAt i).inq then (t.nodeAt i).w.toNat else 0)).sum = 0 := by
      rw [List.sum_eq_zero_iff]
      intro a ha
      obtain ⟨b, hb, rfl⟩ := List.mem_map.1 ha
      obtain ⟨k, _, rfl⟩ := List.mem_map.1 hb
      rw [hinq, decide_eq_false (by omega)]
      rfl
    rw [h1, h2, Nat.add_zero]
  exact
    { wf := by
        have := tablesWf_loadLeaves h.wf
        obtain ⟨ns, hns⟩ := loadLeaves_eq s
        rw [tablesWf_iff] at this ⊢
        rw [hF, hN, hC]
        rw [hns] at this ⊢
        exact this
      fault := ⟨by rw [hE.1]; exact h.fault.errRange, by rw [hE.1, hE.2]; exact h.fault.ecmdClear⟩
      queue := ⟨hqn.trans hsize.symm, fun i hi => by
        rw [hinq, decide_eq_true_iff] at hi
        exact (hnv i).2 hi⟩
      table := fun hp => absurd hp hP.1
      loaded := fun _ =>
        { leaves := fun i hi => by rw [hnv, hfreq]; exact ⟨And.right, fun hf => ⟨hi, hf⟩⟩
          eos := by rw [hfreq]; exact h0
          inner := fun k _ => by
            rw [hnv, hI]
            constructor
            · rintro ⟨hk, _⟩; omega
            · intro hk; exact absurd hk (Nat.not_lt_zero k)
          balance := by rw [hqn, hI, htnum]; rfl }
      nodes := fun _ =>
        { leaf := fun i hi hv => by
            have hk := (hnv i).1 hv
            rw [hnode, if_pos hk, hfreq]
            exact ⟨rfl, rfl, rfl, rfl⟩
          inner := fun n hn hv => by have := ((hnv n).1 hv).1; omega
          oneParent := fun m n c hm => absurd hm (hchild m c)
          queuedNoParent := fun n c _ => hchild n c
          hasParent := fun c hv hi => by
            rw [hinq, decide_eq_false_iff_not] at hi
            exact absurd ((hnv c).1 hv) hi
          weight := hweight }
      merging := fun hp => by
        rcases hcase with ⟨_, rfl⟩ | ⟨h1, rfl⟩
        · exact Phase.noConfusion hp
        · have := numEntries_pos h0
          exact ⟨by rw [hqn]; omega, hT.root, hT.cur, hT.dt⟩
      tree := fun hp => by
        rcases hcase with ⟨h1, rfl⟩ | ⟨_, rfl⟩
        · have h256 : 256 < 257 ∧ s.freqAt 256 ≠ 0 := ⟨by decide, h0⟩
          refine ⟨?_, ?_, ?_, ?_, ?_⟩
          · exact hQ.trans (by rw [h1]; rfl)
          · exact (hinq 256).trans (decide_eq_true h256)
          · exact (hnv 256).2 h256
          · exact ⟨fun _ => rfl, fun _ => rfl⟩
          · intro hd; exact Bool.noConfusion hd
        · rcases hp with hp | hp <;> exact Phase.noConfusion hp
      codes := fun hp => absurd hp hP.2
      noCodes := fun _ i => by
        rw [codeAt_congr hC]
        exact h.noCodes (by rw [hph]; decide) i }

/-! ## MERGE -/

/-- Taking a node out of the queue changes its `INQ` bit only (R31). -/
theorem nodeAt_dequeue (s : State) (i k : Nat) :
    (s.dequeue i).nodeAt k = if k = i then { s.nodeAt i with inq := false } else s.nodeAt k := by
  rw [State.dequeue, nodeAt_setNode]

/-- The state MERGE leaves when it joins `a` and `b` (R103). -/
def State.joined (s : State) (a b : Nat) : State :=
  { ((s.dequeue a).dequeue b).setNode (257 + s.nint.toNat)
      (innerSlot a b (BitVec.ofNat 41 ((s.nodeAt a).w.toNat + (s.nodeAt b).w.toNat))) with
    nint := s.nint + 1
    qn := s.qn - 1 }.completeTree (257 + s.nint.toNat)

/-- The two removals of a MERGE (R103): with at least two entries in the queue both succeed, `a` leaves before every
other entry, `b` before every entry but `a`. -/
structure State.Removed (s : State) (a b : Nat) : Prop where
  first : s.qmin = some a
  second : (s.dequeue a).qmin = some b
  ne : a ≠ b
  ltA : a < 513
  ltB : b < 513
  inqA : (s.nodeAt a).inq = true
  inqB : (s.nodeAt b).inq = true

theorem removed_of_queue {s : State} (hq : 2 ≤ s.queueSize) : ∃ a b, s.Removed a b := by
  obtain ⟨i, hi, hiq⟩ := exists_of_countP_pos (lt_of_lt_of_le (by decide) hq)
  cases ha : s.qmin with
  | none => rw [qmin_none ha i hi] at hiq; exact Bool.noConfusion hiq
  | some a =>
    obtain ⟨ha1, ha2, _⟩ := qmin_some ha
    have hsize : (s.dequeue a).queueSize + 1 = s.queueSize := by
      have := countP_range_update (i := a) (f := fun k => ((s.dequeue a).nodeAt k).inq)
        (g := fun k => (s.nodeAt k).inq) (fun k hk => by simp only [nodeAt_dequeue, if_neg hk]) 513 ha1
      simp only [nodeAt_dequeue, if_true, ha2, Bool.toNat_true, Bool.toNat_false, Nat.add_zero] at this
      simpa only [State.queueSize, nodeAt_dequeue] using this
    obtain ⟨j, hj, hjq⟩ := exists_of_countP_pos (show 0 < (s.dequeue a).queueSize by omega)
    cases hb : (s.dequeue a).qmin with
    | none => rw [qmin_none hb j hj] at hjq; exact Bool.noConfusion hjq
    | some b =>
      obtain ⟨hb1, hb2, _⟩ := qmin_some hb
      have hba : b ≠ a := by
        intro hba
        rw [hba, nodeAt_dequeue, if_pos rfl] at hb2
        exact Bool.noConfusion hb2
      rw [nodeAt_dequeue, if_neg hba] at hb2
      exact ⟨a, b, ha, hb, hba.symm, ha1, hb1, ha2, hb2⟩

theorem nint_lt {s : State} (h : s.Inv) (hph : s.ph = .merging) : s.nint.toNat < 256 := by
  have h1 := (h.loaded (by rw [hph]; exact Phase.noConfusion)).balance
  have h2 := (h.merging hph).qn
  have h3 := numEntries_le s
  omega

theorem removed_weight {s : State} {a b : Nat} (r : s.Removed a b) :
    (s.nodeAt a).w.toNat + (s.nodeAt b).w.toNat ≤ s.queueWeight := by
  have h1 := sum_range_update (i := a)
    (f := fun k => if ((s.dequeue a).nodeAt k).inq then ((s.dequeue a).nodeAt k).w.toNat else 0)
    (g := fun k => if (s.nodeAt k).inq then (s.nodeAt k).w.toNat else 0)
    (fun k hk => by simp only [nodeAt_dequeue, if_neg hk]) 513 r.ltA
  have h2 := term_le_sum (i := b)
    (fun k => if ((s.dequeue a).nodeAt k).inq then ((s.dequeue a).nodeAt k).w.toNat else 0) r.ltB
  simp only [nodeAt_dequeue, if_neg r.ne.symm, if_true, r.inqA, r.inqB, Bool.false_eq_true, if_false] at h1 h2
  unfold State.queueWeight
  omega

/-- A join completes where the slot exists and the sum and the difference fit (R103). -/
theorem join_ok {s : State} {a b : Nat} (hslot : ¬ 513 ≤ 257 + s.nint.toNat)
    (hfit : ¬ (2 ^ 41 ≤ (s.nodeAt a).w.toNat + (s.nodeAt b).w.toNat ∨ s.qn = 0)) :
    s.join a b = .ok ({ s.setNode (257 + s.nint.toNat)
      (innerSlot a b (BitVec.ofNat 41 ((s.nodeAt a).w.toNat + (s.nodeAt b).w.toNat))) with
        nint := s.nint + 1, qn := s.qn - 1 }.completeTree (257 + s.nint.toNat)) := by
  unfold State.join
  rw [if_neg hslot, if_neg hfit]

/-- A MERGE whose two removals succeed is the join of the two nodes removed (R103). -/
theorem mergeOnce_of_removed {s : State} {a b : Nat} (h1 : s.qmin = some a) (h2 : (s.dequeue a).qmin = some b) :
    s.mergeOnce = ((s.dequeue a).dequeue b).join a b := by
  unfold State.mergeOnce
  simp only [h1, h2]

/-- In a state that meets the invariant MERGE completes, on the two least entries (R103). -/
theorem mergeOnce_eq {s : State} (h : s.Inv) (hph : s.ph = .merging) :
    ∃ a b, s.Removed a b ∧ s.mergeOnce = .ok (s.joined a b) := by
  have hM := h.merging hph
  have h2 : 2 ≤ s.queueSize := by rw [← h.queue.count]; exact hM.qn
  obtain ⟨a, b, r⟩ := removed_of_queue h2
  refine ⟨a, b, r, ?_⟩
  have hn := nint_lt h hph
  have hw := removed_weight r
  have ht := totalCount_lt s
  rw [← (h.nodes (by rw [hph]; exact Phase.noConfusion)).weight] at ht
  have hq : s.qn ≠ 0 := by
    intro h0
    have := hM.qn
    rw [h0] at this
    exact absurd this (by decide)
  have hA : (((s.dequeue a).dequeue b).nodeAt a).w = (s.nodeAt a).w := by
    rw [nodeAt_dequeue, if_neg r.ne, nodeAt_dequeue, if_pos rfl]
  have hB : (((s.dequeue a).dequeue b).nodeAt b).w = (s.nodeAt b).w := by
    rw [nodeAt_dequeue, if_pos rfl, nodeAt_dequeue, if_neg r.ne.symm]
  have hfit : ¬ (2 ^ 41 ≤ (s.nodeAt a).w.toNat + (s.nodeAt b).w.toNat ∨ s.qn = 0) := by
    rintro (hh | hh)
    · omega
    · exact hq hh
  have hslot : ¬ 513 ≤ 257 + s.nint.toNat := by omega
  have hj := join_ok (s := (s.dequeue a).dequeue b) (a := a) (b := b) hslot (by rw [hA, hB]; exact hfit)
  rw [hA, hB] at hj
  exact (mergeOnce_of_removed r.first r.second).trans hj

/-! ### The joined state, field by field -/

theorem completeTree_eq (s : State) (n : Nat) : s.completeTree n =
    if s.qn = 1 then { s with root := BitVec.ofNat 10 n, cur := BitVec.ofNat 10 n, dt := false, ph := .tree }
    else s := rfl

theorem joined_same (s : State) (a b : Nat) :
    (s.joined a b).err = s.err ∧ (s.joined a b).ecmd = s.ecmd ∧ (s.joined a b).freq = s.freq ∧
    (s.joined a b).codes = s.codes ∧ (s.joined a b).qn = s.qn - 1 ∧ (s.joined a b).nint = s.nint + 1 ∧
    (s.joined a b).bitOut = s.bitOut ∧ (s.joined a b).byteOut = s.byteOut ∧ (s.joined a b).bitIn = s.bitIn ∧
    (s.joined a b).hostIn = s.hostIn ∧ (s.joined a b).rspOut = s.rspOut ∧
    (s.joined a b).nodes = (((s.dequeue a).dequeue b).setNode (257 + s.nint.toNat)
      (innerSlot a b (BitVec.ofNat 41 ((s.nodeAt a).w.toNat + (s.nodeAt b).w.toNat)))).nodes := by
  unfold State.joined
  rw [completeTree_eq]
  split <;> exact ⟨rfl, rfl, rfl, rfl, rfl, rfl, rfl, rfl, rfl, rfl, rfl, rfl⟩

/-- On the last merge the new node is the root (R103). -/
theorem joined_last {s : State} {a b : Nat} (h : s.qn - 1 = 1) :
    (s.joined a b).ph = .tree ∧ (s.joined a b).root = BitVec.ofNat 10 (257 + s.nint.toNat) ∧
    (s.joined a b).cur = BitVec.ofNat 10 (257 + s.nint.toNat) ∧ (s.joined a b).dt = false := by
  unfold State.joined
  rw [completeTree_eq, if_pos h]
  exact ⟨rfl, rfl, rfl, rfl⟩

/-- Before the last merge nothing but the queue, the arena and the two counters changes (R103). -/
theorem joined_notLast {s : State} {a b : Nat} (h : s.qn - 1 ≠ 1) :
    (s.joined a b).ph = s.ph ∧ (s.joined a b).root = s.root ∧ (s.joined a b).cur = s.cur ∧
    (s.joined a b).dt = s.dt := by
  unfold State.joined
  rw [completeTree_eq, if_neg h]
  exact ⟨rfl, rfl, rfl, rfl⟩

/-- The arena after a MERGE: the new node, its two children out of the queue, every other slot as before (R103). -/
theorem nodeAt_joined (s : State) {a b : Nat} (hab : a ≠ b) (k : Nat) : (s.joined a b).nodeAt k =
    if k = 257 + s.nint.toNat then
      innerSlot a b (BitVec.ofNat 41 ((s.nodeAt a).w.toNat + (s.nodeAt b).w.toNat))
    else if k = b then { s.nodeAt b with inq := false }
    else if k = a then { s.nodeAt a with inq := false }
    else s.nodeAt k := by
  rw [nodeAt_congr (joined_same s a b).2.2.2.2.2.2.2.2.2.2.2 k, nodeAt_setNode, nodeAt_dequeue, nodeAt_dequeue,
    nodeAt_dequeue, if_neg hab.symm]

theorem mergeOnce_inv {s : State} {a b : Nat} (h : s.Inv) (hph : s.ph = .merging) (r : s.Removed a b) :
    (s.joined a b).Inv := by
  have hne : s.ph ≠ .table := by rw [hph]; exact Phase.noConfusion
  have hL := h.loaded hne
  have hN := h.nodes hne
  have hM := h.merging hph
  have hnint := nint_lt h hph
  obtain ⟨hE1, hE2, hF, hC, hQ, hI, _, _, _, _, _, hNodes⟩ := joined_same s a b
  generalize hn : 257 + s.nint.toNat = n
  have hn1 : 257 ≤ n := by omega
  have hn2 : n < 513 := by omega
  have hnv : (s.nodeAt n).nv = false := by
    rw [← Bool.not_eq_true, ← hn]
    intro hv
    exact absurd ((hL.inner _ hnint).1 hv) (Nat.lt_irrefl _)
  have hvA : (s.nodeAt a).nv = true := h.queue.valid a r.inqA
  have hvB : (s.nodeAt b).nv = true := h.queue.valid b r.inqB
  have hinqn : (s.nodeAt n).inq = false := by
    rw [← Bool.not_eq_true]
    intro hq
    rw [h.queue.valid n hq] at hnv
    exact Bool.noConfusion hnv
  have hAn : a ≠ n := fun e => by rw [e, hnv] at hvA; exact Bool.noConfusion hvA
  have hBn : b ≠ n := fun e => by rw [e, hnv] at hvB; exact Bool.noConfusion hvB
  have hAlt : a < n := by
    by_contra hge
    have hk : (s.nodeAt (257 + (a - 257))).nv = true := by rw [show 257 + (a - 257) = a by omega]; exact hvA
    have := r.ltA
    have := (hL.inner (a - 257) (by omega)).1 hk
    omega
  have hBlt : b < n := by
    by_contra hge
    have hk : (s.nodeAt (257 + (b - 257))).nv = true := by rw [show 257 + (b - 257) = b by omega]; exact hvB
    have := r.ltB
    have := (hL.inner (b - 257) (by omega)).1 hk
    omega
  have hw := removed_weight r
  have htot := totalCount_lt s
  have hW := hN.weight
  have hfreq : ∀ i, (s.joined a b).freqAt i = s.freqAt i := freqAt_congr hF
  generalize ht : s.joined a b = t at *
  have hnode : ∀ k, t.nodeAt k =
      if k = n then innerSlot a b (BitVec.ofNat 41 ((s.nodeAt a).w.toNat + (s.nodeAt b).w.toNat))
      else if k = b then { s.nodeAt b with inq := false }
      else if k = a then { s.nodeAt a with inq := false }
      else s.nodeAt k := by
    intro k
    rw [← ht, nodeAt_joined s r.ne, hn]
  have hnew : t.nodeAt n = innerSlot a b (BitVec.ofNat 41 ((s.nodeAt a).w.toNat + (s.nodeAt b).w.toNat)) := by
    rw [hnode, if_pos rfl]
  have hold : ∀ k, k ≠ n → ∃ q, t.nodeAt k = { s.nodeAt k with inq := q } := by
    intro k hk
    rw [hnode, if_neg hk]
    split
    · next e => subst e; exact ⟨false, rfl⟩
    · split
      · next e => subst e; exact ⟨false, rfl⟩
      · exact ⟨(s.nodeAt k).inq, rfl⟩
  have hinq : ∀ k, (t.nodeAt k).inq =
      if k = n then true else if k = b then false else if k = a then false else (s.nodeAt k).inq := by
    intro k
    rw [hnode]
    split
    · rfl
    · split
      · rfl
      · split <;> rfl
  have hzA : (BitVec.ofNat 10 a).toNat = a := by rw [BitVec.toNat_ofNat]; have := r.ltA; omega
  have hzB : (BitVec.ofNat 10 b).toNat = b := by rw [BitVec.toNat_ofNat]; have := r.ltB; omega
  have hwn : (BitVec.ofNat 41 ((s.nodeAt a).w.toNat + (s.nodeAt b).w.toNat)).toNat =
      (s.nodeAt a).w.toNat + (s.nodeAt b).w.toNat := by
    rw [BitVec.toNat_ofNat, Nat.mod_eq_of_lt (by omega)]
  have hchild : ∀ m c, t.isChild m c ↔ s.isChild m c ∨ (m = n ∧ (c = a ∨ c = b)) := by
    intro m c
    unfold State.isChild
    by_cases hm : m = n
    · subst hm
      rw [hnew, hnv]
      simp only [innerSlot, hzA, hzB, hn1, true_and, Bool.false_eq_true, false_and, and_false, false_or]
      constructor <;> (rintro (e | e) <;> [left; right] <;> exact e.symm)
    · obtain ⟨q, hq⟩ := hold m hm
      rw [hq]
      simp only [hm, false_and, or_false]
  have hqn : t.qn.toNat + 1 = s.qn.toNat := by
    have h2 := hM.qn
    have h1 : (1 : BitVec 10).toNat = 1 := rfl
    rw [hQ, BitVec.toNat_sub, h1]
    have := s.qn.isLt
    omega
  have hni : t.nint.toNat = s.nint.toNat + 1 := by
    have h1 : (1 : BitVec 9).toNat = 1 := rfl
    rw [hI, BitVec.toNat_add, h1]
    omega
  -- counts and weights, three updates each
  have hcount : t.queueSize + 1 = s.queueSize := by
    have h1 := countP_range_update (i := a) (f := fun k => if k = a then false else (s.nodeAt k).inq)
      (g := fun k => (s.nodeAt k).inq) (fun k hk => if_neg hk) 513 r.ltA
    have h2 := countP_range_update (i := b)
      (f := fun k => if k = b then false else if k = a then false else (s.nodeAt k).inq)
      (g := fun k => if k = a then false else (s.nodeAt k).inq) (fun k hk => if_neg hk) 513 r.ltB
    have h3 := countP_range_update (i := n) (f := fun k => (t.nodeAt k).inq)
      (g := fun k => if k = b then false else if k = a then false else (s.nodeAt k).inq)
      (fun k hk => by rw [hinq, if_neg hk]) 513 hn2
    simp only [if_true, if_neg r.ne.symm, if_neg hBn.symm, if_neg hAn.symm, r.inqA, r.inqB, hinqn, hinq,
      Bool.toNat_true, Bool.toNat_false, Nat.add_zero] at h1 h2 h3
    unfold State.queueSize
    simp only [hinq]
    omega
  have hweight : t.queueWeight = s.queueWeight := by
    have h1 := sum_range_update (i := a)
      (f := fun k => if k = a then 0 else if (s.nodeAt k).inq then (s.nodeAt k).w.toNat else 0)
      (g := fun k => if (s.nodeAt k).inq then (s.nodeAt k).w.toNat else 0) (fun k hk => if_neg hk) 513 r.ltA
    have h2 := sum_range_update (i := b)
      (f := fun k => if k = b then 0 else if k = a then 0 else
        if (s.nodeAt k).inq then (s.nodeAt k).w.toNat else 0)
      (g := fun k => if k = a then 0 else if (s.nodeAt k).inq then (s.nodeAt k).w.toNat else 0)
      (fun k hk => if_neg hk) 513 r.ltB
    have h3 := sum_range_update (i := n)
      (f := fun k => if (t.nodeAt k).inq then (t.nodeAt k).w.toNat else 0)
      (g := fun k => if k = b then 0 else if k = a then 0 else
        if (s.nodeAt k).inq then (s.nodeAt k).w.toNat else 0)
      (fun k hk => by
        simp only [hinq, if_neg hk]
        obtain ⟨q, hq⟩ := hold k hk
        split
        · simp
        · split
          · simp
          · rw [hq]) 513 hn2
    simp only [if_true, if_neg r.ne.symm, if_neg hBn.symm, if_neg hAn.symm, r.inqA, r.inqB, hinqn, hnew, innerSlot,
      hwn, Bool.false_eq_true, if_false, Nat.add_zero] at h1 h2 h3
    unfold State.queueWeight
    omega
  have hnum : t.numEntries = s.numEntries := by simp only [State.numEntries, hfreq]
  have htotal : t.totalCount = s.totalCount := by simp only [State.totalCount, hfreq]
  have hph' : t.ph = .merging ∨ t.ph = .tree := by
    by_cases hl : s.qn - 1 = 1
    · rw [← ht]; exact .inr (joined_last hl).1
    · rw [← ht]; exact .inl ((joined_notLast hl).1.trans hph)
  exact
    { wf := by
        have := tablesWf_setNode (innerSlot a b (BitVec.ofNat 41 ((s.nodeAt a).w.toNat + (s.nodeAt b).w.toNat))) hn2
          (tablesWf_setNode { (s.dequeue a).nodeAt b with inq := false } r.ltB
            (tablesWf_setNode { s.nodeAt a with inq := false } r.ltA h.wf))
        rw [tablesWf_iff] at this ⊢
        rw [hF, hC, hNodes, hn]
        exact this
      fault := ⟨by rw [hE1]; exact h.fault.errRange, by rw [hE1, hE2]; exact h.fault.ecmdClear⟩
      queue := ⟨by have := h.queue.count; omega, fun i hi => by
        by_cases hin : i = n
        · rw [hin, hnew]; rfl
        · obtain ⟨q, hq⟩ := hold i hin
          rw [hq]
          rw [hinq, if_neg hin] at hi
          split at hi
          · exact Bool.noConfusion hi
          · split at hi
            · exact Bool.noConfusion hi
            · exact h.queue.valid i hi⟩
      table := fun hp => by rcases hph' with e | e <;> rw [e] at hp <;> exact Phase.noConfusion hp
      loaded := fun _ =>
        { leaves := fun i hi => by
            obtain ⟨q, hq⟩ := hold i (by omega)
            rw [hq, hfreq]
            exact hL.leaves i hi
          eos := by rw [hfreq]; exact hL.eos
          inner := fun k hk => by
            by_cases hkn : 257 + k = n
            · rw [hkn, hnew, hni]
              exact ⟨fun _ => by omega, fun _ => rfl⟩
            · obtain ⟨q, hq⟩ := hold _ hkn
              rw [hq, hni]
              have := hL.inner k hk
              simp only [this]
              omega
          balance := by have := hL.balance; omega }
      nodes := fun _ =>
        { leaf := fun i hi hv => by
            obtain ⟨q, hq⟩ := hold i (by omega)
            rw [hq] at hv ⊢
            rw [hfreq]
            exact hN.leaf i hi hv
          inner := fun m hm hv => by
            by_cases hmn : m = n
            · subst hmn
              obtain ⟨qa, hqa⟩ := hold a hAn
              obtain ⟨qb, hqb⟩ := hold b hBn
              rw [hnew]
              simp only [innerSlot, hzA, hzB, hwn, hqa, hqb]
              refine ⟨trivial, hAlt, hBlt, ?_, hvA, hvB, trivial⟩
              intro e
              have := congrArg BitVec.toNat e
              rw [hzA, hzB] at this
              exact r.ne this
            · obtain ⟨q, hq⟩ := hold m hmn
              rw [hq] at hv ⊢
              obtain ⟨k1, k2, k3, k4, k5, k6, k7⟩ := hN.inner m hm hv
              have hzn : (s.nodeAt m).zero.toNat ≠ n := fun e => by
                rw [e, hnv] at k5; exact Bool.noConfusion k5
              have hon : (s.nodeAt m).one.toNat ≠ n := fun e => by
                rw [e, hnv] at k6; exact Bool.noConfusion k6
              obtain ⟨qz, hqz⟩ := hold _ hzn
              obtain ⟨qo, hqo⟩ := hold _ hon
              simp only [hqz, hqo]
              exact ⟨k1, k2, k3, k4, k5, k6, k7⟩
          oneParent := fun m m' c hm hm' => by
            rw [hchild] at hm hm'
            rcases hm with hm | ⟨rfl, hc⟩
            · rcases hm' with hm' | ⟨rfl, hc⟩
              · exact hN.oneParent m m' c hm hm'
              · rcases hc with rfl | rfl
                · exact absurd hm (hN.queuedNoParent m _ r.inqA)
                · exact absurd hm (hN.queuedNoParent m _ r.inqB)
            · rcases hm' with hm' | ⟨rfl, _⟩
              · rcases hc with rfl | rfl
                · exact absurd hm' (hN.queuedNoParent m' _ r.inqA)
                · exact absurd hm' (hN.queuedNoParent m' _ r.inqB)
              · rfl
          queuedNoParent := fun m c hq hm => by
            rw [hchild] at hm
            rw [hinq] at hq
            by_cases hcn : c = n
            · rcases hm with ⟨h1, h2, h3⟩ | ⟨_, hc⟩
              · have hi := hN.inner m h1 h2
                rcases h3 with h3 | h3
                · rw [h3, hcn, hnv] at hi; exact Bool.noConfusion hi.2.2.2.2.1
                · rw [h3, hcn, hnv] at hi; exact Bool.noConfusion hi.2.2.2.2.2.1
              · rcases hc with hc | hc
                · exact hAn (hc.symm.trans hcn)
                · exact hBn (hc.symm.trans hcn)
            · rw [if_neg hcn] at hq
              split at hq
              · exact Bool.noConfusion hq
              · next hcb =>
                split at hq
                · exact Bool.noConfusion hq
                · next hca =>
                  rcases hm with hm | ⟨_, hc⟩
                  · exact hN.queuedNoParent m c hq hm
                  · rcases hc with hc | hc
                    · exact hca hc
                    · exact hcb hc
          hasParent := fun c hv hq => by
            by_cases hcn : c = n
            · rw [hcn, hnew] at hq; exact Bool.noConfusion hq
            · by_cases hca : c = a
              · exact ⟨n, (hchild n c).2 (.inr ⟨rfl, .inl hca⟩)⟩
              · by_cases hcb : c = b
                · exact ⟨n, (hchild n c).2 (.inr ⟨rfl, .inr hcb⟩)⟩
                · rw [hinq, if_neg hcn, if_neg hcb, if_neg hca] at hq
                  obtain ⟨q, hq'⟩ := hold c hcn
                  rw [hq'] at hv
                  obtain ⟨m, hm⟩ := hN.hasParent c hv hq
                  exact ⟨m, (hchild m c).2 (.inl hm)⟩
          weight := by rw [hweight, htotal]; exact hW }
      merging := fun hp => by
        by_cases hl : s.qn - 1 = 1
        · rw [← ht, (joined_last hl).1] at hp; exact Phase.noConfusion hp
        · obtain ⟨_, e2, e3, e4⟩ := joined_notLast (a := a) (b := b) hl
          rw [ht] at e2 e3 e4
          refine ⟨?_, e2.trans hM.root, e3.trans hM.cur, e4.trans hM.dt⟩
          have h2 := hM.qn
          have : t.qn.toNat ≠ 1 := fun e => hl (by rw [← hQ]; exact BitVec.eq_of_toNat_eq e)
          omega
      tree := fun hp => by
        by_cases hl : s.qn - 1 = 1
        · obtain ⟨_, e2, e3, e4⟩ := joined_last (a := a) (b := b) hl
          rw [ht, hn] at e2 e3
          rw [ht] at e4
          have hzn : (BitVec.ofNat 10 n).toNat = n := by rw [BitVec.toNat_ofNat]; omega
          refine ⟨hQ.trans hl, ?_, ?_, ?_, ?_⟩
          · rw [e2, hzn, hnew]; rfl
          · rw [e3, hzn, hnew]; rfl
          · rw [e3, e4]
            refine ⟨fun e => Bool.noConfusion e, fun e => ?_⟩
            have := congrArg BitVec.toNat e
            rw [hzn, show (256 : BitVec 10).toNat = 256 from rfl] at this
            omega
          · intro _
            rw [e3, hzn]
            exact hn1
        · rw [← ht] at hp
          rcases hp with hp | hp <;> rw [(joined_notLast hl).1, hph] at hp <;> exact Phase.noConfusion hp
      codes := fun hp => by rcases hph' with e | e <;> rw [e] at hp <;> exact Phase.noConfusion hp
      noCodes := fun _ i => by
        rw [codeAt_congr hC]
        exact h.noCodes (by rw [hph]; exact Phase.noConfusion) i }

end Sys2Proof.Machine
end

