-- ==== Sys2Proof/Laws/Paths.lean ====
section
/-!
SUPPORT. Paths in the tree: following choices goes down in index, subtrees of a node's two children are disjoint, every
node of a complete tree is reached from the root (R39, R40), and BUILD's loop completes the tree (R104).
-/

namespace Sys2Proof.Machine

/-! ## Following choices -/

/-- Following depends on the arena only. -/
theorem follow_congr {s t : State} (h : t.nodes = s.nodes) (l : List Bool) (i : Nat) :
    t.follow i l = s.follow i l := by
  induction l generalizing i with
  | nil => rfl
  | cons b rest ih => simp only [State.follow, nodeAt_congr h, ih]

theorem follow_append (s : State) (p q : List Bool) (i : Nat) :
    s.follow i (p ++ q) = (s.follow i p).bind (fun k => s.follow k q) := by
  induction p generalizing i with
  | nil => rfl
  | cons b rest ih =>
    simp only [List.cons_append, State.follow]
    split
    · exact ih _
    · rfl

/-- The child of node `n` on the side of bit `b`. -/
def State.childOf (s : State) (n : Nat) (b : Bool) : Nat :=
  if b then (s.nodeAt n).one.toNat else (s.nodeAt n).zero.toNat

theorem follow_cons (s : State) (i : Nat) (b : Bool) (l : List Bool) : s.follow i (b :: l) =
    if (s.nodeAt i).nv && !(s.nodeAt i).isLeaf then s.follow (s.childOf i b) l else none := rfl

/-- Below a valid internal node the choice is followed (R32). -/
theorem follow_cons_inner {s : State} (h : s.NodesInv) {i : Nat} (hi : 257 ≤ i) (hv : (s.nodeAt i).nv = true)
    (b : Bool) (l : List Bool) : s.follow i (b :: l) = s.follow (s.childOf i b) l := by
  rw [follow_cons, hv, isLeaf_of_valid h hv, decide_eq_false (by omega)]
  rfl

/-- Where a choice is followed there is a valid internal node. -/
theorem inner_of_follow {s : State} (h : s.NodesInv) {i k : Nat} {b : Bool} {l : List Bool}
    (hf : s.follow i (b :: l) = some k) :
    257 ≤ i ∧ (s.nodeAt i).nv = true ∧ s.follow (s.childOf i b) l = some k := by
  rw [follow_cons] at hf
  split at hf
  · next hc =>
    rw [Bool.and_eq_true] at hc
    have hl := hc.2
    rw [isLeaf_of_valid h hc.1, Bool.not_eq_true', decide_eq_false_iff_not] at hl
    exact ⟨by omega, hc.1, hf⟩
  · simp at hf

theorem childOf_valid {s : State} (h : s.NodesInv) {n : Nat} (hn : 257 ≤ n) (hv : (s.nodeAt n).nv = true)
    (b : Bool) : (s.nodeAt (s.childOf n b)).nv = true ∧ s.childOf n b < n := by
  obtain ⟨_, h1, h2, _, h3, h4, _⟩ := h.inner n hn hv
  cases b
  · exact ⟨h3, h1⟩
  · exact ⟨h4, h2⟩

theorem isChild_childOf {s : State} {n : Nat} (hn : 257 ≤ n) (hv : (s.nodeAt n).nv = true) (b : Bool) :
    s.isChild n (s.childOf n b) := by
  cases b
  · exact ⟨hn, hv, .inl rfl⟩
  · exact ⟨hn, hv, .inr rfl⟩

/-- Following from a valid node ends at a valid node of no greater index (R39). -/
theorem follow_valid {s : State} (h : s.NodesInv) (l : List Bool) : ∀ {i k : Nat}, (s.nodeAt i).nv = true →
    s.follow i l = some k → (s.nodeAt k).nv = true ∧ k ≤ i := by
  induction l with
  | nil =>
    intro i k hv hf
    obtain rfl := Option.some.inj hf
    exact ⟨hv, Nat.le_refl _⟩
  | cons b rest ih =>
    intro i k hv hf
    obtain ⟨h1, h2, h3⟩ := inner_of_follow h hf
    obtain ⟨h4, h5⟩ := childOf_valid h h1 h2 b
    obtain ⟨h6, h7⟩ := ih h4 h3
    exact ⟨h6, by omega⟩

/-- The last choice of a path is taken at the parent of its end. -/
theorem follow_snoc {s : State} (h : s.NodesInv) {l : List Bool} {b : Bool} {i k : Nat}
    (hf : s.follow i (l ++ [b]) = some k) : ∃ m, s.follow i l = some m ∧ s.isChild m k := by
  rw [follow_append] at hf
  cases hm : s.follow i l with
  | none => rw [hm] at hf; simp at hf
  | some m =>
    rw [hm] at hf
    obtain ⟨h1, h2, h3⟩ := inner_of_follow h hf
    obtain rfl := Option.some.inj h3
    exact ⟨m, rfl, isChild_childOf h1 h2 b⟩

/-- Of two nodes with a common descendant one is above the other. -/
theorem follow_common {s : State} (h : s.NodesInv) (p : List Bool) : ∀ (q : List Bool) {i j k : Nat},
    s.follow i p = some k → s.follow j q = some k →
      (∃ r, s.follow i r = some j) ∨ (∃ r, s.follow j r = some i) := by
  induction p using List.reverseRecOn with
  | nil =>
    intro q i j k hp hq
    obtain rfl := Option.some.inj hp
    exact .inr ⟨q, hq⟩
  | append_singleton p x ih =>
    intro q i j k hp hq
    rcases List.eq_nil_or_concat q with rfl | ⟨q', y, rfl⟩
    · obtain rfl := Option.some.inj hq
      exact .inl ⟨_, hp⟩
    · rw [List.concat_eq_append] at hq
      obtain ⟨m, hm, hmk⟩ := follow_snoc h hp
      obtain ⟨m', hm', hmk'⟩ := follow_snoc h hq
      obtain rfl := h.oneParent m m' k hmk hmk'
      exact ih q' hm hm'

/-- No node is below both children of a node (R39: "no sharing, no cycles"). -/
theorem subtrees_disjoint {s : State} (h : s.NodesInv) {n k : Nat} (hn : 257 ≤ n) (hv : (s.nodeAt n).nv = true)
    {p q : List Bool} (hp : s.follow (s.childOf n false) p = some k)
    (hq : s.follow (s.childOf n true) q = some k) : False := by
  -- whichever child is above the other, the other's parent, which is `n`, would be below the first
  have key : ∀ b c, b ≠ c → ∀ r, s.follow (s.childOf n b) r = some (s.childOf n c) → False := by
    intro b c hbc r hr
    obtain ⟨hbv, hb⟩ := childOf_valid h hn hv b
    rcases List.eq_nil_or_concat r with rfl | ⟨r', y, rfl⟩
    · have he := Option.some.inj hr
      have hne := (h.inner n hn hv).2.2.2.1
      cases b <;> cases c <;> simp only [State.childOf, ne_eq, not_true_eq_false] at hbc he
      · exact hne (BitVec.eq_of_toNat_eq (by simpa using he))
      · exact hne (BitVec.eq_of_toNat_eq (by simpa using he.symm))
    · rw [List.concat_eq_append] at hr
      obtain ⟨m, hm, hmc⟩ := follow_snoc h hr
      obtain rfl := h.oneParent m n _ hmc (isChild_childOf hn hv c)
      have := (follow_valid h r' hbv hm).2
      omega
  rcases follow_common h p q hp hq with ⟨r, hr⟩ | ⟨r, hr⟩
  · exact key false true (by decide) r hr
  · exact key true false (by decide) r hr

/-! ## A complete tree (R40) -/

/-- With one entry left the queue is the root alone (R40). -/
theorem inq_iff_root {s : State} (h : s.Inv) (ht : s.hasTree) (i : Nat) :
    (s.nodeAt i).inq = true ↔ i = s.root.toNat := by
  have hT := h.tree ht
  constructor
  · intro hi
    by_contra hne
    have hr := lt_of_valid h.wf (h.queue.valid _ hT.root)
    have hi' := lt_of_valid h.wf (h.queue.valid _ hi)
    have h1 := countP_range_update (i := i) (f := fun k => (s.nodeAt k).inq)
      (g := fun k => if k = i then false else (s.nodeAt k).inq) (fun k hk => (if_neg hk).symm) 513 hi'
    have h2 : 0 < (List.range 513).countP (fun k => if k = i then false else (s.nodeAt k).inq) :=
      List.countP_pos_iff.2 ⟨s.root.toNat, List.mem_range.2 hr, by
        rw [if_neg (fun e => hne e.symm)]; exact hT.root⟩
    simp only [if_true, hi, Bool.toNat_true, Bool.toNat_false, Nat.add_zero] at h1
    have h3 := h.queue.count
    unfold State.queueSize at h3
    rw [hT.qn, show (1 : BitVec 10).toNat = 1 from rfl] at h3
    omega
  · rintro rfl
    exact hT.root

/-- Every valid node is reached from the root (R40). -/
theorem reachable {s : State} (h : s.Inv) (ht : s.hasTree) : ∀ {k : Nat}, (s.nodeAt k).nv = true →
    ∃ p, s.follow s.root.toNat p = some k := by
  have hN := h.nodes (hasTree_ne_table ht)
  suffices ∀ d k, 513 - k ≤ d → (s.nodeAt k).nv = true → ∃ p, s.follow s.root.toNat p = some k from
    fun {k} hk => this (513 - k) k (Nat.le_refl _) hk
  intro d
  induction d with
  | zero =>
    intro k hk hv
    have := lt_of_valid h.wf hv
    omega
  | succ d ih =>
    intro k hk hv
    have hlt := lt_of_valid h.wf hv
    by_cases hq : (s.nodeAt k).inq = true
    · rw [inq_iff_root h ht] at hq
      exact ⟨[], by rw [hq]; rfl⟩
    · obtain ⟨n, hn1, hn2, hn3⟩ := hN.hasParent k hv (by simpa using hq)
      have hi := hN.inner n hn1 hn2
      have hkn : k < n := by rcases hn3 with e | e <;> rw [← e] <;> [exact hi.2.1; exact hi.2.2.1]
      obtain ⟨p, hp⟩ := ih n (by omega) hn2
      rcases hn3 with e | e
      · refine ⟨p ++ [false], ?_⟩
        rw [follow_append, hp]
        show s.follow n [false] = some k
        rw [follow_cons_inner hN hn1 hn2]
        exact congrArg some e
      · refine ⟨p ++ [true], ?_⟩
        rw [follow_append, hp]
        show s.follow n [true] = some k
        rw [follow_cons_inner hN hn1 hn2]
        exact congrArg some e

/-- The root's weight is the sum of all counts (R40). -/
theorem root_weight {s : State} (h : s.Inv) (ht : s.hasTree) :
    (s.nodeAt s.root.toNat).w.toNat = s.totalCount := by
  rw [← (h.nodes (hasTree_ne_table ht)).weight]
  have hr := lt_of_valid h.wf (h.queue.valid _ (h.tree ht).root)
  have h1 := sum_range_update (i := s.root.toNat)
    (f := fun k => if (s.nodeAt k).inq then (s.nodeAt k).w.toNat else 0) (g := fun _ => 0)
    (fun k hk => by
      rw [if_neg]
      intro hq
      exact hk ((inq_iff_root h ht k).1 hq)) 513 hr
  have h0 : ((List.range 513).map (fun _ => 0)).sum = 0 := by
    rw [List.sum_eq_zero_iff]
    intro a ha
    obtain ⟨_, _, rfl⟩ := List.mem_map.1 ha
    rfl
  rw [h0] at h1
  simp only [(h.tree ht).root, if_true, Nat.add_zero, Nat.zero_add] at h1
  unfold State.queueWeight
  exact h1.symm

/-! ## BUILD's loop (R104) -/

/-- What the builder leaves alone: all but the queue, the arena and the registers it sets (R102, R103). -/
def State.SameButTree (s t : State) : Prop :=
  t.err = s.err ∧ t.ecmd = s.ecmd ∧ t.freq = s.freq ∧ t.codes = s.codes ∧ t.bitOut = s.bitOut ∧
    t.byteOut = s.byteOut ∧ t.bitIn = s.bitIn ∧ t.hostIn = s.hostIn ∧ t.rspOut = s.rspOut

theorem sameButTree_refl (s : State) : s.SameButTree s := ⟨rfl, rfl, rfl, rfl, rfl, rfl, rfl, rfl, rfl⟩

theorem sameButTree_trans {s t u : State} (h : s.SameButTree t) (h' : t.SameButTree u) : s.SameButTree u := by
  obtain ⟨a1, a2, a3, a4, a5, a6, a7, a8, a9⟩ := h
  obtain ⟨b1, b2, b3, b4, b5, b6, b7, b8, b9⟩ := h'
  exact ⟨b1.trans a1, b2.trans a2, b3.trans a3, b4.trans a4, b5.trans a5, b6.trans a6, b7.trans a7, b8.trans a8,
    b9.trans a9⟩

theorem sameButTree_joined (s : State) (a b : Nat) : s.SameButTree (s.joined a b) := by
  obtain ⟨h1, h2, h3, h4, _, _, h5, h6, h7, h8, h9, _⟩ := joined_same s a b
  exact ⟨h1, h2, h3, h4, h5, h6, h7, h8, h9⟩

theorem sameButTree_loadQueue {s t : State} (h : s.loadQueue = some t) : s.SameButTree t := by
  obtain ⟨_, ⟨_, e⟩ | ⟨_, e⟩⟩ := loadQueue_eq_some h <;> rw [e] <;>
    exact ⟨rfl, rfl, rfl, rfl, rfl, rfl, rfl, rfl, rfl⟩

theorem joined_ph {s : State} (hph : s.ph = .merging) (a b : Nat) :
    (s.joined a b).ph = .merging ∨ (s.joined a b).ph = .tree := by
  by_cases hl : s.qn - 1 = 1
  · exact .inr (joined_last hl).1
  · exact .inl ((joined_notLast hl).1.trans hph)

/-- When a MERGE completes the tree, the decoder stands at the root (R103). -/
theorem joined_cur {s : State} (hph : s.ph = .merging) (a b : Nat) (ht : (s.joined a b).ph = .tree) :
    (s.joined a b).cur = (s.joined a b).root := by
  by_cases hl : s.qn - 1 = 1
  · rw [(joined_last hl).2.1, (joined_last hl).2.2.1]
  · rw [(joined_notLast hl).1, hph] at ht
    exact Phase.noConfusion ht

theorem joined_nint {s : State} (h : s.Inv) (hph : s.ph = .merging) (a b : Nat) :
    (s.joined a b).nint.toNat = s.nint.toNat + 1 := by
  have := nint_lt h hph
  rw [(joined_same s a b).2.2.2.2.2.1, BitVec.toNat_add, show (1 : BitVec 9).toNat = 1 from rfl]
  omega

/-- From a loaded queue the merge loop completes the tree (R104). -/
theorem mergeAll_spec (free : Nat) : ∀ {s : State}, s.Inv → (s.ph = .merging ∨ s.ph = .tree) →
    (s.ph = .merging → free + s.nint.toNat = 256) → (s.ph = .tree → s.cur = s.root) →
    ∃ t, State.mergeAll free s = .ok t ∧ t.Inv ∧ t.ph = .tree ∧ t.cur = t.root ∧ s.SameButTree t := by
  induction free with
  | zero =>
    intro s h hph hfree hcur
    rcases hph with hph | hph
    · have := nint_lt h hph
      have := hfree hph
      omega
    · exact ⟨s, by simp [State.mergeAll, hph], h, hph, hcur hph, sameButTree_refl s⟩
  | succ free ih =>
    intro s h hph hfree hcur
    rcases hph with hph | hph
    · obtain ⟨a, b, r, hm⟩ := mergeOnce_eq h hph
      obtain ⟨t, ht1, ht2, ht3, hc, ht4⟩ := ih (mergeOnce_inv h hph r) (joined_ph hph a b) (fun _ => by
        rw [joined_nint h hph]
        have := hfree hph
        omega) (joined_cur hph a b)
      refine ⟨t, ?_, ht2, ht3, hc, sameButTree_trans (sameButTree_joined s a b) ht4⟩
      simp only [State.mergeAll, hph, if_true, hm]
      exact ht1
    · exact ⟨s, by simp [State.mergeAll, hph], h, hph, hcur hph, sameButTree_refl s⟩

theorem loadQueue_ph {s t : State} (h : s.loadQueue = some t) : t.ph = .merging ∨ t.ph = .tree := by
  obtain ⟨_, ⟨_, e⟩ | ⟨_, e⟩⟩ := loadQueue_eq_some h <;> rw [e]
  · exact .inr rfl
  · exact .inl rfl

theorem loadQueue_cur {s t : State} (h : s.loadQueue = some t) (ht : t.ph = .tree) : t.cur = t.root := by
  obtain ⟨_, ⟨_, e⟩ | ⟨_, e⟩⟩ := loadQueue_eq_some h <;> rw [e] at ht ⊢
  exact Phase.noConfusion ht

theorem loadQueue_nint {s t : State} (h : s.loadQueue = some t) : t.nint = 0 := by
  obtain ⟨_, ⟨_, e⟩ | ⟨_, e⟩⟩ := loadQueue_eq_some h <;> rw [e]

/-- BUILD's work from a state that meets the invariant: the tree is completed and ROOT returned (R104). -/
theorem finishBuild_spec {s : State} (h : s.Inv) (hph : s.ph = .merging ∨ s.ph = .tree)
    (hcur : s.ph = .tree → s.cur = s.root) :
    ∃ t, State.mergeAll (256 - s.nint.toNat) s = .ok t ∧ finishBuild s = answer t (t.root.setWidth 64) ∧ t.Inv ∧
      t.ph = .tree ∧ t.cur = t.root ∧ s.SameButTree t := by
  obtain ⟨t, h1, h2, h3, h4, h5⟩ := mergeAll_spec (256 - s.nint.toNat) h hph (fun hm => by
    have := nint_lt h hm
    omega) hcur
  exact ⟨t, h1, by simp only [finishBuild, h1], h2, h3, h4, h5⟩

end Sys2Proof.Machine
end

