-- ==== Sys2Proof/Laws/Codes.lean ====
section
/-!
SUPPORT. DERIVE on a complete tree: the walk completes, gives every leaf its path as its code and every other symbol
none, and keeps the invariant (R42, R120, R121); no code is a prefix of another (R122).
-/

namespace Sys2Proof.Machine

/-! ## A path and the 256-bit word that holds it (R32) -/

/-- Bit `j` of the word is choice `j` of the path, and 0 beyond its end. -/
def HoldsPath (bits : CodeBits) (p : List Bool) : Prop := ∀ j, bits.getLsbD j = p.getD j false

theorem holdsPath_nil : HoldsPath 0 [] := fun j => by simp

theorem holdsPath_snoc_false {bits : CodeBits} {p : List Bool} (h : HoldsPath bits p) :
    HoldsPath bits (p ++ [false]) := by
  intro j
  rw [h j]
  simp only [List.getD_eq_getElem?_getD, List.getElem?_append]
  split
  · rfl
  · next hj =>
    rw [List.getElem?_eq_none (by omega)]
    by_cases h0 : j - p.length = 0 <;> simp [h0]

theorem holdsPath_snoc_true {bits : CodeBits} {p : List Bool} (h : HoldsPath bits p) (hp : p.length < 256) :
    HoldsPath (bits ||| (1#256 <<< p.length)) (p ++ [true]) := by
  intro j
  rw [BitVec.getLsbD_or, h j, BitVec.getLsbD_shiftLeft]
  simp only [List.getD_eq_getElem?_getD, List.getElem?_append]
  split
  · next hj => simp [hj]
  · next hj =>
    rw [List.getElem?_eq_none (by omega)]
    by_cases h0 : j = p.length
    · subst h0
      simp [hp]
    · have h1 : j - p.length ≠ 0 := by omega
      have h2 : ¬ j - p.length = 0 := h1
      simp [h1]

theorem bits_of_holdsPath {bits : CodeBits} {p : List Bool} (h : HoldsPath bits p) (hp : p.length ≤ 256) :
    CodeEntry.bits ⟨true, BitVec.ofNat 9 p.length, bits⟩ = p := by
  have hl : (BitVec.ofNat 9 p.length).toNat = p.length := by
    rw [BitVec.toNat_ofNat]; omega
  unfold CodeEntry.bits
  apply List.ext_getElem
  · simp [hl]
  · intro j h1 h2
    simp [h j, h2]

theorem length_codeBits (c : CodeEntry) : c.bits.length = c.clen.toNat := by simp [CodeEntry.bits]

/-! ## The walk -/

/-- Entry `k` of a code table is right for the tree: if there is a code it is the path from the root to slot `k`. -/
structure State.RightCode (s : State) (c : CodeEntry) (k : Nat) : Prop where
  length : c.cv = true → c.clen.toNat ≤ 256
  unused : ∀ j, c.cv = true → c.clen.toNat ≤ j → c.cbits.getLsbD j = false
  path : c.cv = true → s.follow s.root.toNat c.bits = some k
  absent : c.cv = false → c = CodeEntry.empty

/-- The number of symbols with a code. -/
def numCodes (codes : Table CodeEntry) : Nat :=
  (List.range 257).countP (fun k => (tableGet CodeEntry.empty codes k).cv)

/-- What the walk below node `n` does to a code table: right entries stay right, entries with a code keep one, the leaves
below `n` and no others get one, and the count counts them. -/
structure State.DerivedBelow (s : State) (n : Nat) (codes codes' : Table CodeEntry) : Prop where
  right : ∀ k, s.RightCode (tableGet CodeEntry.empty codes' k) k
  keeps : ∀ k, (tableGet CodeEntry.empty codes k).cv = true → (tableGet CodeEntry.empty codes' k).cv = true
  covers : ∀ k, k < 257 → (∃ p, s.follow n p = some k) → (tableGet CodeEntry.empty codes' k).cv = true
  only : ∀ k, (tableGet CodeEntry.empty codes' k).cv = true →
    (tableGet CodeEntry.empty codes k).cv = true ∨ (k < 257 ∧ ∃ p, s.follow n p = some k)
  wf : tableWf CodeEntry.empty 257 codes' = true

theorem deriveFrom_leaf {s : State} (h : s.NodesInv) (hwf : s.tablesWf = true) {n : Nat}
    (hv : (s.nodeAt n).nv = true) (hn : n < 257) (room len : Nat) (bits : CodeBits) (codes : Table CodeEntry)
    (count : Nat) : s.deriveFrom room n len bits (codes, count) =
      .ok (tableSet CodeEntry.empty codes n ⟨true, BitVec.ofNat 9 len, bits⟩, count + 1) := by
  have hl := isLeaf_of_valid h hv
  rw [decide_eq_true hn] at hl
  have hs : (s.nodeAt n).sym.toNat = n := by
    rw [(h.leaf n hn hv).1, BitVec.toNat_ofNat]; omega
  have hr : recordCode (s.nodeAt n).sym len bits (codes, count) =
      .ok (tableSet CodeEntry.empty codes n ⟨true, BitVec.ofNat 9 len, bits⟩, count + 1) := by
    unfold recordCode
    rw [hs, if_pos (by omega)]
  cases room <;> simp only [State.deriveFrom, node?_of_lt s (lt_of_valid hwf hv), hl, if_true, hr]

theorem deriveFrom_inner {s : State} (h : s.NodesInv) (hwf : s.tablesWf = true) {n : Nat}
    (hv : (s.nodeAt n).nv = true) (hn : 257 ≤ n) {room len : Nat} {bits : CodeBits}
    {acc acc' : Table CodeEntry × Nat}
    (h1 : s.deriveFrom room (s.childOf n false) (len + 1) bits acc = .ok acc') :
    s.deriveFrom (room + 1) n len bits acc =
      s.deriveFrom room (s.childOf n true) (len + 1) (bits ||| (1#256 <<< len)) acc' := by
  have hl := isLeaf_of_valid h hv
  rw [decide_eq_false (by omega)] at hl
  simp only [State.childOf, Bool.false_eq_true, if_false, if_true] at h1 ⊢
  simp only [State.deriveFrom, node?_of_lt s (lt_of_valid hwf hv), hl, Bool.false_eq_true, if_false, h1]

theorem numCodes_set {codes : Table CodeEntry} {k : Nat} {c : CodeEntry} (hk : k < 257)
    (h : (tableGet CodeEntry.empty codes k).cv = false) (hc : c.cv = true) :
    numCodes (tableSet CodeEntry.empty codes k c) = numCodes codes + 1 := by
  have := countP_range_update (i := k)
    (f := fun j => (tableGet CodeEntry.empty (tableSet CodeEntry.empty codes k c) j).cv)
    (g := fun j => (tableGet CodeEntry.empty codes j).cv)
    (fun j hj => by simp only [tableGet_set_other _ _ _ hj]) 257 hk
  simp only [tableGet_set_self, h, hc, Bool.toNat_true, Bool.toNat_false, Nat.add_zero] at this
  exact this

/-- The walk below a node of the tree completes and derives the codes of the leaves below it (R120, R121). -/
theorem deriveFrom_spec {s : State} (h : s.NodesInv) (hwf : s.tablesWf = true) (room : Nat) :
    ∀ (n len : Nat) (q : List Bool) (bits : CodeBits) (codes : Table CodeEntry) (count : Nat),
      (s.nodeAt n).nv = true → (257 ≤ n → n ≤ room + 256) → q.length = len → len + room = 256 →
      HoldsPath bits q → s.follow s.root.toNat q = some n →
      (∀ k, s.RightCode (tableGet CodeEntry.empty codes k) k) → tableWf CodeEntry.empty 257 codes = true →
      (∀ k p, s.follow n p = some k → (tableGet CodeEntry.empty codes k).cv = false) → count = numCodes codes →
      ∃ codes', s.deriveFrom room n len bits (codes, count) = .ok (codes', numCodes codes') ∧
        s.DerivedBelow n codes codes' := by
  -- a leaf: one entry is written
  have leaf : ∀ (room n len : Nat) (q : List Bool) (bits : CodeBits) (codes : Table CodeEntry) (count : Nat),
      (s.nodeAt n).nv = true → n < 257 → q.length = len → len ≤ 256 → HoldsPath bits q →
      s.follow s.root.toNat q = some n → (∀ k, s.RightCode (tableGet CodeEntry.empty codes k) k) →
      tableWf CodeEntry.empty 257 codes = true →
      (∀ k p, s.follow n p = some k → (tableGet CodeEntry.empty codes k).cv = false) → count = numCodes codes →
      ∃ codes', s.deriveFrom room n len bits (codes, count) = .ok (codes', numCodes codes') ∧
        s.DerivedBelow n codes codes' := by
    intro room n len q bits codes count hv hn hq hlen hbits hroot hright hcwf hfresh hcount
    have hl9 : (BitVec.ofNat 9 len).toNat = len := by rw [BitVec.toNat_ofNat]; omega
    refine ⟨tableSet CodeEntry.empty codes n ⟨true, BitVec.ofNat 9 len, bits⟩, ?_, ?_, ?_, ?_, ?_, ?_⟩
    · rw [deriveFrom_leaf h hwf hv hn, numCodes_set hn (hfresh n [] rfl) rfl, hcount]
    · intro k
      rw [tableGet_set]
      split
      · next e =>
        subst e
        refine ⟨fun _ => by rw [hl9]; exact hlen, fun j _ hj => ?_, fun _ => ?_, fun hc => Bool.noConfusion hc⟩
        · rw [hl9] at hj
          rw [hbits j, List.getD_eq_getElem?_getD, List.getElem?_eq_none (by omega)]
          rfl
        · rw [← hq, bits_of_holdsPath hbits (by omega)]
          exact hroot
      · exact hright k
    · intro k hk
      rw [tableGet_set]
      split
      · rfl
      · exact hk
    · rintro k _ ⟨p, hp⟩
      rw [tableGet_set]
      cases p with
      | nil => rw [if_pos (Option.some.inj hp).symm]
      | cons b rest =>
        have := (inner_of_follow h hp).1
        omega
    · intro k hk
      rw [tableGet_set] at hk
      split at hk
      · next e => exact .inr ⟨by omega, [], by rw [e]; rfl⟩
      · exact .inl hk
    · exact tableWf_set _ _ _ _ hn hcwf
  induction room with
  | zero =>
    intro n len q bits codes count hv hroom hq hlen hbits hroot hright hcwf hfresh hcount
    have hn : n < 257 := by
      by_contra hge
      have := hroom (by omega)
      omega
    exact leaf 0 n len q bits codes count hv hn hq (by omega) hbits hroot hright hcwf hfresh hcount
  | succ room ih =>
    intro n len q bits codes count hv hroom hq hlen hbits hroot hright hcwf hfresh hcount
    by_cases hn : n < 257
    · exact leaf (room + 1) n len q bits codes count hv hn hq (by omega) hbits hroot hright hcwf hfresh hcount
    · have hn' : 257 ≤ n := by omega
      have hroom' := hroom hn'
      obtain ⟨hzv, hz⟩ := childOf_valid h hn' hv false
      obtain ⟨hov, ho⟩ := childOf_valid h hn' hv true
      have hpath : ∀ b, s.follow s.root.toNat (q ++ [b]) = some (s.childOf n b) := by
        intro b
        rw [follow_append, hroot]
        exact follow_cons_inner h hn' hv b []
      have hbelow : ∀ b k p, s.follow (s.childOf n b) p = some k → s.follow n (b :: p) = some k := by
        intro b k p hp
        rw [follow_cons_inner h hn' hv, hp]
      obtain ⟨c1, he1, d1⟩ := ih (s.childOf n false) (len + 1) (q ++ [false]) bits codes count hzv (by omega)
        (by simp [hq]) (by omega) (holdsPath_snoc_false hbits) (hpath false) hright hcwf
        (fun k p hp => hfresh k _ (hbelow false k p hp)) hcount
      obtain ⟨c2, he2, d2⟩ := ih (s.childOf n true) (len + 1) (q ++ [true]) (bits ||| (1#256 <<< len)) c1
        (numCodes c1) hov (by omega) (by simp [hq]) (by omega)
        (by rw [← hq]; exact holdsPath_snoc_true hbits (by omega)) (hpath true) d1.right d1.wf
        (fun k p hp => by
          rw [← Bool.not_eq_true]
          intro hcv
          rcases d1.only k hcv with hcv | ⟨_, p', hp'⟩
          · rw [hfresh k _ (hbelow true k p hp)] at hcv
            exact Bool.noConfusion hcv
          · exact subtrees_disjoint h hn' hv hp' hp) rfl
      refine ⟨c2, ?_, d2.right, fun k hk => d2.keeps k (d1.keeps k hk), ?_, ?_, d2.wf⟩
      · rw [deriveFrom_inner h hwf hv hn' he1, he2]
      · rintro k hk ⟨p, hp⟩
        cases p with
        | nil =>
          have := Option.some.inj hp
          omega
        | cons b rest =>
          rw [follow_cons_inner h hn' hv] at hp
          cases b with
          | false => exact d2.keeps k (d1.covers k hk ⟨rest, hp⟩)
          | true => exact d2.covers k hk ⟨rest, hp⟩
      · intro k hk
        rcases d2.only k hk with hk | ⟨hk, p, hp⟩
        · rcases d1.only k hk with hk | ⟨hk, p, hp⟩
          · exact .inl hk
          · exact .inr ⟨hk, _, hbelow false k p hp⟩
        · exact .inr ⟨hk, _, hbelow true k p hp⟩

/-- On a complete tree DERIVE's walk completes: the symbols with a code are those of the table, each code is the path to
its leaf, and their number is returned (R121). -/
theorem derive_spec {s : State} (h : s.Inv) (ht : s.hasTree) :
    ∃ codes, s.deriveFrom 256 s.root.toNat 0 0 ([], 0) = .ok (codes, s.numEntries) ∧
      tableWf CodeEntry.empty 257 codes = true ∧
      (∀ k, s.RightCode (tableGet CodeEntry.empty codes k) k) ∧
      ∀ k, k < 257 → ((tableGet CodeEntry.empty codes k).cv = true ↔ s.freqAt k ≠ 0) := by
  have hne := hasTree_ne_table ht
  have hN := h.nodes hne
  have hrv := h.queue.valid _ (h.tree ht).root
  have hrlt := lt_of_valid h.wf hrv
  have hempty : ∀ k, (tableGet CodeEntry.empty ([] : Table CodeEntry) k).cv = false := fun _ => rfl
  obtain ⟨codes, he, d⟩ := deriveFrom_spec hN h.wf 256 s.root.toNat 0 [] 0 [] 0 hrv (fun _ => by omega) rfl rfl
    holdsPath_nil rfl
    (fun k => ⟨fun hk => (Bool.noConfusion hk), fun _ hk => (Bool.noConfusion hk), fun hk => (Bool.noConfusion hk),
      fun _ => rfl⟩)
    rfl (fun k _ _ => rfl) (by
      symm
      unfold numCodes
      rw [List.countP_eq_zero]
      intro k _ hk
      exact Bool.noConfusion hk)
  have hcv : ∀ k, k < 257 → ((tableGet CodeEntry.empty codes k).cv = true ↔ s.freqAt k ≠ 0) := by
    intro k hk
    rw [← (h.loaded hne).leaves k hk]
    constructor
    · intro hc
      rcases d.only k hc with hc | ⟨_, p, hp⟩
      · exact Bool.noConfusion hc
      · exact (follow_valid hN p hrv hp).1
    · intro hv
      exact d.covers k hk (reachable h ht hv)
  refine ⟨codes, ?_, d.wf, d.right, hcv⟩
  rw [he]
  have : numCodes codes = s.numEntries := by
    unfold numCodes State.numEntries
    apply countP_range_congr
    intro k hk
    rw [Bool.eq_iff_iff, hcv k hk, bne_iff_ne]
  rw [this]

theorem rightCode_congr {s t : State} (hn : t.nodes = s.nodes) (hr : t.root = s.root) {c : CodeEntry} {k : Nat}
    (h : s.RightCode c k) : t.RightCode c k :=
  ⟨h.length, h.unused, fun hc => by rw [follow_congr hn, hr]; exact h.path hc, h.absent⟩

/-- DERIVE keeps the invariant (R42). -/
theorem derive_inv {s : State} {codes : Table CodeEntry} {count : Nat} (h : s.Inv) (hph : s.ph = .tree)
    (hd : s.deriveFrom 256 s.root.toNat 0 0 ([], 0) = .ok (codes, count)) :
    ({ s with codes := codes, ph := .coded } : State).Inv := by
  have ht : s.hasTree := .inl hph
  have hne : s.ph ≠ .table := hasTree_ne_table ht
  obtain ⟨codes', hd', hwf, hright, hcv⟩ := derive_spec h ht
  have he := Except.ok.inj (hd.symm.trans hd')
  obtain rfl : codes = codes' := congrArg Prod.fst he
  have hT := h.tree ht
  have hL := h.loaded hne
  have hN := h.nodes hne
  exact
    { wf := by
        have := (tablesWf_iff s).1 h.wf
        exact (tablesWf_iff _).2 ⟨this.1, this.2.1, hwf⟩
      fault := ⟨h.fault.errRange, h.fault.ecmdClear⟩
      queue := ⟨h.queue.count, h.queue.valid⟩
      table := fun hp => Phase.noConfusion hp
      loaded := fun _ => ⟨hL.leaves, hL.eos, hL.inner, hL.balance⟩
      nodes := fun _ => ⟨hN.leaf, hN.inner, hN.oneParent, hN.queuedNoParent, hN.hasParent, hN.weight⟩
      merging := fun hp => Phase.noConfusion hp
      tree := fun _ => ⟨hT.qn, hT.root, hT.cur, hT.terminal, hT.walking⟩
      codes := fun _ =>
        { coded := hcv
          length := fun i => (hright i).length
          unused := fun i k => (hright i).unused k
          path := fun i hi => (rightCode_congr (s := s) (t := { s with codes := codes, ph := .coded }) rfl rfl
            (hright i)).path hi }
      noCodes := fun hp => absurd rfl hp }

/-! ## Prefix-freeness (R122) -/

/-- From a leaf no choice leads on. -/
theorem follow_leaf {s : State} (h : s.NodesInv) {i k : Nat} (hi : i < 257) {l : List Bool}
    (hf : s.follow i l = some k) : l = [] := by
  cases l with
  | nil => rfl
  | cons b rest =>
    have := (inner_of_follow h hf).1
    omega

/-- No code is a prefix of another symbol's (R42, R122). -/
theorem prefix_free {s : State} (h : s.NodesInv) {r i j : Nat} (hi : i < 257) {p q : List Bool}
    (hp : s.follow r p = some i) (hq : s.follow r q = some j) (hpq : p <+: q) : i = j := by
  obtain ⟨l, rfl⟩ := hpq
  rw [follow_append, hp] at hq
  have hq' : s.follow i l = some j := hq
  obtain rfl := follow_leaf h hi hq'
  exact Option.some.inj hq'

end Sys2Proof.Machine
end

