-- ==== Sys2Proof/Laws/Decode.lean ====
section
/-!
SUPPORT. The fields of a word made of fields, and a word is made of its fields: the two facts the round trips of the
encoding rest on (R71).
-/

namespace Sys2Proof

theorem makeWord_toNat (op : Opcode) (sel : Sel) (idx : Index) (data : Count) :
    (makeWord op sel idx data).toNat =
      op.toNat * 2 ^ 56 + sel.toNat * 2 ^ 48 + idx.toNat * 2 ^ 32 + data.toNat := by
  have h1 := op.isLt; have h2 := sel.isLt; have h3 := idx.isLt; have h4 := data.isLt
  simp only [makeWord, BitVec.toNat_append, Nat.shiftLeft_eq]
  rw [← Nat.shiftLeft_eq, ← Nat.shiftLeft_add_eq_or_of_lt (by simpa using data.isLt),
    ← Nat.shiftLeft_eq, ← Nat.shiftLeft_add_eq_or_of_lt (by simpa using idx.isLt),
    ← Nat.shiftLeft_eq, ← Nat.shiftLeft_add_eq_or_of_lt (by simp),
    ← Nat.shiftLeft_eq, ← Nat.shiftLeft_add_eq_or_of_lt (by simpa using sel.isLt)]
  have h0 : (0 : BitVec 6).toNat = 0 := rfl
  simp only [Nat.shiftLeft_eq, h0]
  omega

@[simp] theorem opField_makeWord (op : Opcode) (sel : Sel) (idx : Index) (data : Count) :
    opField (makeWord op sel idx data) = op := by
  have h1 := op.isLt; have h2 := sel.isLt; have h3 := idx.isLt; have h4 := data.isLt
  apply BitVec.eq_of_toNat_eq
  simp only [opField, BitVec.extractLsb'_toNat, makeWord_toNat, Nat.shiftRight_eq_div_pow]
  omega

@[simp] theorem selField_makeWord (op : Opcode) (sel : Sel) (idx : Index) (data : Count) :
    selField (makeWord op sel idx data) = sel := by
  have h1 := op.isLt; have h2 := sel.isLt; have h3 := idx.isLt; have h4 := data.isLt
  apply BitVec.eq_of_toNat_eq
  simp only [selField, BitVec.extractLsb'_toNat, makeWord_toNat, Nat.shiftRight_eq_div_pow]
  omega

@[simp] theorem rsvField_makeWord (op : Opcode) (sel : Sel) (idx : Index) (data : Count) :
    rsvField (makeWord op sel idx data) = 0 := by
  have h1 := op.isLt; have h2 := sel.isLt; have h3 := idx.isLt; have h4 := data.isLt
  apply BitVec.eq_of_toNat_eq
  simp only [rsvField, BitVec.extractLsb'_toNat, makeWord_toNat, Nat.shiftRight_eq_div_pow]
  simp
  omega

@[simp] theorem idxField_makeWord (op : Opcode) (sel : Sel) (idx : Index) (data : Count) :
    idxField (makeWord op sel idx data) = idx := by
  have h1 := op.isLt; have h2 := sel.isLt; have h3 := idx.isLt; have h4 := data.isLt
  apply BitVec.eq_of_toNat_eq
  simp only [idxField, BitVec.extractLsb'_toNat, makeWord_toNat, Nat.shiftRight_eq_div_pow]
  omega

@[simp] theorem dataField_makeWord (op : Opcode) (sel : Sel) (idx : Index) (data : Count) :
    dataField (makeWord op sel idx data) = data := by
  have h1 := op.isLt; have h2 := sel.isLt; have h3 := idx.isLt; have h4 := data.isLt
  apply BitVec.eq_of_toNat_eq
  simp only [dataField, BitVec.extractLsb'_toNat, makeWord_toNat, Nat.shiftRight_eq_div_pow]
  omega

/-- A word with `rsv = 0` is the word of its own fields. -/
theorem makeWord_fields (w : Word) (h : rsvField w = 0) :
    makeWord (opField w) (selField w) (idxField w) (dataField w) = w := by
  have hr : (rsvField w).toNat = 0 := by rw [h]; rfl
  have hw := w.isLt
  apply BitVec.eq_of_toNat_eq
  simp only [makeWord_toNat, opField, selField, idxField, dataField, rsvField, BitVec.extractLsb'_toNat,
    Nat.shiftRight_eq_div_pow] at hr ⊢
  omega

/-- One row of a chain of tests: the row that is taken, or the rest of the chain. -/
theorem row_or_rest {c : Prop} [Decidable c] {i j : Instr} {rest : Option Instr}
    (h : (if c then some i else rest) = some j) : (c ∧ i = j) ∨ rest = some j := by
  split at h
  · next hc => exact .inl ⟨hc, Option.some.inj h⟩
  · exact .inr h

/-- A command has the opcode by which `instrOfFields` names it. -/
theorem op_of_instrOfFields {op : Opcode} {sel : Sel} {idx : Index} {data : Count} {i : Instr}
    (h : instrOfFields op sel idx data = some i) : i.op = op := by
  unfold instrOfFields at h
  iterate 16
    rcases row_or_rest h with ⟨hop, rfl⟩ | h
    · exact hop.symm
  exact absurd h (by simp)

/-- `instrOfFields` recovers every command from its own fields. -/
theorem instrOfFields_self (i : Instr) : instrOfFields i.op i.sel i.idx i.data = some i := by
  cases i <;> rfl

/-- What a successful decoding says of the word. -/
theorem decode_ok {w : Word} {i : Instr} (h : decode w = .ok i) :
    instrOfFields (opField w) (selField w) (idxField w) (dataField w) = some i ∧ rsvField w = 0 ∧
      selField w = i.sel ∧ idxField w = i.idx ∧ dataField w = i.data ∧ i.wellFormed = true := by
  unfold decode at h
  split at h
  · simp at h
  · next j hj =>
    split at h
    · simp at h
    · next hr =>
      split at h
      · simp at h
      · next hu =>
        split at h
        · next hwf =>
          simp only [Except.ok.injEq] at h
          subst h
          push Not at hr hu
          exact ⟨hj, hr, hu.1, hu.2.1, hu.2.2, hwf⟩
        · simp at h

theorem op_of_decode {w : Word} {i : Instr} (h : decode w = .ok i) : i.op = opField w :=
  op_of_instrOfFields (decode_ok h).1

end Sys2Proof
end

