-- ==== Sys2Proof/Laws/Decoder.lean ====
section
/-!
SUPPORT. The decoder in a complete tree: what one bit does, that DECODE completes and keeps the invariant, and that a path
from the decoder's position to a leaf is decoded as that leaf (R141, R142).
-/

namespace Sys2Proof.Machine

/-- The link the decoder follows on bit `b`, as a 10-bit index. -/
def State.linkOf (s : State) (n : Nat) (b : Bool) : Index := if b then (s.nodeAt n).one else (s.nodeAt n).zero

theorem linkOf_toNat (s : State) (n : Nat) (b : Bool) : (s.linkOf n b).toNat = s.childOf n b := by
  cases b <;> rfl

section Walk

variable {s : State} (h : s.Inv) (ht : s.hasTree) (hd : s.dt = false)
include h ht hd

theorem cur_inner : 257 ≤ s.cur.toNat ∧ (s.nodeAt s.cur.toNat).nv = true :=
  ⟨(h.tree ht).walking hd, (h.tree ht).cur⟩

theorem child_valid (b : Bool) : (s.nodeAt (s.childOf s.cur.toNat b)).nv = true ∧ s.childOf s.cur.toNat b < 513 := by
  obtain ⟨h1, h2⟩ := cur_inner h ht hd
  have h3 := (childOf_valid (h.nodes (hasTree_ne_table ht)) h1 h2 b).1
  exact ⟨h3, lt_of_valid h.wf h3⟩

theorem walk_eq (b : Bool) : s.walk b =
    (let x := s.nodeAt (s.childOf s.cur.toNat b)
     if x.isLeaf then
       if x.sym = Config.eosSymbol then .ok ({ s with cur := s.linkOf s.cur.toNat b, dt := true }, .ended)
       else .ok ({ s.writeByte (x.sym.setWidth 8) with cur := s.root }, .emitted (x.sym.setWidth 8))
     else .ok ({ s with cur := s.linkOf s.cur.toNat b }, .moved)) := by
  obtain ⟨_, h2⟩ := cur_inner h ht hd
  have h3 := (child_valid h ht hd b).2
  rw [← linkOf_toNat] at h3 ⊢
  simp only [State.walk, node?_of_lt s (lt_of_valid h.wf h2)]
  have hl : (if b = true then (s.nodeAt s.cur.toNat).one else (s.nodeAt s.cur.toNat).zero) =
      s.linkOf s.cur.toNat b := rfl
  rw [hl, node?_of_lt s h3]

/-- A bit that leads to an internal node moves the decoder there (R141). -/
theorem walk_moved {b : Bool} (hc : 257 ≤ s.childOf s.cur.toNat b) :
    s.walk b = .ok ({ s with cur := s.linkOf s.cur.toNat b }, .moved) := by
  have hl := isLeaf_of_valid (h.nodes (hasTree_ne_table ht)) (child_valid h ht hd b).1
  rw [decide_eq_false (by omega)] at hl
  rw [walk_eq h ht hd b]
  simp only [hl, Bool.false_eq_true, if_false]

/-- A bit that leads to the end-of-stream leaf puts the decoder in its terminal state (R141). -/
theorem walk_ended {b : Bool} (hc : s.childOf s.cur.toNat b = 256) :
    s.walk b = .ok ({ s with cur := 256, dt := true }, .ended) := by
  have hN := h.nodes (hasTree_ne_table ht)
  have hv := (child_valid h ht hd b).1
  have hl := isLeaf_of_valid hN hv
  rw [decide_eq_true (by omega)] at hl
  have hs := (hN.leaf _ (by omega) hv).1
  have hlink : s.linkOf s.cur.toNat b = 256 := BitVec.eq_of_toNat_eq (by rw [linkOf_toNat, hc]; rfl)
  have heos : (s.nodeAt (s.childOf s.cur.toNat b)).sym = Config.eosSymbol := by rw [hs, hc]; rfl
  rw [walk_eq h ht hd b]
  simp only [hl, if_true, heos, hlink]

/-- A bit that leads to the leaf of a literal byte writes the byte and returns to the root (R141). -/
theorem walk_emitted {b : Bool} (hc : s.childOf s.cur.toNat b < 256) :
    s.walk b = .ok ({ s.writeByte (BitVec.ofNat 8 (s.childOf s.cur.toNat b)) with cur := s.root },
      .emitted (BitVec.ofNat 8 (s.childOf s.cur.toNat b))) := by
  have hN := h.nodes (hasTree_ne_table ht)
  have hv := (child_valid h ht hd b).1
  have hl := isLeaf_of_valid hN hv
  rw [decide_eq_true (by omega)] at hl
  have hs := (hN.leaf _ (by omega) hv).1
  have heos : (s.nodeAt (s.childOf s.cur.toNat b)).sym ≠ Config.eosSymbol := by
    rw [hs]
    intro e
    have := congrArg BitVec.toNat e
    rw [BitVec.toNat_ofNat, show (Config.eosSymbol).toNat = 256 from rfl] at this
    omega
  have hbyte : (s.nodeAt (s.childOf s.cur.toNat b)).sym.setWidth 8 = BitVec.ofNat 8 (s.childOf s.cur.toNat b) := by
    rw [hs]
    apply BitVec.eq_of_toNat_eq
    rw [BitVec.toNat_setWidth, BitVec.toNat_ofNat, BitVec.toNat_ofNat]
    omega
  rw [walk_eq h ht hd b]
  simp only [hl, if_true, heos, if_false, hbyte]

end Walk

/-- Moving the decoder to a valid node keeps the invariant (R41). -/
theorem inv_moved {s t : State} (h : s.Inv) (ht : s.hasTree) (hcur : (s.nodeAt t.cur.toNat).nv = true)
    (hterm : t.dt = true ↔ t.cur = 256) (hwalk : t.dt = false → 257 ≤ t.cur.toNat) (hph : t.ph = s.ph)
    (herr : t.err = s.err) (hecmd : t.ecmd = s.ecmd) (hroot : t.root = s.root) (hqn : t.qn = s.qn)
    (hnint : t.nint = s.nint) (hfreq : t.freq = s.freq) (hnodes : t.nodes = s.nodes) (hcodes : t.codes = s.codes) :
    t.Inv := by
  have hne := hasTree_ne_table ht
  have hT := h.tree ht
  have hnd := nodeAt_congr hnodes
  have hfr := freqAt_congr hfreq
  have hcd := codeAt_congr hcodes
  have hL := h.loaded hne
  have hN := h.nodes hne
  have hchild : ∀ n c, t.isChild n c ↔ s.isChild n c := fun n c => by simp only [State.isChild, hnd]
  exact
    { wf := by
        have := (tablesWf_iff s).1 h.wf
        exact (tablesWf_iff t).2 ⟨hfreq ▸ this.1, hnodes ▸ this.2.1, hcodes ▸ this.2.2⟩
      fault := ⟨by rw [herr]; exact h.fault.errRange, by rw [herr, hecmd]; exact h.fault.ecmdClear⟩
      queue := ⟨by rw [hqn, h.queue.count]; simp only [State.queueSize, hnd], fun i hi => by
        rw [hnd] at hi ⊢; exact h.queue.valid i hi⟩
      table := fun hp => absurd (hph ▸ hp) hne
      loaded := fun _ => ⟨fun i hi => by rw [hnd, hfr]; exact hL.leaves i hi, by rw [hfr]; exact hL.eos,
        fun k hk => by rw [hnd, hnint]; exact hL.inner k hk, by
          rw [hqn, hnint, hL.balance]; simp only [State.numEntries, hfr]⟩
      nodes := fun _ =>
        { leaf := fun i hi hv => by rw [hnd] at hv ⊢; rw [hfr]; exact hN.leaf i hi hv
          inner := fun n hn hv => by rw [hnd] at hv; simp only [hnd]; exact hN.inner n hn hv
          oneParent := fun m n c hm hn => hN.oneParent m n c ((hchild m c).1 hm) ((hchild n c).1 hn)
          queuedNoParent := fun n c hq hc => hN.queuedNoParent n c (by rw [hnd] at hq; exact hq) ((hchild n c).1 hc)
          hasParent := fun c hv hq => by
            rw [hnd] at hv hq
            obtain ⟨n, hn⟩ := hN.hasParent c hv hq
            exact ⟨n, (hchild n c).2 hn⟩
          weight := by
            have := hN.weight
            simp only [State.queueWeight, State.totalCount, hnd, hfr] at this ⊢
            exact this }
      merging := fun hp => by rcases ht with ht | ht <;> rw [hph, ht] at hp <;> exact Phase.noConfusion hp
      tree := fun _ => ⟨hqn.trans hT.qn, by rw [hnd, hroot]; exact hT.root, by rw [hnd]; exact hcur, hterm, hwalk⟩
      codes := fun hp =>
        have hC := h.codes (hph ▸ hp)
        { coded := fun i hi => by rw [hcd, hfr]; exact hC.coded i hi
          length := fun i hi => by rw [hcd] at hi ⊢; exact hC.length i hi
          unused := fun i k hi hk => by rw [hcd] at hi hk ⊢; exact hC.unused i k hi hk
          path := fun i hi => by
            rw [hcd] at hi
            rw [follow_congr hnodes, hroot, hcd]
            exact hC.path i hi }
      noCodes := fun hp i => by rw [hcd]; exact h.noCodes (by rw [← hph]; exact hp) i }

theorem root_inner_of_walking {s : State} (h : s.Inv) (ht : s.hasTree) (hd : s.dt = false) :
    257 ≤ s.root.toNat := by
  have hN := h.nodes (hasTree_ne_table ht)
  obtain ⟨h1, h2⟩ := cur_inner h ht hd
  obtain ⟨p, hp⟩ := reachable h ht h2
  have := (follow_valid hN p (h.queue.valid _ (h.tree ht).root) hp).2
  omega

/-- One decoder step completes and keeps the invariant; it changes the position, `DT` and the byte-out port only
(R141). -/
theorem walk_spec {s : State} (h : s.Inv) (ht : s.hasTree) (hd : s.dt = false) (b : Bool) :
    ∃ t a, s.walk b = .ok (t, a) ∧ t.Inv ∧ t.ph = s.ph ∧
      (∃ c e bo, t = { s with cur := c, dt := e, byteOut := s.byteOut ++ bo } ∧
        bo.length = (match a with | .emitted _ => 1 | _ => 0)) := by
  obtain ⟨h1, h2⟩ := child_valid h ht hd b
  rcases Nat.lt_trichotomy (s.childOf s.cur.toNat b) 256 with hc | hc | hc
  · refine ⟨_, _, walk_emitted h ht hd hc, ?_, rfl, _, _, [_], rfl, rfl⟩
    have hr := root_inner_of_walking h ht hd
    refine inv_moved h ht (h.queue.valid _ (h.tree ht).root) ?_ (fun _ => hr) rfl rfl rfl rfl rfl rfl rfl rfl rfl
    constructor
    · intro e
      exact absurd (hd.symm.trans e) (by decide)
    · intro e
      have := congrArg BitVec.toNat e
      rw [show (256 : BitVec 10).toNat = 256 from rfl] at this
      change s.root.toNat = 256 at this
      omega
  · refine ⟨_, _, walk_ended h ht hd hc, ?_, rfl, 256, true, [], by simp, rfl⟩
    refine inv_moved h ht ?_ ⟨fun _ => rfl, fun _ => rfl⟩ (fun e => Bool.noConfusion e) rfl rfl rfl rfl rfl rfl rfl
      rfl rfl
    rw [hc] at h1
    exact h1
  · refine ⟨_, _, walk_moved h ht hd hc, ?_, rfl, s.linkOf s.cur.toNat b, s.dt, [], by simp, rfl⟩
    have hlt : (s.linkOf s.cur.toNat b).toNat = s.childOf s.cur.toNat b := linkOf_toNat _ _ _
    refine inv_moved h ht ?_ ?_ (fun _ => ?_) rfl rfl rfl rfl rfl rfl rfl rfl rfl
    · change (s.nodeAt (s.linkOf s.cur.toNat b).toNat).nv = true
      rw [hlt]
      exact h1
    · constructor
      · intro e
        exact absurd (hd.symm.trans e) (by decide)
      · intro e
        have := congrArg BitVec.toNat e
        change (s.linkOf s.cur.toNat b).toNat = 256 at this
        omega
    · change 257 ≤ (s.linkOf s.cur.toNat b).toNat
      omega

theorem inv_bitIn {s : State} (h : s.Inv) (l : List Bool) : ({ s with bitIn := l } : State).Inv :=
  inv_of_same h ⟨h.fault.errRange, h.fault.ecmdClear⟩ rfl rfl rfl rfl rfl rfl rfl rfl rfl

/-- DECODE completes and keeps the invariant (R142). -/
theorem decodeLoop_spec (bits : List Bool) : ∀ {s : State} (count : Nat), s.Inv → s.hasTree →
    ∃ t, decodeLoop bits count s = .next t ∧ t.Inv := by
  induction bits with
  | nil =>
    intro s count h ht
    unfold decodeLoop
    split
    · exact ⟨_, rfl, inv_respond h _ _⟩
    · exact ⟨_, rfl, inv_raise h _ _⟩
  | cons b rest ih =>
    intro s count h ht
    unfold decodeLoop
    split
    · exact ⟨_, rfl, inv_respond h _ _⟩
    · next hd =>
      have hd' : s.dt = false := by simpa using hd
      obtain ⟨t, a, hw, hi, hp, _⟩ :=
        walk_spec (s := { s with bitIn := rest }) (inv_bitIn h rest) ht hd' b
      have ht' : t.hasTree := by
        rcases ht with ht | ht
        · exact .inl (hp.trans ht)
        · exact .inr (hp.trans ht)
      simp only [hw]
      cases a with
      | moved => exact ih count hi ht'
      | emitted v => exact ih (count + 1) hi ht'
      | ended => exact ih count hi ht'

theorem decodeLoop_terminal {s : State} (hd : s.dt = true) (bits : List Bool) (count : Nat) :
    decodeLoop bits count s = answer s (BitVec.ofNat 64 count) := by
  unfold decodeLoop
  rw [if_pos hd]

theorem decodeLoop_cons {s : State} (hd : s.dt = false) (b : Bool) (rest : List Bool) (count : Nat) :
    decodeLoop (b :: rest) count s =
      (match { s with bitIn := rest }.walk b with
        | .error f => .fault f
        | .ok (s', .emitted _) => decodeLoop rest (count + 1) s'
        | .ok (s', .moved) => decodeLoop rest count s'
        | .ok (s', .ended) => decodeLoop rest count s') := by
  exact if_neg (by rw [hd]; exact Bool.false_ne_true)

/-- Where the decoder goes when it reads a path that leads from its position to leaf `k`: for `EOS` to the terminal state,
for a literal byte back to the root with the byte written (R140, R141). -/
def State.arrived (s : State) (k : Nat) (rest : List Bool) : State :=
  if k = 256 then { s with bitIn := rest, cur := 256, dt := true }
  else { s with bitIn := rest, cur := s.root, byteOut := s.byteOut ++ [BitVec.ofNat 8 k] }

/-- Decoding a path from the decoder's position to a leaf (R141, R142). -/
theorem decodeLoop_path (l : List Bool) : ∀ {s : State} (count : Nat) (rest : List Bool) {k : Nat}, s.Inv → s.hasTree →
    s.dt = false → k < 257 → s.follow s.cur.toNat l = some k →
    decodeLoop (l ++ rest) count s =
      decodeLoop rest (if k = 256 then count else count + 1) (s.arrived k rest) := by
  induction l with
  | nil =>
    intro s count rest k h ht hd hk hf
    have h1 := (cur_inner h ht hd).1
    have := Option.some.inj hf
    omega
  | cons b l ih =>
    intro s count rest k h ht hd hk hf
    have hN := h.nodes (hasTree_ne_table ht)
    obtain ⟨_, _, hf'⟩ := inner_of_follow hN hf
    have h' : ({ s with bitIn := l ++ rest } : State).Inv := inv_bitIn h _
    have ht' : ({ s with bitIn := l ++ rest } : State).hasTree := ht
    rw [List.cons_append, decodeLoop_cons hd]
    rcases Nat.lt_trichotomy (s.childOf s.cur.toNat b) 256 with hc | hc | hc
    · obtain rfl := follow_leaf hN (by omega) hf'
      have hk' : s.childOf s.cur.toNat b = k := Option.some.inj hf'
      have hw : ({ s with bitIn := [] ++ rest } : State).walk b =
          .ok ({ s with bitIn := [] ++ rest, byteOut := s.byteOut ++ [BitVec.ofNat 8 (s.childOf s.cur.toNat b)],
                        cur := s.root }, .emitted (BitVec.ofNat 8 (s.childOf s.cur.toNat b))) :=
        walk_emitted h' ht' hd hc
      have hne : k ≠ 256 := by omega
      rw [hw, hk']
      simp only [State.arrived, if_neg hne]
      rfl
    · obtain rfl := follow_leaf hN (by omega) hf'
      have hk' : s.childOf s.cur.toNat b = k := Option.some.inj hf'
      have hke : k = 256 := by omega
      have hw : ({ s with bitIn := [] ++ rest } : State).walk b =
          .ok ({ s with bitIn := [] ++ rest, cur := 256, dt := true }, .ended) := walk_ended h' ht' hd hc
      rw [hw]
      simp only [State.arrived, if_pos hke]
      rfl
    · have hw : ({ s with bitIn := l ++ rest } : State).walk b =
          .ok ({ s with bitIn := l ++ rest, cur := s.linkOf s.cur.toNat b }, .moved) := walk_moved h' ht' hd hc
      rw [hw]
      have hlink : (s.linkOf s.cur.toNat b).toNat = s.childOf s.cur.toNat b := linkOf_toNat _ _ _
      obtain ⟨t, a, hw', hi, hp, _⟩ := walk_spec h' ht' hd b
      have he := Except.ok.inj (hw.symm.trans hw')
      have hte := congrArg Prod.fst he
      simp only at hte
      have := ih (s := { s with bitIn := l ++ rest, cur := s.linkOf s.cur.toNat b }) count rest (k := k)
        (by rw [hte]; exact hi) ht hd hk (by
          refine (follow_congr (s := s) (t := { s with bitIn := l ++ rest, cur := s.linkOf s.cur.toNat b }) rfl l
            _).trans ?_
          change s.follow (s.linkOf s.cur.toNat b).toNat l = some k
          rw [hlink]
          exact hf')
      refine Eq.trans this ?_
      unfold State.arrived
      split <;> rfl

end Sys2Proof.Machine
end

