-- ==== Sys2Proof/Laws/Ops.lean ====
section
/-!
SUPPORT. The front end of R77, once: what it answers in each of its four cases, and that a command that answers a next
state is in one of them.
-/

namespace Sys2Proof.Machine

/-- The exempt commands of R171, as a list and as the front end's test. -/
theorem exempt_iff (op : Opcode) : exemptOp op = true ↔ op ∈ exemptOpcodes := by
  simp [exemptOp, exemptOpcodes, or_assoc]

/-- The phases of R74, as a list and as the front end's test. -/
theorem legalPhase_iff (i : Instr) (p : Phase) : legalPhase i p = true ↔ p ∈ phasesOf i.op := by
  cases i <;> cases p <;> simp [legalPhase, phasesOf, Instr.op]

/-- A first fault is recorded with its code and the command word (R170). -/
theorem raise_first {s : State} (he : s.err = 0) (f : FaultCode) (cmd : Word) :
    s.raise f cmd = { s with err := f.errBits, ecmd := cmd, rspOut := s.rspOut ++ [⟨.fault f, 0⟩] } := by
  rw [State.raise, recordFault_of_clear he]; rfl

/-- A later fault is answered and not recorded (R170). -/
theorem raise_later {s : State} (he : s.err ≠ 0) (f : FaultCode) (cmd : Word) :
    s.raise f cmd = { s with rspOut := s.rspOut ++ [⟨.fault f, 0⟩] } := by
  rw [State.raise, recordFault_of_faulted he]; rfl

section FrontEnd

variable {op : Opcode} {cmd : Word} {legal inPhase : Bool} {rule : State → Result} {s t : State}

/-- A faulted HFE refuses what is not exempt (R171). -/
theorem frontEnd_halted (he : s.err ≠ 0) (hx : exemptOp op = false) :
    frontEnd op cmd legal inPhase rule s = .next s.halt := by
  have : s.faulted = true := bne_iff_ne.2 he
  rw [frontEnd, if_pos (by rw [this, hx]; rfl)]

theorem not_refused (he : s.err = 0 ∨ exemptOp op = true) : ¬ (s.faulted && !exemptOp op) = true := by
  rcases he with he | he <;> simp [State.faulted, he]

/-- An illegal word raises `E_ILLEGAL` (R75). -/
theorem frontEnd_illegal (he : s.err = 0 ∨ exemptOp op = true) (hl : legal = false) :
    frontEnd op cmd legal inPhase rule s = .next (s.raise .illegal cmd) := by
  rw [frontEnd, if_neg (not_refused he), if_pos (by simp [hl])]

/-- A command in the wrong phase raises `E_SEQ` (R74). -/
theorem frontEnd_seq (he : s.err = 0 ∨ exemptOp op = true) (hl : legal = true) (hp : inPhase = false) :
    frontEnd op cmd legal inPhase rule s = .next (s.raise .seq cmd) := by
  rw [frontEnd, if_neg (not_refused he), if_neg (by simp [hl]), if_pos (by simp [hp])]

/-- What passes the three checks runs its own rule (R77). -/
theorem frontEnd_run (he : s.err = 0 ∨ exemptOp op = true) (hl : legal = true) (hp : inPhase = true) :
    frontEnd op cmd legal inPhase rule s = rule s := by
  rw [frontEnd, if_neg (not_refused he), if_neg (by simp [hl]), if_neg (by simp [hp])]

/-- Everything the front end can answer. -/
theorem frontEnd_cases (op : Opcode) (cmd : Word) (legal inPhase : Bool) (rule : State → Result) (s : State) :
    (s.err ≠ 0 ∧ exemptOp op = false ∧ frontEnd op cmd legal inPhase rule s = .next s.halt) ∨
    ((s.err = 0 ∨ exemptOp op = true) ∧ legal = false ∧
      frontEnd op cmd legal inPhase rule s = .next (s.raise .illegal cmd)) ∨
    ((s.err = 0 ∨ exemptOp op = true) ∧ legal = true ∧ inPhase = false ∧
      frontEnd op cmd legal inPhase rule s = .next (s.raise .seq cmd)) ∨
    ((s.err = 0 ∨ exemptOp op = true) ∧ legal = true ∧ inPhase = true ∧
      frontEnd op cmd legal inPhase rule s = rule s) := by
  by_cases hh : s.err ≠ 0 ∧ exemptOp op = false
  · exact .inl ⟨hh.1, hh.2, frontEnd_halted hh.1 hh.2⟩
  · have he : s.err = 0 ∨ exemptOp op = true := by
      by_contra hc
      push Not at hc
      exact hh ⟨hc.1, by simpa using hc.2⟩
    cases hl : legal
    · exact .inr (.inl ⟨he, rfl, frontEnd_illegal he rfl⟩)
    · cases hp : inPhase
      · exact .inr (.inr (.inl ⟨he, rfl, rfl, frontEnd_seq he rfl rfl⟩))
      · exact .inr (.inr (.inr ⟨he, rfl, rfl, frontEnd_run he rfl rfl⟩))

end FrontEnd

/-- What the front end makes of an illegal word (R75, R171). -/
theorem illegalWord_cases (w : Word) (s : State) :
    (s.err ≠ 0 ∧ opField w ∉ exemptOpcodes ∧ illegalWord w s = .next s.halt) ∨
    ((s.err = 0 ∨ opField w ∈ exemptOpcodes) ∧ illegalWord w s = .next (s.raise .illegal w)) := by
  rw [← exempt_iff]
  rcases frontEnd_cases (opField w) w false true (answer · 0) s with
    ⟨h1, h2, e⟩ | ⟨h1, _, e⟩ | ⟨_, h2, _⟩ | ⟨_, h2, _⟩
  · exact .inl ⟨h1, by rw [h2]; exact Bool.false_ne_true, e⟩
  · exact .inr ⟨h1, e⟩
  · exact absurd h2 Bool.false_ne_true
  · exact absurd h2 Bool.false_ne_true

/-- A well-formed command that is not refused, in a phase it is legal in, runs its own rule (R77). -/
theorem command_run {i : Instr} {rule : State → Result} {s : State} (he : s.err = 0 ∨ exemptOp i.op = true)
    (hw : i.wellFormed = true) (hp : legalPhase i s.ph = true) : command i rule s = rule s :=
  frontEnd_run he hw hp

/-- Everything that can have happened when a command answered a next state. -/
theorem command_next {i : Instr} {rule : State → Result} {s t : State} (h : command i rule s = .next t) :
    (s.err ≠ 0 ∧ exemptOp i.op = false ∧ t = s.halt) ∨
    ((s.err = 0 ∨ exemptOp i.op = true) ∧ i.wellFormed = false ∧ t = s.raise .illegal (encode i)) ∨
    ((s.err = 0 ∨ exemptOp i.op = true) ∧ i.wellFormed = true ∧ legalPhase i s.ph = false ∧
      t = s.raise .seq (encode i)) ∨
    ((s.err = 0 ∨ exemptOp i.op = true) ∧ i.wellFormed = true ∧ legalPhase i s.ph = true ∧ rule s = .next t) := by
  unfold command at h
  rcases frontEnd_cases i.op (encode i) i.wellFormed (legalPhase i s.ph) rule s with
    ⟨h1, h2, e⟩ | ⟨h1, h2, e⟩ | ⟨h1, h2, h3, e⟩ | ⟨h1, h2, h3, e⟩ <;> rw [e] at h
  · exact .inl ⟨h1, h2, (next_inj.1 h).symm⟩
  · exact .inr (.inl ⟨h1, h2, (next_inj.1 h).symm⟩)
  · exact .inr (.inr (.inl ⟨h1, h2, h3, (next_inj.1 h).symm⟩))
  · exact .inr (.inr (.inr ⟨h1, h2, h3, h⟩))

/-- The front end answers a next state that meets the invariant if the command's own rule does. -/
theorem command_spec {i : Instr} {rule : State → Result} {s : State} (h : s.Inv)
    (hr : legalPhase i s.ph = true → i.wellFormed = true → ∃ t, rule s = .next t ∧ t.Inv) :
    ∃ t, command i rule s = .next t ∧ t.Inv := by
  unfold command
  rcases frontEnd_cases i.op (encode i) i.wellFormed (legalPhase i s.ph) rule s with
    ⟨_, _, e⟩ | ⟨_, _, e⟩ | ⟨_, _, _, e⟩ | ⟨_, hl, hp, e⟩
  · exact ⟨_, e, inv_halt h⟩
  · exact ⟨_, e, inv_raise h _ _⟩
  · exact ⟨_, e, inv_raise h _ _⟩
  · exact e ▸ hr hp hl

end Sys2Proof.Machine
end

