-- ==== Sys2Proof/Laws/Effects.lean ====
section
/-!
SUPPORT. Everything a shared operation can do, in any state, whether or not it meets the invariant: one lemma per
operation, of the form "if it answers a next state, then one of these cases holds".
-/

namespace Sys2Proof.Machine

/-- The counting commands (R90, R91). -/
theorem countUp_next {i : Nat} {cmd : Word} {s t : State} (h : countUp i cmd s = .next t) :
    (s.freqAt i = Config.maxCount ∧ t = s.raise .cntOvf cmd) ∨
    (s.freqAt i ≠ Config.maxCount ∧
      t = (s.setFreq i (s.freqAt i + 1)).respond .ok ((s.freqAt i + 1).setWidth 64)) := by
  unfold countUp at h
  split at h
  · next hc => exact .inl ⟨hc, (next_inj.1 h).symm⟩
  · next hc => exact .inr ⟨hc, (next_inj.1 h).symm⟩

/-- Writing a code (R131, R132). -/
theorem writeCode_next {c : CodeEntry} {s t : State} (h : writeCode c s = .next t) :
    c.clen.toNat ≤ 256 ∧ t = (s.writeBits c.bits).respond .ok (c.clen.setWidth 64) := by
  unfold writeCode at h
  split at h
  · next hc => exact ⟨hc, (next_inj.1 h).symm⟩
  · exact absurd h (fault_ne_next _ _)

/-! ## The tree builder -/

/-- A MERGE that completes joins the two removed entries into a free slot (R103). -/
theorem mergeOnce_ok {s t : State} (h : s.mergeOnce = .ok t) :
    ∃ a b, s.Removed a b ∧ s.nint.toNat < 256 ∧ s.qn ≠ 0 ∧ t = s.joined a b := by
  cases h1 : s.qmin with
  | none => simp only [State.mergeOnce, h1] at h; cases h
  | some a =>
    cases h2 : (s.dequeue a).qmin with
    | none => simp only [State.mergeOnce, h1, h2] at h; cases h
    | some b =>
      obtain ⟨ha, haq, _⟩ := qmin_some h1
      obtain ⟨hb, hbq, _⟩ := qmin_some h2
      have hne : a ≠ b := by
        intro e
        rw [← e, nodeAt_dequeue, if_pos rfl] at hbq
        exact Bool.noConfusion hbq
      rw [nodeAt_dequeue, if_neg hne.symm] at hbq
      rw [mergeOnce_of_removed h1 h2, State.join] at h
      split at h
      · cases h
      · next hslot =>
        split at h
        · cases h
        · next hfit =>
          push Not at hfit
          refine ⟨a, b, ⟨h1, h2, hne, ha, hb, haq, hbq⟩, ?_, hfit.2, ?_⟩
          · change ¬ 513 ≤ 257 + s.nint.toNat at hslot
            omega
          · have hA : (((s.dequeue a).dequeue b).nodeAt a).w = (s.nodeAt a).w := by
              rw [nodeAt_dequeue, if_neg hne, nodeAt_dequeue, if_pos rfl]
            have hB : (((s.dequeue a).dequeue b).nodeAt b).w = (s.nodeAt b).w := by
              rw [nodeAt_dequeue, if_pos rfl, nodeAt_dequeue, if_neg hne.symm]
            have := Except.ok.inj h
            rw [hA, hB] at this
            exact this.symm

/-- BUILD's loop ends outside phase 1, and changes the tree builder's elements only (R104). -/
theorem mergeAll_ok (free : Nat) : ∀ {s t : State}, State.mergeAll free s = .ok t →
    (s.ph = .merging → 256 - s.nint.toNat ≤ free) →
    s.SameButTree t ∧ t.ph ≠ .merging ∧ (s.ph ≠ .merging → t = s) ∧ (s.ph = .merging → t.ph = .tree) := by
  induction free with
  | zero =>
    intro s t h hfree
    by_cases hph : s.ph = .merging
    · simp only [State.mergeAll, hph, if_true] at h
      obtain ⟨a, b, _, hn, _⟩ := mergeOnce_ok h
      have := hfree hph
      omega
    · simp only [State.mergeAll, hph, if_false] at h
      obtain rfl := Except.ok.inj h
      exact ⟨sameButTree_refl s, hph, fun _ => rfl, fun hm => absurd hm hph⟩
  | succ free ih =>
    intro s t h hfree
    by_cases hph : s.ph = .merging
    · simp only [State.mergeAll, hph, if_true] at h
      split at h
      · cases h
      · next u hu =>
        obtain ⟨a, b, _, hn, _, rfl⟩ := mergeOnce_ok hu
        have hnint : (s.joined a b).nint.toNat = s.nint.toNat + 1 := by
          rw [(joined_same s a b).2.2.2.2.2.1, BitVec.toNat_add, show (1 : BitVec 9).toNat = 1 from rfl]
          omega
        obtain ⟨h1, h2, h3, h4⟩ := ih h (fun _ => by have := hfree hph; omega)
        refine ⟨sameButTree_trans (sameButTree_joined s a b) h1, h2, fun hm => absurd hph hm, fun _ => ?_⟩
        rcases joined_ph hph a b with hj | hj
        · exact h4 hj
        · rw [h3 (by rw [hj]; exact fun e => Phase.noConfusion e)]
          exact hj
    · simp only [State.mergeAll, hph, if_false] at h
      obtain rfl := Except.ok.inj h
      exact ⟨sameButTree_refl s, hph, fun _ => rfl, fun hm => absurd hm hph⟩

/-- BUILD's last part (R104). -/
theorem finishBuild_next {s t : State} (h : finishBuild s = .next t) :
    ∃ u, State.mergeAll (256 - s.nint.toNat) s = .ok u ∧ t = u.respond .ok (u.root.setWidth 64) ∧ s.SameButTree u ∧
      u.ph ≠ .merging ∧ (s.ph ≠ .merging → u = s) ∧ (s.ph = .merging → u.ph = .tree) := by
  unfold finishBuild at h
  split at h
  · exact absurd h (fault_ne_next _ _)
  · next u hu => exact ⟨u, hu, (next_inj.1 h).symm, mergeAll_ok _ hu (fun _ => Nat.le_refl _)⟩

/-! ## The decoder -/

/-- The number of bytes a decoder step wrote (R141). -/
def Arrival.numBytes : Arrival → Nat
  | .moved => 0
  | .emitted _ => 1
  | .ended => 0

/-- One decoder step that completes changes the position, `DT` and the byte-out port only (R141). -/
theorem walk_ok {s t : State} {b : Bool} {a : Arrival} (h : s.walk b = .ok (t, a)) :
    ∃ c e bytes, t = { s with cur := c, dt := e, byteOut := s.byteOut ++ bytes } ∧
      ((a = .moved ∧ bytes = [] ∧ e = s.dt) ∨ (a = .ended ∧ bytes = [] ∧ e = true) ∨
        ∃ v, a = .emitted v ∧ bytes = [v] ∧ e = s.dt) := by
  unfold State.walk at h
  split at h
  · cases h
  · next here _ =>
    dsimp only at h
    generalize (if b = true then here.one else here.zero) = n at h
    split at h
    · cases h
    · next x _ =>
      split at h
      · split at h
        · obtain ⟨rfl, rfl⟩ := Prod.mk.inj (Except.ok.inj h)
          exact ⟨n, true, [], by simp, .inr (.inl ⟨rfl, rfl, rfl⟩)⟩
        · obtain ⟨rfl, rfl⟩ := Prod.mk.inj (Except.ok.inj h)
          exact ⟨s.root, s.dt, [x.sym.setWidth 8], rfl, .inr (.inr ⟨_, rfl, rfl, rfl⟩)⟩
      · obtain ⟨rfl, rfl⟩ := Prod.mk.inj (Except.ok.inj h)
        exact ⟨n, s.dt, [], by simp, .inl ⟨rfl, rfl, rfl⟩⟩

/-- DECODE's loop, when it completes, has read a first part of the bits and written bytes; it ends in the terminal state,
or with no bit left and `E_TRUNC` (R142). -/
theorem decodeLoop_next (bits : List Bool) : ∀ {s t : State} {count : Nat}, s.bitIn = bits →
    decodeLoop bits count s = .next t →
    ∃ used rest bytes c e, bits = used ++ rest ∧ bytes.length ≤ used.length ∧
      ((e = true ∧ t = ({ s with bitIn := rest, byteOut := s.byteOut ++ bytes, cur := c, dt := e } : State).respond .ok
          (BitVec.ofNat 64 (count + bytes.length))) ∨
       (e = false ∧ s.dt = false ∧ rest = [] ∧
          t = ({ s with bitIn := rest, byteOut := s.byteOut ++ bytes, cur := c, dt := e } : State).raise .trunc
            (encode .decode))) := by
  induction bits with
  | nil =>
    intro s t count hb h
    unfold decodeLoop at h
    split at h
    · next hd =>
      refine ⟨[], [], [], s.cur, true, rfl, Nat.le_refl _, .inl ⟨rfl, ?_⟩⟩
      have := (next_inj.1 h).symm
      simp only [List.append_nil, List.length_nil, Nat.add_zero]
      rw [this, ← hb, ← hd]
    · next hd =>
      have hd' : s.dt = false := by simpa using hd
      refine ⟨[], [], [], s.cur, false, rfl, Nat.le_refl _, .inr ⟨rfl, hd', rfl, ?_⟩⟩
      have := (next_inj.1 h).symm
      simp only [List.append_nil]
      rw [this, ← hb, ← hd']
  | cons b rest ih =>
    intro s t count hb h
    unfold decodeLoop at h
    split at h
    · next hd =>
      refine ⟨[], b :: rest, [], s.cur, true, rfl, Nat.le_refl _, .inl ⟨rfl, ?_⟩⟩
      have := (next_inj.1 h).symm
      simp only [List.append_nil, List.length_nil, Nat.add_zero]
      rw [this, ← hb, ← hd]
    · next hd =>
      have hd' : s.dt = false := by simpa using hd
      have main : ∀ {u : State} {a : Arrival} {n : Nat}, ({ s with bitIn := rest } : State).walk b = .ok (u, a) →
          n = count + a.numBytes → decodeLoop rest n u = .next t →
          ∃ used rest' bytes c e, b :: rest = used ++ rest' ∧ bytes.length ≤ used.length ∧
            ((e = true ∧ t = ({ s with bitIn := rest', byteOut := s.byteOut ++ bytes, cur := c, dt := e } :
                State).respond .ok (BitVec.ofNat 64 (count + bytes.length))) ∨
             (e = false ∧ s.dt = false ∧ rest' = [] ∧
                t = ({ s with bitIn := rest', byteOut := s.byteOut ++ bytes, cur := c, dt := e } :
                  State).raise .trunc (encode .decode))) := by
        intro u a n hw hn hu
        obtain ⟨c, e, ys, rfl, ha⟩ := walk_ok hw
        obtain ⟨used, rest', bytes, c', e', h1, h2, h3⟩ := ih rfl hu
        have hlen : ys.length = a.numBytes := by
          rcases ha with ⟨rfl, rfl, _⟩ | ⟨rfl, rfl, _⟩ | ⟨v, rfl, rfl, _⟩ <;> rfl
        have hle : ys.length ≤ 1 := by rw [hlen]; cases a <;> simp [Arrival.numBytes]
        refine ⟨b :: used, rest', ys ++ bytes, c', e', by rw [h1]; rfl, by
          rw [List.length_append, List.length_cons]; omega, ?_⟩
        have hys : s.byteOut ++ (ys ++ bytes) = (s.byteOut ++ ys) ++ bytes := (List.append_assoc _ _ _).symm
        have hnum : n + bytes.length = count + (ys ++ bytes).length := by
          rw [hn, List.length_append, hlen, Nat.add_assoc]
        rcases h3 with ⟨he, ht⟩ | ⟨he, _, hr, ht⟩
        · refine .inl ⟨he, ?_⟩
          rw [ht, hys, hnum]
        · refine .inr ⟨he, hd', hr, ?_⟩
          rw [ht, hys]
      dsimp only at h
      split at h
      · exact absurd h (fault_ne_next _ _)
      · next hw => exact main hw rfl h
      · next hw => exact main hw rfl h
      · next hw => exact main hw rfl h

/-- DERIVE's walk keeps a code table in canonical form (R121). -/
theorem deriveFrom_wf {s : State} (room : Nat) : ∀ {n len : Nat} {bits : CodeBits} {acc acc' : Table CodeEntry × Nat},
    tableWf CodeEntry.empty 257 acc.1 = true → s.deriveFrom room n len bits acc = .ok acc' →
    tableWf CodeEntry.empty 257 acc'.1 = true := by
  have leaf : ∀ {sym : Symbol} {len : Nat} {bits : CodeBits} {acc acc' : Table CodeEntry × Nat},
      tableWf CodeEntry.empty 257 acc.1 = true → recordCode sym len bits acc = .ok acc' →
      tableWf CodeEntry.empty 257 acc'.1 = true := by
    intro sym len bits acc acc' hw h
    unfold recordCode at h
    split at h
    · obtain rfl := Except.ok.inj h
      exact tableWf_set CodeEntry.empty 257 acc.1 ⟨true, BitVec.ofNat 9 len, bits⟩
        (show sym.toNat < 257 by omega) hw
    · cases h
  induction room with
  | zero =>
    intro n len bits acc acc' hw h
    unfold State.deriveFrom at h
    split at h
    · cases h
    · split at h
      · exact leaf hw h
      · cases h
  | succ room ih =>
    intro n len bits acc acc' hw h
    unfold State.deriveFrom at h
    split at h
    · cases h
    · split at h
      · exact leaf hw h
      · split at h
        · cases h
        · next acc1 h1 => exact ih (ih hw h1) h

end Sys2Proof.Machine
end

