-- ==== Sys2Proof/Laws/Exec.lean ====
section
/-!
SUPPORT. Each command, once: what it runs when it has passed the front end, and that from a state that meets the
invariant it answers a next state that meets it.
-/

namespace Sys2Proof.Machine

/-! ## What a command runs once it has passed the front end (R74, R77) -/

section Run

variable {s : State}

theorem execReset_run (s : State) : execReset s = answer s.release 0 := command_run (i := .reset) (.inr rfl) rfl rfl

theorem execRdst_run (s : State) {sel : Sel} (hs : sel.toNat ≤ 1) :
    execRdst sel s = answer s (if sel = 0 then s.status else s.ecmd) :=
  command_run (i := .rdst sel) (.inr rfl) (decide_eq_true hs) rfl

theorem execCnt_run {b : Index} (he : s.err = 0) (hp : s.ph = .table) (hb : b.toNat ≤ 255) :
    execCnt b s = countUp b.toNat (encode (.cnt b)) s :=
  command_run (i := .cnt b) (.inl he) (decide_eq_true hb) (beq_iff_eq.2 hp)

theorem execCeos_run (he : s.err = 0) (hp : s.ph = .table) : execCeos s = countUp 256 (encode .ceos) s :=
  command_run (i := .ceos) (.inl he) rfl (beq_iff_eq.2 hp)

theorem execLdf_run {sym : Index} (n : Count) (he : s.err = 0) (hp : s.ph = .table) (hs : sym.toNat ≤ 256) :
    execLdf sym n s = answer (s.setFreq sym.toNat n) 0 :=
  command_run (i := .ldf sym n) (.inl he) (decide_eq_true hs) (beq_iff_eq.2 hp)

theorem execRdf_run (s : State) {sym : Index} (hs : sym.toNat ≤ 256) :
    execRdf sym s = answer s ((s.freqAt sym.toNat).setWidth 64) :=
  command_run (i := .rdf sym) (.inr rfl) (decide_eq_true hs) rfl

theorem execQload_run {t : State} (he : s.err = 0) (hp : s.ph = .table) (hl : s.loadQueue = some t) :
    execQload s = answer t (t.qn.setWidth 64) := by
  refine (command_run (i := .qload) (.inl he) rfl (beq_iff_eq.2 hp)).trans ?_
  simp only [hl]

theorem execQload_malformed (he : s.err = 0) (hp : s.ph = .table) (hl : s.loadQueue = none) :
    execQload s = .next (s.raise .malformed (encode .qload)) := by
  refine (command_run (i := .qload) (.inl he) rfl (beq_iff_eq.2 hp)).trans ?_
  simp only [hl]

theorem execMerge_run {t : State} (he : s.err = 0) (hp : s.ph = .merging) (hm : s.mergeOnce = .ok t) :
    execMerge s = answer t (BitVec.ofNat 64 (257 + s.nint.toNat)) := by
  refine (command_run (i := .merge) (.inl he) rfl (beq_iff_eq.2 hp)).trans ?_
  simp only [hm]

theorem execBuild_run {t : State} (he : s.err = 0) (hp : s.ph = .table) (hl : s.loadQueue = some t) :
    execBuild s = finishBuild t := by
  refine (command_run (i := .build) (.inl he) rfl (Bool.or_eq_true_iff.2 (.inl (beq_iff_eq.2 hp)))).trans ?_
  simp only [hp, if_true, hl]

theorem execBuild_malformed (he : s.err = 0) (hp : s.ph = .table) (hl : s.loadQueue = none) :
    execBuild s = .next (s.raise .malformed (encode .build)) := by
  refine (command_run (i := .build) (.inl he) rfl (Bool.or_eq_true_iff.2 (.inl (beq_iff_eq.2 hp)))).trans ?_
  simp only [hp, if_true, hl]

theorem execBuild_merging (he : s.err = 0) (hp : s.ph = .merging) : execBuild s = finishBuild s := by
  refine (command_run (i := .build) (.inl he) rfl (Bool.or_eq_true_iff.2 (.inr (beq_iff_eq.2 hp)))).trans ?_
  exact if_neg (by rw [hp]; exact fun e => Phase.noConfusion e)

theorem execRdn_run (s : State) {node : Index} {sel : Sel} (hn : node.toNat ≤ 512) (hs : sel.toNat ≤ 2) :
    execRdn node sel s = answer s (rdnData (s.nodeAt node.toNat) sel) :=
  command_run (i := .rdn node sel) (.inr rfl) (Bool.and_eq_true_iff.2 ⟨decide_eq_true hn, decide_eq_true hs⟩) rfl

theorem execDerive_run {codes : Table CodeEntry} {count : Nat} (he : s.err = 0) (hp : s.ph = .tree)
    (hd : s.deriveFrom 256 s.root.toNat 0 0 ([], 0) = .ok (codes, count)) :
    execDerive s = answer { s with codes := codes, ph := .coded } (BitVec.ofNat 64 count) := by
  refine (command_run (i := .derive) (.inl he) rfl (beq_iff_eq.2 hp)).trans ?_
  simp only [Config.codeWidth, hd]

theorem execRdc_run (s : State) {sym : Index} {sel : Sel} (hn : sym.toNat ≤ 256) (hs : sel.toNat ≤ 8) :
    execRdc sym sel s = answer s (rdcData (s.codeAt sym.toNat) sel) :=
  command_run (i := .rdc sym sel) (.inr rfl) (Bool.and_eq_true_iff.2 ⟨decide_eq_true hn, decide_eq_true hs⟩) rfl

theorem execEnc_run {b : Index} (he : s.err = 0) (hp : s.ph = .coded) (hb : b.toNat ≤ 255)
    (hc : (s.codeAt b.toNat).cv = true) : execEnc b s = writeCode (s.codeAt b.toNat) s :=
  (command_run (i := .enc b) (.inl he) (decide_eq_true hb) (beq_iff_eq.2 hp)).trans (if_pos hc)

theorem execEnc_noCode {b : Index} (he : s.err = 0) (hp : s.ph = .coded) (hb : b.toNat ≤ 255)
    (hc : (s.codeAt b.toNat).cv = false) : execEnc b s = .next (s.raise .noCode (encode (.enc b))) :=
  (command_run (i := .enc b) (.inl he) (decide_eq_true hb) (beq_iff_eq.2 hp)).trans
    (if_neg (by rw [hc]; exact Bool.false_ne_true))

theorem execEeos_run (he : s.err = 0) (hp : s.ph = .coded) : execEeos s = writeCode (s.codeAt 256) s :=
  command_run (i := .eeos) (.inl he) rfl (beq_iff_eq.2 hp)

theorem legal_of_hasTree (ht : s.hasTree) : (s.ph == .tree || s.ph == .coded) = true := by
  rcases ht with ht | ht <;> rw [ht] <;> rfl

theorem execDstep_terminal (he : s.err = 0) (ht : s.hasTree) (hd : s.dt = true) :
    execDstep s = answer s 0x200 :=
  (command_run (i := .dstep) (.inl he) rfl (legal_of_hasTree ht)).trans (if_pos hd)

theorem execDstep_trunc (he : s.err = 0) (ht : s.hasTree) (hd : s.dt = false) (hb : s.bitIn = []) :
    execDstep s = .next (s.raise .trunc (encode .dstep)) := by
  refine (command_run (i := .dstep) (.inl he) rfl (legal_of_hasTree ht)).trans ?_
  simp only [hd, Bool.false_eq_true, if_false, hb]

theorem execDstep_run {b : Bool} {rest : List Bool} {t : State} {a : Arrival} (he : s.err = 0) (ht : s.hasTree)
    (hd : s.dt = false) (hb : s.bitIn = b :: rest) (hw : { s with bitIn := rest }.walk b = .ok (t, a)) :
    execDstep s = answer t a.data := by
  refine (command_run (i := .dstep) (.inl he) rfl (legal_of_hasTree ht)).trans ?_
  refine (if_neg (by rw [hd]; exact Bool.false_ne_true)).trans ?_
  simp only [hb, hw]

theorem execDecode_run (he : s.err = 0) (ht : s.hasTree) : execDecode s = decodeLoop s.bitIn 0 s :=
  command_run (i := .decode) (.inl he) rfl (legal_of_hasTree ht)

end Run

/-! ## Each command keeps the invariant and completes -/

/-- Writing a count in phase 0 keeps the invariant: no other element depends on the counts yet (R37). -/
theorem inv_setFreq {s : State} (h : s.Inv) (hph : s.ph = .table) {i : Nat} (hi : i < 257) (n : Count) :
    (s.setFreq i n).Inv where
  wf := tablesWf_setFreq n hi h.wf
  fault := ⟨h.fault.errRange, h.fault.ecmdClear⟩
  queue := ⟨h.queue.count, h.queue.valid⟩
  table := fun hp =>
    let k := h.table hp
    ⟨k.noNode, k.root, k.cur, k.dt, k.qn, k.nint⟩
  loaded := fun hp => absurd hph hp
  nodes := fun hp => absurd hph hp
  merging := fun hp => Phase.noConfusion (hph.symm.trans hp)
  tree := fun hp => by rcases hp with hp | hp <;> exact Phase.noConfusion (hph.symm.trans hp)
  codes := fun hp => Phase.noConfusion (hph.symm.trans hp)
  noCodes := h.noCodes

theorem hasTree_of_legal {s : State} (h : (s.ph == .tree || s.ph == .coded) = true) : s.hasTree := by
  rw [Bool.or_eq_true, beq_iff_eq, beq_iff_eq] at h
  exact h

theorem execReset_spec {s : State} (h : s.Inv) : ∃ t, execReset s = .next t ∧ t.Inv :=
  command_spec h fun _ _ => ⟨_, rfl, inv_respond (inv_release s) _ _⟩

theorem execRdst_spec {s : State} (h : s.Inv) (sel : Sel) : ∃ t, execRdst sel s = .next t ∧ t.Inv :=
  command_spec h fun _ _ => ⟨_, rfl, inv_respond h _ _⟩

/-- The counting commands' rule (R90, R91). -/
theorem countUp_spec {s : State} (h : s.Inv) (hph : s.ph = .table) {i : Nat} (hi : i < 257) (cmd : Word) :
    ∃ t, countUp i cmd s = .next t ∧ t.Inv := by
  unfold countUp
  split
  · exact ⟨_, rfl, inv_raise h _ _⟩
  · exact ⟨_, rfl, inv_respond (inv_setFreq h hph hi _) _ _⟩

theorem execCnt_spec {s : State} (h : s.Inv) (b : Index) : ∃ t, execCnt b s = .next t ∧ t.Inv :=
  command_spec h fun hp hw => countUp_spec h (eq_of_beq hp) (by
    have := of_decide_eq_true hw
    omega) _

theorem execCeos_spec {s : State} (h : s.Inv) : ∃ t, execCeos s = .next t ∧ t.Inv :=
  command_spec h fun hp _ => countUp_spec h (eq_of_beq hp) (by decide) _

theorem execLdf_spec {s : State} (h : s.Inv) (sym : Index) (n : Count) : ∃ t, execLdf sym n s = .next t ∧ t.Inv :=
  command_spec h fun hp hw => ⟨_, rfl, inv_respond (inv_setFreq h (eq_of_beq hp) (by
    have := of_decide_eq_true hw
    omega) n) _ _⟩

theorem execRdf_spec {s : State} (h : s.Inv) (sym : Index) : ∃ t, execRdf sym s = .next t ∧ t.Inv :=
  command_spec h fun _ _ => ⟨_, rfl, inv_respond h _ _⟩

theorem execQload_spec {s : State} (h : s.Inv) : ∃ t, execQload s = .next t ∧ t.Inv :=
  command_spec h fun hp _ => by
    cases hl : s.loadQueue with
    | none => exact ⟨_, rfl, inv_raise h _ _⟩
    | some t => exact ⟨_, rfl, inv_respond (loadQueue_inv h (eq_of_beq hp) hl) _ _⟩

theorem execMerge_spec {s : State} (h : s.Inv) : ∃ t, execMerge s = .next t ∧ t.Inv :=
  command_spec h fun hp _ => by
    obtain ⟨a, b, r, hm⟩ := mergeOnce_eq h (eq_of_beq hp)
    simp only [hm]
    exact ⟨_, rfl, inv_respond (mergeOnce_inv h (eq_of_beq hp) r) _ _⟩

theorem execBuild_spec {s : State} (h : s.Inv) : ∃ t, execBuild s = .next t ∧ t.Inv :=
  command_spec h fun hp _ => by
    by_cases hph : s.ph = .table
    · simp only [hph, if_true]
      cases hl : s.loadQueue with
      | none => exact ⟨_, rfl, inv_raise h _ _⟩
      | some u =>
        obtain ⟨t, _, hf, hi, _⟩ := finishBuild_spec (loadQueue_inv h hph hl) (loadQueue_ph hl) (loadQueue_cur hl)
        exact ⟨_, hf, inv_respond hi _ _⟩
    · have hm : s.ph = .merging := by
        have := (Bool.or_eq_true _ _).mp hp
        rw [beq_iff_eq, beq_iff_eq] at this
        exact this.resolve_left hph
      obtain ⟨t, _, hf, hi, _⟩ := finishBuild_spec h (.inl hm) (fun e => Phase.noConfusion (hm.symm.trans e))
      simp only [hph, if_false]
      exact ⟨_, hf, inv_respond hi _ _⟩

theorem execRdn_spec {s : State} (h : s.Inv) (node : Index) (sel : Sel) :
    ∃ t, execRdn node sel s = .next t ∧ t.Inv :=
  command_spec h fun _ _ => ⟨_, rfl, inv_respond h _ _⟩

theorem execDerive_spec {s : State} (h : s.Inv) : ∃ t, execDerive s = .next t ∧ t.Inv :=
  command_spec h fun hp _ => by
    obtain ⟨codes, hd, _⟩ := derive_spec h (.inl (eq_of_beq hp))
    have := derive_inv h (eq_of_beq hp) hd
    simp only [Config.codeWidth, hd]
    exact ⟨_, rfl, inv_respond this _ _⟩

theorem execRdc_spec {s : State} (h : s.Inv) (sym : Index) (sel : Sel) : ∃ t, execRdc sym sel s = .next t ∧ t.Inv :=
  command_spec h fun _ _ => ⟨_, rfl, inv_respond h _ _⟩

theorem inv_writeBits {s : State} (h : s.Inv) (bs : List Bool) : (s.writeBits bs).Inv :=
  inv_of_same h ⟨h.fault.errRange, h.fault.ecmdClear⟩ rfl rfl rfl rfl rfl rfl rfl rfl rfl

/-- A code of the code table is at most 256 bits long (R32). -/
theorem clen_le {s : State} (h : s.Inv) (i : Nat) (hc : (s.codeAt i).cv = true) : (s.codeAt i).clen.toNat ≤ 256 := by
  by_cases hp : s.ph = .coded
  · exact (h.codes hp).length i hc
  · exact absurd hc (by rw [h.noCodes hp i]; exact Bool.false_ne_true)

/-- In phase 3 the end-of-stream symbol has a code (R132). -/
theorem eos_coded {s : State} (h : s.Inv) (hp : s.ph = .coded) : (s.codeAt 256).cv = true :=
  ((h.codes hp).coded 256 (by omega)).2 ((h.loaded (by rw [hp]; exact fun e => Phase.noConfusion e)).eos)

/-- Writing a code (R131, R132). -/
theorem writeCode_spec {s : State} (h : s.Inv) {i : Nat} (hc : (s.codeAt i).cv = true) :
    writeCode (s.codeAt i) s =
      .next ((s.writeBits (s.codeAt i).bits).respond .ok ((s.codeAt i).clen.setWidth 64)) ∧
    ((s.writeBits (s.codeAt i).bits).respond .ok ((s.codeAt i).clen.setWidth 64)).Inv :=
  ⟨by rw [writeCode, if_pos (clen_le h i hc)]; rfl, inv_respond (inv_writeBits h _) _ _⟩

theorem execEnc_spec {s : State} (h : s.Inv) (b : Index) : ∃ t, execEnc b s = .next t ∧ t.Inv :=
  command_spec h fun _ _ => by
    cases hc : (s.codeAt b.toNat).cv with
    | false => exact ⟨_, rfl, inv_raise h _ _⟩
    | true => exact ⟨_, writeCode_spec h hc⟩

theorem execEeos_spec {s : State} (h : s.Inv) : ∃ t, execEeos s = .next t ∧ t.Inv :=
  command_spec h fun hp _ => ⟨_, writeCode_spec h (eos_coded h (eq_of_beq hp))⟩

theorem execDstep_spec {s : State} (h : s.Inv) : ∃ t, execDstep s = .next t ∧ t.Inv :=
  command_spec h fun hp _ => by
    split
    · exact ⟨_, rfl, inv_respond h _ _⟩
    · next hd =>
      split
      · exact ⟨_, rfl, inv_raise h _ _⟩
      · next b rest _ =>
        obtain ⟨t, a, hw, hi, _⟩ := walk_spec (s := { s with bitIn := rest }) (inv_bitIn h rest)
          (hasTree_of_legal hp) (by simpa using hd) b
        simp only [hw]
        exact ⟨_, rfl, inv_respond hi _ _⟩

theorem execDecode_spec {s : State} (h : s.Inv) : ∃ t, execDecode s = .next t ∧ t.Inv :=
  command_spec h fun hp _ => decodeLoop_spec s.bitIn 0 h (hasTree_of_legal hp)

end Sys2Proof.Machine
end

