-- ==== Sys2Proof/Laws/Inversion.lean ====
section
/-!
SUPPORT. What each command can do, in any state: the inversion lemma of `exec`, from which frames and fault rules follow by
cases.
-/

namespace Sys2Proof.Machine

/-- What a command's own rule leaves when it answers `t` (files 40 to 45): for a command with an own fault, the fault or the
completed effect. -/
def OwnEffect (s t : State) : Instr → Prop
  | .reset => t = s.release.respond .ok 0
  | .rdst _ | .rdf _ | .rdn _ _ | .rdc _ _ => ∃ d, t = s.respond .ok d
  | .cnt b => t = s.raise .cntOvf (encode (.cnt b)) ∨ ∃ n d, t = (s.setFreq b.toNat n).respond .ok d
  | .ceos => t = s.raise .cntOvf (encode .ceos) ∨ ∃ n d, t = (s.setFreq 256 n).respond .ok d
  | .ldf sym n => t = (s.setFreq sym.toNat n).respond .ok 0
  | .qload => t = s.raise .malformed (encode .qload) ∨ ∃ u d, s.loadQueue = some u ∧ t = u.respond .ok d
  | .merge => ∃ a b d, s.Removed a b ∧ s.nint.toNat < 256 ∧ t = (s.joined a b).respond .ok d
  | .build => (s.ph = .table ∧ t = s.raise .malformed (encode .build)) ∨
      ∃ u v d, (s.ph = .table ∧ s.loadQueue = some u ∨ s.ph = .merging ∧ u = s) ∧
        State.mergeAll (256 - u.nint.toNat) u = .ok v ∧ s.SameButTree v ∧ v.ph = .tree ∧ t = v.respond .ok d
  | .derive => ∃ codes d, tableWf CodeEntry.empty 257 codes = true ∧
      t = ({ s with codes := codes, ph := .coded } : State).respond .ok d
  | .enc b => t = s.raise .noCode (encode (.enc b)) ∨ ∃ bits d, t = (s.writeBits bits).respond .ok d
  | .eeos => ∃ bits d, t = (s.writeBits bits).respond .ok d
  | .dstep => (∃ d, t = s.respond .ok d) ∨ t = s.raise .trunc (encode .dstep) ∨
      ∃ b rest c e bytes d, s.bitIn = b :: rest ∧ bytes.length ≤ 1 ∧
        t = ({ s with bitIn := rest, cur := c, dt := e, byteOut := s.byteOut ++ bytes } : State).respond .ok d
  | .decode => ∃ used rest bytes c e, s.bitIn = used ++ rest ∧ bytes.length ≤ used.length ∧
      ((∃ d, t =
          ({ s with bitIn := rest, byteOut := s.byteOut ++ bytes, cur := c, dt := e } : State).respond .ok d) ∨
        e = s.dt ∧ rest = [] ∧ t = ({ s with bitIn := rest, byteOut := s.byteOut ++ bytes, cur := c, dt := e } : State).raise .trunc
          (encode .decode))

/-- Everything that can have happened when a command answered a next state (R77). -/
def CommandEffect (i : Instr) (s t : State) : Prop :=
  (s.err ≠ 0 ∧ exemptOp i.op = false ∧ t = s.halt) ∨
  ((s.err = 0 ∨ exemptOp i.op = true) ∧ i.wellFormed = false ∧ t = s.raise .illegal (encode i)) ∨
  ((s.err = 0 ∨ exemptOp i.op = true) ∧ i.wellFormed = true ∧ legalPhase i s.ph = false ∧
    t = s.raise .seq (encode i)) ∨
  ((s.err = 0 ∨ exemptOp i.op = true) ∧ i.wellFormed = true ∧ legalPhase i s.ph = true ∧ OwnEffect s t i)

theorem commandEffect_of_rule {i : Instr} {rule : State → Result} {s t : State} (h : command i rule s = .next t)
    (ho : legalPhase i s.ph = true → rule s = .next t → OwnEffect s t i) : CommandEffect i s t := by
  rcases command_next h with h | h | h | ⟨h1, h2, h3, h4⟩
  · exact .inl h
  · exact .inr (.inl h)
  · exact .inr (.inr (.inl h))
  · exact .inr (.inr (.inr ⟨h1, h2, h3, ho h3 h4⟩))

theorem execReset_next {s t : State} (h : execReset s = .next t) : CommandEffect .reset s t :=
  commandEffect_of_rule h fun _ hr => (next_inj.1 hr).symm

theorem execRdst_next {sel : Sel} {s t : State} (h : execRdst sel s = .next t) : CommandEffect (.rdst sel) s t :=
  commandEffect_of_rule h fun _ hr => ⟨_, (next_inj.1 hr).symm⟩

theorem execCnt_next {b : Index} {s t : State} (h : execCnt b s = .next t) : CommandEffect (.cnt b) s t :=
  commandEffect_of_rule h fun _ hr => (countUp_next hr).imp (·.2) (fun x => ⟨_, _, x.2⟩)

theorem execCeos_next {s t : State} (h : execCeos s = .next t) : CommandEffect .ceos s t :=
  commandEffect_of_rule h fun _ hr => (countUp_next hr).imp (·.2) (fun x => ⟨_, _, x.2⟩)

theorem execLdf_next {sym : Index} {n : Count} {s t : State} (h : execLdf sym n s = .next t) :
    CommandEffect (.ldf sym n) s t :=
  commandEffect_of_rule h fun _ hr => (next_inj.1 hr).symm

theorem execRdf_next {sym : Index} {s t : State} (h : execRdf sym s = .next t) : CommandEffect (.rdf sym) s t :=
  commandEffect_of_rule h fun _ hr => ⟨_, (next_inj.1 hr).symm⟩

theorem execQload_next {s t : State} (h : execQload s = .next t) : CommandEffect .qload s t :=
  commandEffect_of_rule h fun _ hr => by
    cases hl : s.loadQueue with
    | none =>
      simp only [hl] at hr
      exact .inl (next_inj.1 hr).symm
    | some u =>
      simp only [hl] at hr
      exact .inr ⟨u, _, hl, (next_inj.1 hr).symm⟩

theorem execMerge_next {s t : State} (h : execMerge s = .next t) : CommandEffect .merge s t :=
  commandEffect_of_rule h fun _ hr => by
    cases hl : s.mergeOnce with
    | error f =>
      simp only [hl] at hr
      cases hr
    | ok u =>
      simp only [hl] at hr
      obtain ⟨a, b, r, hn, _, rfl⟩ := mergeOnce_ok hl
      exact ⟨a, b, _, r, hn, (next_inj.1 hr).symm⟩

theorem execBuild_next {s t : State} (h : execBuild s = .next t) : CommandEffect .build s t :=
  commandEffect_of_rule h fun hp hr => by
    by_cases hph : s.ph = .table
    · simp only [hph, if_true] at hr
      cases hl : s.loadQueue with
      | none =>
        simp only [hl] at hr
        exact .inl ⟨hph, (next_inj.1 hr).symm⟩
      | some u =>
        simp only [hl] at hr
        obtain ⟨v, h1, h2, h3, _, h5, h6⟩ := finishBuild_next hr
        refine .inr ⟨u, v, _, .inl ⟨hph, hl⟩, h1, sameButTree_trans (sameButTree_loadQueue hl) h3, ?_, h2⟩
        rcases loadQueue_ph hl with hu | hu
        · exact h6 hu
        · rw [h5 (by rw [hu]; exact fun e => Phase.noConfusion e)]
          exact hu
    · have hm : s.ph = .merging := by
        have := (Bool.or_eq_true _ _).mp hp
        rw [beq_iff_eq, beq_iff_eq] at this
        exact this.resolve_left hph
      simp only [hph, if_false] at hr
      obtain ⟨v, h1, h2, h3, _, _, h6⟩ := finishBuild_next hr
      exact .inr ⟨s, v, _, .inr ⟨hm, rfl⟩, h1, h3, h6 hm, h2⟩

theorem execRdn_next {node : Index} {sel : Sel} {s t : State} (h : execRdn node sel s = .next t) :
    CommandEffect (.rdn node sel) s t :=
  commandEffect_of_rule h fun _ hr => ⟨_, (next_inj.1 hr).symm⟩

theorem execDerive_next {s t : State} (h : execDerive s = .next t) : CommandEffect .derive s t :=
  commandEffect_of_rule h fun _ hr => by
    simp only [Config.codeWidth] at hr
    cases hd : s.deriveFrom 256 s.root.toNat 0 0 ([], 0) with
    | error f =>
      simp only [hd] at hr
      cases hr
    | ok p =>
      simp only [hd] at hr
      exact ⟨p.1, _, deriveFrom_wf 256 rfl hd, (next_inj.1 hr).symm⟩

theorem execRdc_next {sym : Index} {sel : Sel} {s t : State} (h : execRdc sym sel s = .next t) :
    CommandEffect (.rdc sym sel) s t :=
  commandEffect_of_rule h fun _ hr => ⟨_, (next_inj.1 hr).symm⟩

theorem execEnc_next {b : Index} {s t : State} (h : execEnc b s = .next t) : CommandEffect (.enc b) s t :=
  commandEffect_of_rule h fun _ hr => by
    split at hr
    · exact .inr ⟨_, _, (writeCode_next hr).2⟩
    · exact .inl (next_inj.1 hr).symm

theorem execEeos_next {s t : State} (h : execEeos s = .next t) : CommandEffect .eeos s t :=
  commandEffect_of_rule h fun _ hr => ⟨_, _, (writeCode_next hr).2⟩

theorem execDstep_next {s t : State} (h : execDstep s = .next t) : CommandEffect .dstep s t :=
  commandEffect_of_rule h fun _ hr => by
    split at hr
    · exact .inl ⟨_, (next_inj.1 hr).symm⟩
    · split at hr
      · exact .inr (.inl (next_inj.1 hr).symm)
      · next b rest hb =>
        split at hr
        · cases hr
        · next u a hw =>
          obtain ⟨c, e, bytes, rfl, ha⟩ := walk_ok hw
          refine .inr (.inr ⟨b, rest, c, e, bytes, _, hb, ?_, (next_inj.1 hr).symm⟩)
          rcases ha with ⟨_, rfl, _⟩ | ⟨_, rfl, _⟩ | ⟨_, _, rfl, _⟩ <;> simp

theorem execDecode_next {s t : State} (h : execDecode s = .next t) : CommandEffect .decode s t :=
  commandEffect_of_rule h fun _ hr => by
    obtain ⟨used, rest, bytes, c, e, h1, h2, h3⟩ := decodeLoop_next _ rfl hr
    refine ⟨used, rest, bytes, c, e, h1, h2, ?_⟩
    rcases h3 with ⟨_, h3⟩ | ⟨he, hd, hr, h3⟩
    · exact .inl ⟨_, h3⟩
    · exact .inr ⟨he.trans hd.symm, hr, h3⟩

/-- The inversion lemma of `exec`. -/
theorem exec_next {i : Instr} {s t : State} (h : exec i s = .next t) : CommandEffect i s t := by
  cases i with
  | reset => exact execReset_next h
  | rdst sel => exact execRdst_next h
  | cnt byte => exact execCnt_next h
  | ceos => exact execCeos_next h
  | ldf sym count => exact execLdf_next h
  | rdf sym => exact execRdf_next h
  | qload => exact execQload_next h
  | merge => exact execMerge_next h
  | build => exact execBuild_next h
  | rdn node sel => exact execRdn_next h
  | derive => exact execDerive_next h
  | rdc sym sel => exact execRdc_next h
  | enc byte => exact execEnc_next h
  | eeos => exact execEeos_next h
  | dstep => exact execDstep_next h
  | decode => exact execDecode_next h

/-- Every command is its own rule behind the front end (R77). -/
theorem exec_command (i : Instr) (s : State) : ∃ rule, exec i s = command i rule s := by
  cases i with
  | reset => exact ⟨fun s => answer s.release 0, rfl⟩
  | rdst sel => exact ⟨fun s => answer s (if sel = 0 then s.status else s.ecmd), rfl⟩
  | cnt byte => exact ⟨countUp byte.toNat (encode (.cnt byte)), rfl⟩
  | ceos => exact ⟨countUp Config.eos (encode .ceos), rfl⟩
  | ldf sym count => exact ⟨fun s => answer (s.setFreq sym.toNat count) 0, rfl⟩
  | rdf sym => exact ⟨fun s => answer s ((s.freqAt sym.toNat).setWidth 64), rfl⟩
  | qload => unfold exec execQload; exact ⟨_, rfl⟩
  | merge => unfold exec execMerge; exact ⟨_, rfl⟩
  | build => unfold exec execBuild; exact ⟨_, rfl⟩
  | rdn node sel => exact ⟨fun s => answer s (rdnData (s.nodeAt node.toNat) sel), rfl⟩
  | derive => unfold exec execDerive; exact ⟨_, rfl⟩
  | rdc sym sel => exact ⟨fun s => answer s (rdcData (s.codeAt sym.toNat) sel), rfl⟩
  | enc byte => unfold exec execEnc; exact ⟨_, rfl⟩
  | eeos => exact ⟨fun s => writeCode (s.codeAt Config.eos) s, rfl⟩
  | dstep => unfold exec execDstep; exact ⟨_, rfl⟩
  | decode => exact ⟨fun s => decodeLoop s.bitIn 0 s, rfl⟩

/-- Everything a step can do: nothing, a hardware reset, a new position of the bit-in port, a decoded command, or an
illegal word (R185, R190, R35, R77). -/
theorem step_cases {s t : State} (h : step s = .next t) :
    (s.hostIn = [] ∧ t = s) ∨
    (∃ rest, s.hostIn = .hardwareReset :: rest ∧ t = { s with hostIn := rest }.release) ∨
    (∃ bits rest, s.hostIn = .positionBits bits :: rest ∧ t = { s with hostIn := rest, bitIn := bits }) ∨
    (∃ w rest i, s.hostIn = .command w :: rest ∧ decode w = .ok i ∧ exec i { s with hostIn := rest } = .next t) ∨
    (∃ w rest e, s.hostIn = .command w :: rest ∧ decode w = .error e ∧
      illegalWord w { s with hostIn := rest } = .next t) := by
  unfold step at h
  split at h
  · next hh => exact .inl ⟨hh, (next_inj.1 h).symm⟩
  · next rest hh => exact .inr (.inl ⟨rest, hh, (next_inj.1 h).symm⟩)
  · next bits rest hh => exact .inr (.inr (.inl ⟨bits, rest, hh, (next_inj.1 h).symm⟩))
  · next w rest hh =>
    split at h
    · next i hd => exact .inr (.inr (.inr (.inl ⟨w, rest, i, hh, hd, h⟩)))
    · next e hd => exact .inr (.inr (.inr (.inr ⟨w, rest, e, hh, hd, h⟩)))

end Sys2Proof.Machine
end

