-- ==== Sys2Proof/Laws/PerInstr.lean ====
section
/-!
SUPPORT. Per instruction: the word of a command carries the command's opcode and operands in their fields and 0 in `rsv`
(R71, R72).
-/

namespace Sys2Proof.Laws.EncodedFields

/-- Each field of the word of `i` holds what R71 and R72 put there. -/
def Statement (i : Instr) : Prop :=
  opField (encode i) = i.op ∧ selField (encode i) = i.sel ∧ rsvField (encode i) = 0 ∧ idxField (encode i) = i.idx ∧
    dataField (encode i) = i.data

/-- The fields of a word made of fields are those fields. -/
theorem of_makeWord (i : Instr) : Statement i := by
  unfold Statement encode
  exact ⟨opField_makeWord _ _ _ _, selField_makeWord _ _ _ _, rsvField_makeWord _ _ _ _, idxField_makeWord _ _ _ _,
    dataField_makeWord _ _ _ _⟩

theorem reset : Statement .reset := of_makeWord _
theorem rdst (sel : Sel) : Statement (.rdst sel) := of_makeWord _
theorem cnt (byte : Index) : Statement (.cnt byte) := of_makeWord _
theorem ceos : Statement .ceos := of_makeWord _
theorem ldf (sym : Index) (count : Count) : Statement (.ldf sym count) := of_makeWord _
theorem rdf (sym : Index) : Statement (.rdf sym) := of_makeWord _
theorem qload : Statement .qload := of_makeWord _
theorem merge : Statement .merge := of_makeWord _
theorem build : Statement .build := of_makeWord _
theorem rdn (node : Index) (sel : Sel) : Statement (.rdn node sel) := of_makeWord _
theorem derive : Statement .derive := of_makeWord _
theorem rdc (sym : Index) (sel : Sel) : Statement (.rdc sym sel) := of_makeWord _
theorem enc (byte : Index) : Statement (.enc byte) := of_makeWord _
theorem eeos : Statement .eeos := of_makeWord _
theorem dstep : Statement .dstep := of_makeWord _
theorem decode : Statement .decode := of_makeWord _

end Sys2Proof.Laws.EncodedFields
end

