-- ==== Sys2Proof/Tests/Slice0.lean ====
section
/-!
SUPPORT. The model's own tests: ill-formed commands are refused, words written out from the spec's encodings decode to
their commands, single steps answer what the spec's worked examples say, and every statement with hypotheses has a concrete
state that meets them. Expected values come from the spec's examples; each test names the rule.
-/

namespace Sys2Proof.Tests

open Sys2Proof Sys2Proof.Machine

-- The kernel evaluations below wait for one another; elaborated one by one they do not hold a thread each.
set_option Elab.async false

/-! ## WellFormed: one ill-formed command for each check (R73) -/

theorem test_wf_rdst : (Instr.rdst 2).wellFormed = false := by decide
theorem test_wf_cnt : (Instr.cnt 256).wellFormed = false := by decide
theorem test_wf_ldf : (Instr.ldf 257 0).wellFormed = false := by decide
theorem test_wf_rdf : (Instr.rdf 257).wellFormed = false := by decide
theorem test_wf_rdn_node : (Instr.rdn 513 0).wellFormed = false := by decide
theorem test_wf_rdn_sel : (Instr.rdn 0 3).wellFormed = false := by decide
theorem test_wf_rdc_sym : (Instr.rdc 257 0).wellFormed = false := by decide
theorem test_wf_rdc_sel : (Instr.rdc 0 9).wellFormed = false := by decide
theorem test_wf_enc : (Instr.enc 256).wellFormed = false := by decide

/-! ## Decoding: words the spec writes out, or written out bit by bit from the fields of R71 and the opcodes of R72 -/

theorem test_decode_reset : decode 0x0100000000000000 = .ok .reset := rfl
theorem test_decode_rdst : decode 0x0201000000000000 = .ok (.rdst 1) := rfl
theorem test_decode_cnt : decode 0x1000006100000000 = .ok (.cnt 97) := rfl
theorem test_decode_ceos : decode 0x1100000000000000 = .ok .ceos := rfl
theorem test_decode_ldf : decode 0x1200010000000001 = .ok (.ldf 256 1) := rfl
theorem test_decode_ldf_max : decode 0x12000061FFFFFFFF = .ok (.ldf 97 0xFFFFFFFF) := rfl
theorem test_decode_rdf : decode 0x1300006100000000 = .ok (.rdf 97) := rfl
theorem test_decode_qload : decode 0x2000000000000000 = .ok .qload := rfl
theorem test_decode_merge : decode 0x2100000000000000 = .ok .merge := rfl
theorem test_decode_build : decode 0x2200000000000000 = .ok .build := rfl
theorem test_decode_rdn : decode 0x2302010200000000 = .ok (.rdn 258 2) := rfl
theorem test_decode_rdn_top : decode 0x2300020000000000 = .ok (.rdn 512 0) := rfl
theorem test_decode_derive : decode 0x3000000000000000 = .ok .derive := rfl
theorem test_decode_rdc : decode 0x3108006200000000 = .ok (.rdc 98 8) := rfl
theorem test_decode_enc : decode 0x4000006200000000 = .ok (.enc 98) := rfl
theorem test_decode_eeos : decode 0x4100000000000000 = .ok .eeos := rfl
theorem test_decode_dstep : decode 0x5000000000000000 = .ok .dstep := rfl
theorem test_decode_decode : decode 0x5100000000000000 = .ok .decode := rfl

/-- R75 (a): the all-zero word is illegal. -/
theorem test_decode_zero : decode 0 = .error .unknownOpcode := rfl
/-- R75 (b): bit 42 is in `rsv`. -/
theorem test_decode_rsv : decode 0x1000046100000000 = .error .reservedBits := rfl
/-- R75 (c): CNT does not use `data`. -/
theorem test_decode_unused : decode 0x1000006100000001 = .error .unusedField := rfl
/-- R75 (d): `idx = 256` is no literal byte. -/
theorem test_decode_range : decode 0x1000010000000000 = .error .operandRange := rfl
/-- R51: `NIL` is never a legal `idx`. -/
theorem test_decode_nil : decode 0x230003FF00000000 = .error .operandRange := rfl

/-- The host's numbering: the word is the number (R52, R70). -/
theorem test_decodeTableWord : decodeTableWord 64 0x1200006200000001 = some (.ldf 98 1) := rfl

/-! ## The assembler: the examples of R78 -/

theorem test_assemble_cnt : assembleLine ['C', 'N', 'T', ' ', '\'', 'a', '\''] = some 0x1000006100000000 := by
  decide +kernel
theorem test_assemble_ldf : assembleLine ['L', 'D', 'F', ' ', 'E', 'O', 'S', ',', ' ', '1'] =
    some 0x1200010000000001 := by decide +kernel
theorem test_assemble_rdn : assembleLine ['R', 'D', 'N', ' ', '2', '5', '8', ',', ' ', '2'] =
    some 0x2302010200000000 := by decide +kernel
theorem test_assemble_rdst : assembleLine ['R', 'D', 'S', 'T', ' ', '1', ' ', ';', 'x'] =
    some 0x0201000000000000 := by decide +kernel
theorem test_assemble_rdc : assembleLine ['R', 'D', 'C', ' ', '\'', 'b', '\'', ',', ' ', '8'] =
    some 0x3108006200000000 := by decide +kernel
theorem test_assemble_range : assembleLine ['C', 'N', 'T', ' ', 'E', 'O', 'S'] = none := by decide +kernel

/-! ## The states of the spec's running example: the table of R92, the queue of R102, the tree of R103, the codes of
R121; and the single-leaf tree of R102 (a) -/

def tableState : State := { State.reset with freq := [(97, 2), (98, 1), (256, 1)] }

def mergingState : State :=
  { tableState with
    ph := .merging, qn := 3
    nodes := [(97, ⟨true, true, 97, 2, 0x3FF, 0x3FF⟩), (98, ⟨true, true, 98, 1, 0x3FF, 0x3FF⟩),
      (256, ⟨true, true, 256, 1, 0x3FF, 0x3FF⟩)] }

def lastMergeState : State :=
  { tableState with
    ph := .merging, qn := 2, nint := 1
    nodes := [(97, ⟨true, true, 97, 2, 0x3FF, 0x3FF⟩), (98, ⟨true, false, 98, 1, 0x3FF, 0x3FF⟩),
      (256, ⟨true, false, 256, 1, 0x3FF, 0x3FF⟩), (257, ⟨true, true, 257, 2, 98, 256⟩)] }

def treeState : State :=
  { tableState with
    ph := .tree, root := 258, cur := 258, qn := 1, nint := 2
    nodes := [(97, ⟨true, false, 97, 2, 0x3FF, 0x3FF⟩), (98, ⟨true, false, 98, 1, 0x3FF, 0x3FF⟩),
      (256, ⟨true, false, 256, 1, 0x3FF, 0x3FF⟩), (257, ⟨true, false, 257, 2, 98, 256⟩),
      (258, ⟨true, true, 257, 4, 97, 257⟩)] }

def codedState : State :=
  { treeState with ph := .coded, codes := [(97, ⟨true, 1, 0⟩), (98, ⟨true, 2, 1⟩), (256, ⟨true, 2, 3⟩)] }

def singleTable : State := { State.reset with freq := [(256, 1)] }

def singleTree : State :=
  { singleTable with
    ph := .tree, root := 256, cur := 256, dt := true, qn := 1, nodes := [(256, ⟨true, true, 256, 1, 0x3FF, 0x3FF⟩)] }

def singleCoded : State := { singleTree with ph := .coded, codes := [(256, ⟨true, 0, 0⟩)] }

/-- The result is the next state `t`. -/
def answers (r : Result) (t : State) : Bool :=
  match r with
  | .next u => decide (u = t)
  | .fault _ => false
  | .refused _ => false

theorem eq_of_answers {r : Result} {t : State} (h : answers r t = true) : r = .next t := by
  unfold answers at h
  split at h
  · rw [of_decide_eq_true h]
  · exact absurd h Bool.false_ne_true
  · exact absurd h Bool.false_ne_true

/-- The next step on the word `w`, presented to `s`, answers `t` with the response added and the word taken. -/
def runs (w : Word) (s t : State) (code : RspCode) (data : BitVec 64) : Bool :=
  answers (step { s with hostIn := [.command w] }) { t with rspOut := s.rspOut ++ [⟨code, data⟩] }

/-! ## One step at a time -/

/-- R150: RESET clears a fault and every table, and keeps the port histories. -/
theorem test_reset : runs 0x0100000000000000 { codedState with err := 3, ecmd := 7, bitOut := [true] }
    { State.reset with bitOut := [true] } .ok 0 = true := by decide +kernel
/-- R151: the worked example's status word. -/
theorem test_rdst : runs 0x0200000000000000 codedState codedState .ok 0x0000008014090203 = true := by decide +kernel
/-- R26: the status word after reset. -/
theorem test_rdst_reset : runs 0x0200000000000000 State.reset State.reset .ok 0x000000000FFFFF00 = true := by
  decide +kernel
/-- R90: the second CNT of a byte returns 2. -/
theorem test_cnt : runs 0x1000006100000000 { State.reset with freq := [(97, 1)] }
    { State.reset with freq := [(97, 2)] } .ok 2 = true := by decide +kernel
/-- R90: the count stays at 2^32 - 1. -/
theorem test_cnt_overflow : runs 0x1000006100000000 { State.reset with freq := [(97, 0xFFFFFFFF)] }
    { State.reset with freq := [(97, 0xFFFFFFFF)], err := 6, ecmd := 0x1000006100000000 } (.fault .cntOvf) 0 = true := by
  decide +kernel
/-- R91: after reset CEOS returns 1. -/
theorem test_ceos : runs 0x1100000000000000 State.reset singleTable .ok 1 = true := by decide +kernel
/-- R92: the last write wins. -/
theorem test_ldf : runs 0x1200006100000002 { tableState with freq := [(97, 9), (98, 1), (256, 1)] } tableState .ok 0 =
    true := by decide +kernel
/-- R92: a count of 0 takes the entry out. -/
theorem test_ldf_zero : runs 0x1200006100000000 { State.reset with freq := [(97, 9), (256, 1)] } singleTable .ok 0 =
    true := by decide +kernel
/-- R93. -/
theorem test_rdf : runs 0x1300006100000000 codedState codedState .ok 2 = true := by decide +kernel
/-- R102: the worked example. -/
theorem test_qload : runs 0x2000000000000000 tableState mergingState .ok 3 = true := by decide +kernel
/-- R102 (a): the single-entry table. -/
theorem test_qload_single : runs 0x2000000000000000 singleTable singleTree .ok 1 = true := by decide +kernel
/-- R103: the first MERGE of the worked example. -/
theorem test_merge : runs 0x2100000000000000 mergingState lastMergeState .ok 257 = true := by decide +kernel
/-- R103: the second; a leaf goes before an internal node of equal weight. -/
theorem test_merge_last : runs 0x2100000000000000 lastMergeState treeState .ok 258 = true := by decide +kernel
/-- R104: the worked example. -/
theorem test_build : runs 0x2200000000000000 tableState treeState .ok 258 = true := by decide +kernel
/-- R102: no end-of-stream entry. -/
theorem test_build_malformed : runs 0x2200000000000000 State.reset
    { State.reset with err := 1, ecmd := 0x2200000000000000 } (.fault .malformed) 0 = true := by decide +kernel
/-- R105: node 257, `sel = 0`. -/
theorem test_rdn : runs 0x2300010100000000 treeState treeState .ok 0x501 = true := by decide +kernel
/-- R105: node 257, `sel = 2`. -/
theorem test_rdn_links : runs 0x2302010100000000 treeState treeState .ok 0x40062 = true := by decide +kernel
/-- R121: the worked example. -/
theorem test_derive : runs 0x3000000000000000 treeState codedState .ok 3 = true := by decide +kernel
/-- R121 (a): the empty code of the single leaf. -/
theorem test_derive_single : runs 0x3000000000000000 singleTree singleCoded .ok 1 = true := by decide +kernel
/-- R123: `RDC 'b', 8`. -/
theorem test_rdc : runs 0x3108006200000000 codedState codedState .ok 0x202 = true := by decide +kernel
/-- R131: `ENC 'b'` writes 1 then 0. -/
theorem test_enc : runs 0x4000006200000000 codedState { codedState with bitOut := [true, false] } .ok 2 = true := by
  decide +kernel
/-- R131: `ENC 'z'`. -/
theorem test_enc_noCode : runs 0x4000007A00000000 codedState
    { codedState with err := 3, ecmd := 0x4000007A00000000 } (.fault .noCode) 0 = true := by decide +kernel
/-- R132: EEOS writes 1 then 1. -/
theorem test_eeos : runs 0x4100000000000000 codedState { codedState with bitOut := [true, true] } .ok 2 = true := by
  decide +kernel
/-- R141: the bit 1 leads from the root to node 257. -/
theorem test_dstep : runs 0x5000000000000000 { treeState with bitIn := [true, false] }
    { treeState with bitIn := [false], cur := 257 } .ok 0 = true := by decide +kernel
/-- R141: the next bit 0 reaches leaf 98. -/
theorem test_dstep_byte : runs 0x5000000000000000 { treeState with bitIn := [false], cur := 257 }
    { treeState with byteOut := [98] } .ok 0x162 = true := by decide +kernel
/-- R142: the worked example; two bits stay unread. -/
theorem test_decode_stream : runs 0x5100000000000000
    { treeState with bitIn := [false, false, true, false, true, true, false, false] }
    { treeState with bitIn := [false, false], byteOut := [97, 97, 98], cur := 256, dt := true } .ok 3 = true := by
  decide +kernel
/-- R142: the stream ends too early; the bytes already written stay. -/
theorem test_decode_trunc : runs 0x5100000000000000 { treeState with bitIn := [false, true] }
    { treeState with byteOut := [97], cur := 257, err := 2, ecmd := 0x5100000000000000 } (.fault .trunc) 0 = true := by
  decide +kernel
/-- R171: a faulted HFE refuses an illegal word with `E_HALTED`, not `E_ILLEGAL`. -/
theorem test_halted : runs 0 { treeState with err := 5 } { treeState with err := 5 } .halted 0 = true := by
  decide +kernel
/-- R172: an operand out of range in the wrong phase reports `E_ILLEGAL`. -/
theorem test_priority : runs 0x1000010000000000 treeState { treeState with err := 4, ecmd := 0x1000010000000000 }
    (.fault .illegal) 0 = true := by decide +kernel
/-- `withFetchWord` presents the word to the very next step. -/
theorem test_withFetchWord : answers (step (State.reset.withFetchWord 64 0x1100000000000000))
    { singleTable with rspOut := [⟨.ok, 1⟩] } = true := by decide +kernel

/-! ## The invariant holds in the example's states -/

theorem tableState_inv : tableState.Inv :=
  inv_setFreq (i := 97) (inv_setFreq (i := 98) (inv_setFreq (i := 256) (inv_release State.reset) rfl (by decide) 1)
    rfl (by decide) 1) rfl (by decide) 2

theorem singleTable_inv : singleTable.Inv := inv_setFreq (i := 256) (inv_release State.reset) rfl (by decide) 1

theorem mergingState_inv : mergingState.Inv :=
  loadQueue_inv tableState_inv rfl (show tableState.loadQueue = some mergingState by decide +kernel)

theorem singleTree_inv : singleTree.Inv :=
  loadQueue_inv singleTable_inv rfl (show singleTable.loadQueue = some singleTree by decide +kernel)

theorem mergeOnce_first : mergingState.mergeOnce = .ok lastMergeState := by
  have h : (match mergingState.mergeOnce with
    | .ok t => decide (t = lastMergeState)
    | .error _ => false) = true := by decide +kernel
  split at h
  · next t ht => rw [ht, of_decide_eq_true h]
  · exact absurd h Bool.false_ne_true

theorem lastMergeState_inv : lastMergeState.Inv := by
  obtain ⟨a, b, r, hm⟩ := mergeOnce_eq mergingState_inv rfl
  rw [mergeOnce_first] at hm
  rw [Except.ok.inj hm]
  exact mergeOnce_inv mergingState_inv rfl r

theorem mergeOnce_second : lastMergeState.mergeOnce = .ok treeState := by
  have h : (match lastMergeState.mergeOnce with
    | .ok t => decide (t = treeState)
    | .error _ => false) = true := by decide +kernel
  split at h
  · next t ht => rw [ht, of_decide_eq_true h]
  · exact absurd h Bool.false_ne_true

theorem treeState_inv : treeState.Inv := by
  obtain ⟨a, b, r, hm⟩ := mergeOnce_eq lastMergeState_inv rfl
  rw [mergeOnce_second] at hm
  rw [Except.ok.inj hm]
  exact mergeOnce_inv lastMergeState_inv rfl r

theorem derive_tree : treeState.deriveFrom 256 treeState.root.toNat 0 0 ([], 0) = .ok (codedState.codes, 3) := by
  have h : (match treeState.deriveFrom 256 treeState.root.toNat 0 0 ([], 0) with
    | .ok t => decide (t = (codedState.codes, 3))
    | .error _ => false) = true := by decide +kernel
  split at h
  · next t ht => rw [ht, of_decide_eq_true h]
  · exact absurd h Bool.false_ne_true

theorem codedState_inv : codedState.Inv := derive_inv treeState_inv rfl derive_tree

theorem derive_single : singleTree.deriveFrom 256 singleTree.root.toNat 0 0 ([], 0) =
    .ok (singleCoded.codes, 1) := by
  have h : (match singleTree.deriveFrom 256 singleTree.root.toNat 0 0 ([], 0) with
    | .ok t => decide (t = (singleCoded.codes, 1))
    | .error _ => false) = true := by decide +kernel
  split at h
  · next t ht => rw [ht, of_decide_eq_true h]
  · exact absurd h Bool.false_ne_true

theorem singleCoded_inv : singleCoded.Inv := derive_inv singleTree_inv rfl derive_single

/-! ## Witnesses: for each statement with hypotheses, concrete values that meet all of them, clause by clause -/

theorem witness_DecodeOfEncode : (Instr.rdn 512 2).wellFormed = true ∧ (Instr.rdc 256 8).wellFormed = true ∧
    (Instr.cnt 255).wellFormed = true ∧ (Instr.ldf 256 0xFFFFFFFF).wellFormed = true ∧
    (Instr.rdst 1).wellFormed = true := by decide

theorem witness_EncodeOfDecode : decode 0x23020200FFFFFFFF = .error .unusedField ∧
    decode 0x2302020000000000 = .ok (.rdn 512 2) := ⟨rfl, rfl⟩

theorem witness_OpcodeMapDecides : decode 0x3108010000000000 = .ok (.rdc 256 8) ∧
    ∃ r ∈ opcodeTable, r.accepts 0x3108010000000000 = true :=
  ⟨rfl, ⟨"RDC", 0x3100000000000000, 0xFFF0FE00FFFFFFFF, 256, 8⟩, by decide, by decide⟩

/-- A line that assembles; one value within its limit and one beyond it, at the boundary of `idx` for CNT, of `sel` for RDC
and of `data` for LDF; too many and too few operands; and a `sel` left out. -/
theorem witness_AssemblerMakesLegalWords :
    assembleLine ['C', 'N', 'T', ' ', '\'', 'a', '\''] = some 0x1000006100000000 ∧
    (lexLine ['C', 'N', 'T', ' ', '2', '5', '5'] = some [.word ['C', 'N', 'T'], .word ['2', '5', '5']] ∧
      operandValues [.word ['2', '5', '5']] = some [255] ∧ operandValues [.word ['E', 'O', 'S']] = some [256]) ∧
    ((⟨['C', 'N', 'T'], 0x10, [.idx]⟩ : AssemblerRow) ∈ assemblerRows ∧
      (⟨['R', 'D', 'C'], 0x31, [.idx, .sel]⟩ : AssemblerRow) ∈ assemblerRows ∧
      (⟨['L', 'D', 'F'], 0x12, [.idx, .data]⟩ : AssemblerRow) ∈ assemblerRows) ∧
    (255 ≤ OperandField.idx.limit 0x10 ∧ OperandField.idx.limit 0x10 < 256 ∧
      8 ≤ OperandField.sel.limit 0x31 ∧ OperandField.sel.limit 0x31 < 9 ∧
      2 ^ 32 - 1 ≤ OperandField.data.limit 0x12 ∧ OperandField.data.limit 0x12 < 2 ^ 32) ∧
    (⟨['C', 'N', 'T'], 0x10, [.idx]⟩ : AssemblerRow).takes 1 ∧ ¬ (⟨['C', 'N', 'T'], 0x10, [.idx]⟩ : AssemblerRow).takes 0 ∧
    ¬ (⟨['C', 'N', 'T'], 0x10, [.idx]⟩ : AssemblerRow).takes 2 ∧
    (⟨['R', 'D', 'C'], 0x31, [.idx, .sel]⟩ : AssemblerRow).takes 1 := by
  unfold AssemblerRow.takes
  exact ⟨test_assemble_cnt, by decide +kernel, by decide, by decide, by decide, by decide, by decide, by decide⟩

theorem witness_StepRunsDecodedCommand :
    ({ treeState with hostIn := [.command 0x5100000000000000, .hardwareReset] } : State).hostIn =
      .command 0x5100000000000000 :: [.hardwareReset] ∧ decode 0x5100000000000000 = .ok .decode := ⟨rfl, rfl⟩

theorem witness_StepWithoutCommand : State.reset.hostIn = [] ∧
    ({ treeState with hostIn := [.hardwareReset] } : State).hostIn = .hardwareReset :: [] ∧
    ({ treeState with hostIn := [.positionBits [true]] } : State).hostIn = .positionBits [true] :: [] :=
  ⟨rfl, rfl, rfl⟩

/-- The words at the edges of R75: one legal, one illegal each for an unknown opcode and an exempt one. -/
theorem witness_legalWord : legalWord 0x3108010000000000 ∧ ¬ legalWord 0 ∧ ¬ legalWord 0x0100000000000001 ∧
    ¬ legalWord 0x2300020100000000 := by
  unfold legalWord
  decide

/-- Both clauses. -/
theorem witness_IllegalWordFaults : ¬ legalWord 0 ∧ ¬ legalWord 0x0100000000000001 ∧
    State.reset.err = 0 ∧ ({ State.reset with err := 6 } : State).err ≠ 0 ∧
    opField 0x0100000000000001 ∈ exemptOpcodes :=
  ⟨witness_legalWord.2.1, witness_legalWord.2.2.1, rfl, by decide, by decide⟩

/-- Every clause: a word that is refused (illegal, and legal), an illegal exempt word, RDST and RESET. -/
theorem witness_FaultedRefusesAllButExempt : ({ State.reset with err := 1 } : State).err ≠ 0 ∧
    opField 0 ∉ exemptOpcodes ∧ opField 0x1000006100000000 ∉ exemptOpcodes ∧
    (opField 0x2300020100000000 ∈ exemptOpcodes ∧ ¬ legalWord 0x2300020100000000) ∧
    (opField 0x3108010000000000 ∈ exemptOpcodes ∧ legalWord 0x3108010000000000 ∧
      (0x3108010000000000 : Word) ≠ 0x0100000000000000) :=
  ⟨by decide, by decide, by decide, ⟨by decide, witness_legalWord.2.2.2⟩, by decide, witness_legalWord.1, by decide⟩

theorem witness_OperandOutOfRangeFaults : (Instr.cnt 256).wellFormed = false ∧ State.reset.err = 0 ∧
    (Instr.rdst 2).wellFormed = false ∧ (Instr.rdst 2).op ∈ exemptOpcodes := by decide

/-- DERIVE completes the step from phase 2 to phase 3. -/
theorem derive_runs : exec .derive treeState = .next { codedState with rspOut := [⟨.ok, 3⟩] } :=
  execDerive_run rfl rfl derive_tree

/-- Both clauses: for each row of R74 a phase in which the command is not legal, and DERIVE where it is. -/
theorem witness_WrongPhaseFaults :
    (mergingState.err = 0 ∧ treeState.err = 0 ∧ tableState.err = 0 ∧ codedState.err = 0) ∧
    ((Instr.cnt 255).wellFormed = true ∧ mergingState.ph ∉ phasesOf (Instr.cnt 255).op) ∧
    (Instr.merge.wellFormed = true ∧ tableState.ph ∉ phasesOf Instr.merge.op) ∧
    (Instr.build.wellFormed = true ∧ treeState.ph ∉ phasesOf Instr.build.op) ∧
    (Instr.derive.wellFormed = true ∧ codedState.ph ∉ phasesOf Instr.derive.op) ∧
    (Instr.eeos.wellFormed = true ∧ treeState.ph ∉ phasesOf Instr.eeos.op) ∧
    (Instr.decode.wellFormed = true ∧ mergingState.ph ∉ phasesOf Instr.decode.op) ∧
    (treeState.ph ∈ phasesOf Instr.derive.op ∧ ∃ t, exec .derive treeState = .next t) :=
  ⟨by decide, by decide, by decide, by decide, by decide, by decide, by decide, by decide, _, derive_runs⟩

/-- BUILD of an empty table answers a next state, with a fault. -/
theorem build_reset : exec .build State.reset = .next { State.reset with
    err := 1, ecmd := 0x2200000000000000, rspOut := [⟨.fault .malformed, 0⟩] } :=
  eq_of_answers (by decide +kernel)

/-- CEOS in phase 1 answers a next state, with `E_SEQ`. -/
theorem ceos_merging : exec .ceos mergingState = .next { mergingState with
    err := 5, ecmd := 0x1100000000000000, rspOut := [⟨.fault .seq, 0⟩] } :=
  eq_of_answers (by decide +kernel)

/-- CEOS of a faulted HFE answers a next state, with `E_HALTED`. -/
theorem ceos_halted : exec .ceos { State.reset with err := 1 } = .next { State.reset with
    err := 1, rspOut := [⟨.halted, 0⟩] } :=
  eq_of_answers (by decide +kernel)

/-- DSTEP to the end-of-stream leaf answers a next state, with `OK`. -/
theorem dstep_end : exec .dstep { treeState with cur := 257, bitIn := [true] } = .next { treeState with
    cur := 256, dt := true, rspOut := [⟨.ok, 0x200⟩] } :=
  eq_of_answers (by decide +kernel)

theorem witness_OneResponsePerCommand : ∃ t, exec .build State.reset = .next t := ⟨_, build_reset⟩

theorem witness_ResponseCodesOfEachCommand :
    (∃ t, exec .build State.reset = .next t ∧ t.rspOut = State.reset.rspOut ++ [⟨.fault .malformed, 0⟩]) ∧
    (∃ t, exec .ceos mergingState = .next t ∧ t.rspOut = mergingState.rspOut ++ [⟨.fault .seq, 0⟩]) ∧
    (∃ t, exec .ceos { State.reset with err := 1 } = .next t ∧
      t.rspOut = ({ State.reset with err := 1 } : State).rspOut ++ [⟨.halted, 0⟩]) :=
  ⟨⟨_, build_reset, rfl⟩, ⟨_, ceos_merging, rfl⟩, ⟨_, ceos_halted, rfl⟩⟩

/-- A fault of BUILD, and one of DECODE, the one word whose fault keeps effects; both from states of the invariant. -/
theorem witness_FaultsArePrecise :
    (∃ t, step { State.reset with hostIn := [.command 0x2200000000000000] } = .next t ∧
      t.rspOut = State.reset.rspOut ++ [⟨.fault .malformed, 0⟩] ∧ (0x2200000000000000 : Word) ≠ 0x5100000000000000) ∧
    (∃ t, step { treeState with bitIn := [false, true], hostIn := [.command 0x5100000000000000] } = .next t ∧
      t.rspOut = treeState.rspOut ++ [⟨.fault .trunc, 0⟩]) ∧
    ({ treeState with bitIn := [false, true], hostIn := [.command 0x5100000000000000] } : State).Inv :=
  ⟨⟨_, eq_of_answers test_build_malformed, rfl, by decide⟩, ⟨_, eq_of_answers test_decode_trunc, rfl⟩,
    inv_of_same treeState_inv ⟨treeState_inv.fault.errRange, treeState_inv.fault.ecmdClear⟩
      rfl rfl rfl rfl rfl rfl rfl rfl rfl⟩

/-- Every clause: no fault recorded, a step that runs RESET, a hardware reset, and a read. -/
theorem witness_FirstFaultIsKept :
    (∃ t, step { State.reset with hostIn := [.command 0x2200000000000000] } = .next t ∧ State.reset.err = 0) ∧
    (∃ t, step { treeState with err := 3, hostIn := [.command 0x0100000000000000] } = .next t) ∧
    (∃ t, step { treeState with err := 3, hostIn := [.hardwareReset] } = .next t) ∧
    (∃ t, step { treeState with err := 3, hostIn := [.command 0x0200000000000000] } = .next t) ∧
    ¬ ∃ rest, ({ treeState with err := 3, hostIn := [.command 0x0200000000000000] } : State).hostIn =
        .hardwareReset :: rest ∨
      ({ treeState with err := 3, hostIn := [.command 0x0200000000000000] } : State).hostIn =
        .command 0x0100000000000000 :: rest := by
  refine ⟨⟨_, eq_of_answers test_build_malformed, rfl⟩, ⟨_, rfl⟩, ⟨_, rfl⟩, ⟨_, rfl⟩, ?_⟩
  rintro ⟨rest, h | h⟩
  · injection h with h1 h2
    exact HostEvent.noConfusion h1
  · injection h with h1 h2
    injection h1 with h3
    exact absurd h3 (by decide)

/-- The second clause: a word with RESET's opcode that is not RESET's word. -/
theorem witness_ResetReleasesEverything :
    ({ codedState with err := 3, hostIn := [.command 0x0100000000000001] } : State).hostIn =
      .command 0x0100000000000001 :: [] ∧
    opField 0x0100000000000001 = 0x01 ∧ (0x0100000000000001 : Word) ≠ 0x0100000000000000 := ⟨rfl, by decide, by decide⟩

theorem witness_ReadsHaveNoSideEffect : (Instr.rdc 256 8).op ∈ [0x02, 0x13, 0x23, 0x31] ∧
    (Instr.rdc 256 8).wellFormed = true := by decide

theorem witness_CntCountsByte : State.reset.err = 0 ∧ State.reset.ph = .table ∧ (255 : Index).toNat ≤ 255 ∧
    State.reset.freqAt (255 : Index).toNat ≠ 0xFFFFFFFF ∧
    ({ State.reset with freq := [(255, 0xFFFFFFFE)] } : State).freqAt (255 : Index).toNat ≠ 0xFFFFFFFF := by decide

theorem witness_CeosCountsEndOfStream : tableState.err = 0 ∧ tableState.ph = .table ∧
    tableState.freqAt 256 ≠ 0xFFFFFFFF := by decide

theorem witness_CountOverflowFaults : State.reset.err = 0 ∧ State.reset.ph = .table ∧ (255 : Index).toNat ≤ 255 ∧
    ({ State.reset with freq := [(255, 0xFFFFFFFF)] } : State).freqAt (255 : Index).toNat = 0xFFFFFFFF ∧
    ({ State.reset with freq := [(256, 0xFFFFFFFF)] } : State).freqAt 256 = 0xFFFFFFFF := by decide

theorem witness_LdfLoadsEntry : tableState.err = 0 ∧ tableState.ph = .table ∧ (256 : Index).toNat ≤ 256 := by decide

theorem witness_LdfCommandsCommute : tableState.tablesWf = true ∧ tableState.err = 0 ∧ tableState.ph = .table ∧
    (0 : Index).toNat ≤ 256 ∧ (256 : Index).toNat ≤ 256 ∧ (0 : Index) ≠ 256 := by decide

theorem witness_RdfReadsEntry : (256 : Index).toNat ≤ 256 := by decide

theorem witness_FrequencyCompleteness : (∀ b, ([97, 97, 98] : List Byte).count b < 2 ^ 32) ∧
    ([Instr.ceos, .cnt 98, .cnt 97, .cnt 97].Perm (expandCnts [97, 97, 98] ++ [.ceos])) :=
  ⟨fun _ => lt_of_le_of_lt List.count_le_length (by decide), by decide⟩

/-- Both clauses: a queue with a least entry, an empty queue. -/
theorem witness_QminIsLeastEntry : mergingState.qmin = some 98 ∧ tableState.qmin = none := by decide +kernel

/-- Both outcomes: more than one entry, and the end-of-stream entry alone. -/
theorem witness_QloadLoadsLeaves : tableState.err = 0 ∧ tableState.ph = .table ∧ tableState.freqAt 256 ≠ 0 ∧
    tableState.numEntries = 3 ∧ singleTable.err = 0 ∧ singleTable.ph = .table ∧ singleTable.freqAt 256 ≠ 0 ∧
    singleTable.numEntries = 1 := by decide +kernel

theorem witness_MalformedTableFaults : State.reset.err = 0 ∧ State.reset.ph = .table ∧ State.reset.freqAt 256 = 0 := by
  decide

/-- A merge that is not the last, and the last one. -/
theorem witness_MergeJoinsTwoLeastEntries : (mergingState.Inv ∧ mergingState.err = 0 ∧ mergingState.ph = .merging) ∧
    (lastMergeState.Inv ∧ lastMergeState.err = 0 ∧ lastMergeState.ph = .merging ∧ lastMergeState.qn = 2) :=
  ⟨⟨mergingState_inv, rfl, rfl⟩, lastMergeState_inv, rfl, rfl, rfl⟩

theorem witness_BuildCompletesTree : (tableState.Inv ∧ tableState.err = 0 ∧ tableState.ph = .table ∧
      tableState.freqAt 256 ≠ 0) ∧ (singleTable.Inv ∧ singleTable.err = 0 ∧ singleTable.ph = .table ∧
      singleTable.freqAt 256 ≠ 0) ∧ (mergingState.Inv ∧ mergingState.err = 0 ∧ mergingState.ph = .merging) :=
  ⟨⟨tableState_inv, rfl, rfl, by decide⟩, ⟨singleTable_inv, rfl, rfl, by decide⟩, mergingState_inv, rfl, rfl⟩

theorem witness_BuildEqualsQloadAndMerges : (tableState.Inv ∧ tableState.err = 0 ∧ tableState.ph = .table ∧
      tableState.freqAt 256 ≠ 0) ∧ (lastMergeState.Inv ∧ lastMergeState.err = 0 ∧ lastMergeState.ph = .merging) :=
  ⟨⟨tableState_inv, rfl, rfl, by decide⟩, lastMergeState_inv, rfl, rfl⟩

/-- An empty slot, a leaf, an internal node. -/
theorem witness_RdnReadsNode : (512 : Index).toNat ≤ 512 ∧ (treeState.nodeAt (512 : Index).toNat).nv = false ∧
    (treeState.nodeAt (256 : Index).toNat).nv = true ∧ (treeState.nodeAt (258 : Index).toNat).nv = true := by decide

theorem witness_TreeIsFunctionOfTable : tableState.Inv ∧ ({ tableState with bitIn := [true] } : State).Inv ∧
    tableState.err = 0 ∧ tableState.ph = .table ∧ tableState.freqAt 256 ≠ 0 ∧
    ∀ i, i ≤ 256 → tableState.freqAt i = ({ tableState with bitIn := [true] } : State).freqAt i :=
  ⟨tableState_inv, inv_bitIn tableState_inv _, rfl, rfl, by decide, fun _ _ => rfl⟩

theorem witness_CompleteTreeHoldsTable : (treeState.Inv ∧ treeState.hasTree) ∧
    (codedState.Inv ∧ codedState.hasTree) ∧ (singleTree.Inv ∧ singleTree.hasTree) :=
  ⟨⟨treeState_inv, .inl rfl⟩, ⟨codedState_inv, .inr rfl⟩, singleTree_inv, .inl rfl⟩

theorem witness_DeriveRecordsPaths : (treeState.Inv ∧ treeState.err = 0 ∧ treeState.ph = .tree ∧
      treeState.freqAt 256 ≠ 0 ∧ treeState.freqAt 0 = 0) ∧
    (singleTree.Inv ∧ singleTree.err = 0 ∧ singleTree.ph = .tree) :=
  ⟨⟨treeState_inv, rfl, rfl, by decide, by decide⟩, singleTree_inv, rfl, rfl⟩

/-- Both clauses: phase 3, with two symbols that have codes and one that has none; phase 2. -/
theorem witness_CodesArePrefixFree : (codedState.Inv ∧ codedState.ph = .coded ∧ (98 : Nat) ≠ 256 ∧
      (codedState.codeAt 98).cv = true ∧ (codedState.codeAt 256).cv = true ∧ codedState.freqAt 256 ≠ 0 ∧
      codedState.freqAt 0 = 0) ∧
    (treeState.Inv ∧ treeState.ph ≠ .coded) :=
  ⟨⟨codedState_inv, rfl, by decide, by decide, by decide, by decide, by decide⟩, treeState_inv, by decide⟩

/-- Every clause: no code, the last code-bit slice, the length. -/
theorem witness_RdcReadsCode : (256 : Index).toNat ≤ 256 ∧ (8 : Sel).toNat ≤ 8 ∧ (7 : Sel).toNat ≤ 7 ∧
    (codedState.codeAt (256 : Index).toNat).cv = true ∧ (codedState.codeAt (0 : Index).toNat).cv = false := by decide

theorem witness_EncWritesCode : codedState.err = 0 ∧ codedState.ph = .coded ∧ (97 : Index).toNat ≤ 255 ∧
    (codedState.codeAt (97 : Index).toNat).cv = true ∧ (codedState.codeAt (97 : Index).toNat).clen.toNat ≤ 256 ∧
    codedState.Inv := ⟨rfl, rfl, by decide, by decide, by decide, codedState_inv⟩

theorem witness_EncWithoutCodeFaults : codedState.err = 0 ∧ codedState.ph = .coded ∧ (255 : Index).toNat ≤ 255 ∧
    (codedState.codeAt (255 : Index).toNat).cv = false := by decide

theorem witness_EeosWritesEndOfStreamCode : (codedState.Inv ∧ codedState.err = 0 ∧ codedState.ph = .coded) ∧
    (singleCoded.Inv ∧ singleCoded.err = 0 ∧ singleCoded.ph = .coded ∧ singleCoded.root = 256) :=
  ⟨⟨codedState_inv, rfl, rfl⟩, singleCoded_inv, rfl, rfl, rfl⟩

/-- The decoder at node 257 with one bit on the port. -/
def atInner (b : Bool) : State := { treeState with cur := 257, bitIn := [b] }

theorem atInner_inv (b : Bool) : (atInner b).Inv := by
  cases b <;>
    exact inv_moved treeState_inv (.inl rfl) (by decide) (by decide) (fun _ => by decide) rfl rfl rfl rfl rfl rfl rfl
      rfl rfl

/-- Every clause, at its edge: from the root the bit 1 leads to node 257, from there 1 to the end-of-stream leaf and 0 to
the leaf of a byte. -/
theorem witness_DstepWalksOneLink :
    (({ treeState with bitIn := [true] } : State).Inv ∧ treeState.err = 0 ∧ treeState.hasTree ∧ treeState.dt = false ∧
      257 ≤ (treeState.nodeAt treeState.cur.toNat).one.toNat) ∧
    ((atInner true).Inv ∧ (atInner true).dt = false ∧ ((atInner true).nodeAt (atInner true).cur.toNat).one = 256) ∧
    ((atInner false).Inv ∧ (atInner false).bitIn = false :: [] ∧
      ((atInner false).nodeAt (atInner false).cur.toNat).zero.toNat ≤ 255) :=
  ⟨⟨inv_bitIn treeState_inv _, rfl, .inl rfl, rfl, by decide⟩, ⟨atInner_inv _, rfl, by decide⟩, atInner_inv _, rfl,
    by decide⟩

theorem witness_DecoderAtItsEnds : (singleTree.err = 0 ∧ singleTree.hasTree ∧ singleTree.dt = true) ∧
    (treeState.err = 0 ∧ treeState.hasTree ∧ treeState.dt = false ∧ treeState.bitIn = []) :=
  ⟨⟨rfl, .inl rfl, rfl⟩, rfl, .inl rfl, rfl, rfl⟩

theorem witness_DecodeCompletes : (atInner true).Inv ∧ (atInner true).err = 0 ∧ (atInner true).hasTree :=
  ⟨atInner_inv _, rfl, .inl rfl⟩

theorem witness_DecodeEqualsRepeatedDstep : (atInner false).Inv ∧ (atInner false).err = 0 ∧ (atInner false).hasTree :=
  ⟨atInner_inv _, rfl, .inl rfl⟩

/-- A compressing state with codes and a decoder in phase 2 with the same tree; and the single-leaf pair. -/
theorem witness_DecodingUndoesEncoding :
    (codedState.Inv ∧ codedState.ph = .coded ∧ (∀ b ∈ ([97, 98] : List Byte), codedState.freqAt b.toNat ≠ 0) ∧
      ({ treeState with bitIn := codedState.codeStream [97, 98] ++ [true] } : State).Inv ∧ treeState.err = 0 ∧
      treeState.hasTree ∧ treeState.cur = treeState.root ∧ treeState.root = codedState.root ∧
      ∀ i, treeState.nodeAt i = codedState.nodeAt i) ∧
    (singleCoded.Inv ∧ singleCoded.ph = .coded ∧ ({ singleTree with bitIn := singleCoded.codeStream [] } : State).Inv ∧
      singleTree.err = 0 ∧ singleTree.hasTree ∧ singleTree.cur = singleTree.root ∧
      singleTree.root = singleCoded.root ∧ ∀ i, singleTree.nodeAt i = singleCoded.nodeAt i) :=
  ⟨⟨codedState_inv, rfl, by decide, inv_bitIn treeState_inv _, rfl, .inl rfl, rfl, rfl, fun _ => rfl⟩,
    singleCoded_inv, rfl, inv_bitIn singleTree_inv _, rfl, .inl rfl, rfl, rfl, fun _ => rfl⟩

theorem witness_OnlyNamedCommandsWrite : (∃ t, exec .dstep { treeState with cur := 257, bitIn := [true] } = .next t) ∧
    Instr.dstep.op ∉ [0x10, 0x11, 0x12, 0x01] ∧ Instr.dstep.op ∉ [0x20, 0x21, 0x22, 0x01] ∧
    Instr.eeos.op ∉ [0x20, 0x21, 0x22, 0x50, 0x51, 0x01] ∧ Instr.dstep.op ∉ [0x30, 0x01] ∧
    Instr.dstep.op ∉ [0x20, 0x21, 0x22, 0x30, 0x01] :=
  ⟨⟨_, dstep_end⟩, by decide, by decide, by decide, by decide, by decide⟩

theorem witness_TableIsReadOnlyAfterPhaseZero : treeState.ph ≠ .table ∧ ∃ t, step treeState = .next t ∧
    t.ph ≠ .table := ⟨by decide, _, rfl, by decide⟩

theorem witness_PhaseOnlyMovesForward : (∃ t, exec .derive treeState = .next t ∧ t.ph ≠ treeState.ph) ∧
    ∃ t, step { treeState with hostIn := [.hardwareReset] } = .next t ∧ t.ph ≠ treeState.ph :=
  ⟨⟨_, derive_runs, by decide⟩, _, rfl, by decide⟩

/-- A step that presents neither an encoding nor a decoding command. -/
theorem witness_OutputsAreAppendOnly :
    (∃ t, step { codedState with hostIn := [.positionBits [true]] } = .next t) ∧
    ∀ ops, ¬ ({ codedState with hostIn := [.positionBits [true]] } : State).presents ops :=
  ⟨⟨_, rfl⟩, fun _ ⟨_, _, _, h, _⟩ => by injection h with h1 h2; exact HostEvent.noConfusion h1⟩

/-- Both clauses: DSTEP, another command, a hardware reset. -/
theorem witness_BitsAreReadFromTheFront :
    (∃ t, exec .dstep { treeState with cur := 257, bitIn := [true] } = .next t) ∧
    (∃ t, exec .derive treeState = .next t ∧ Instr.derive ≠ .dstep ∧ Instr.derive ≠ .decode) ∧
    ∃ t, step { treeState with bitIn := [true], hostIn := [.hardwareReset] } = .next t :=
  ⟨⟨_, dstep_end⟩, ⟨_, derive_runs, by decide, by decide⟩, _, rfl⟩

theorem witness_StepKeepsInvariant : ({ codedState with hostIn := [.command 0x0100000000000000] } : State).Inv ∧
    ∃ t, step { codedState with hostIn := [.command 0x0100000000000000] } = .next t :=
  ⟨inv_of_same codedState_inv ⟨by decide, fun _ => rfl⟩ rfl rfl rfl rfl rfl rfl rfl rfl rfl, _, rfl⟩

theorem witness_StepAlwaysCompletes : mergingState.Inv ∧ codedState.Inv := ⟨mergingState_inv, codedState_inv⟩

theorem witness_StepKeepsTablesCanonical : codedState.tablesWf = true ∧ ∃ t, step codedState = .next t :=
  ⟨by decide, _, rfl⟩

theorem witness_CompressNeverFaults : ∀ b, ([97, 97, 98] : List Byte).count b < 2 ^ 32 :=
  witness_FrequencyCompleteness.1

/-- The inner hypotheses: whatever the compress side wrote, there are entries and a machine that hold it. -/
theorem witness_DecompressUndoesCompress : (∀ b, ([97, 97, 98] : List Byte).count b < 2 ^ 32) ∧
    ∀ (reads : List Response) (bits rest : List Bool), ∃ (entries : List (Index × Count)) (u : State),
      entries.Perm (persistedEntries reads) ∧ u.bitIn = bits ++ rest :=
  ⟨witness_FrequencyCompleteness.1, fun reads bits rest =>
    ⟨persistedEntries reads, { State.reset with bitIn := bits ++ rest }, List.Perm.refl _, rfl⟩⟩

end Sys2Proof.Tests
end

section
namespace Sys2Proof.Machine

/-! ## `qmin()` in the order the statements write (R12) -/

/-- The order the queue computes with is the order of R8 that the statements name. -/
theorem leavesBefore_iff_goesBefore (s : State) (i j : Nat) : s.leavesBefore i j = true ↔ s.goesBefore i j :=
  leavesBefore_iff s i j

/-- `qmin()` is `a` exactly when `a` is a queue entry that goes before every other one: the order is total and
asymmetric, so there is one such entry. -/
theorem qmin_eq_some_iff {s : State} {a : Nat} : s.qmin = some a ↔ a < 513 ∧ (s.nodeAt a).inq = true ∧
    ∀ c, c < 513 → (s.nodeAt c).inq = true → c ≠ a → s.goesBefore a c := by
  constructor
  · intro h
    obtain ⟨ha, hq, hleast⟩ := qmin_some h
    exact ⟨ha, hq, fun c hc hcq hca =>
      (leavesBefore_iff_goesBefore s a c).1 ((hleast c hc hcq).resolve_left hca)⟩
  · rintro ⟨ha, hq, hleast⟩
    refine qmin_eq_some ha hq fun c hc hcq => ?_
    by_cases hca : c = a
    · exact .inl hca
    · exact .inr ((leavesBefore_iff_goesBefore s a c).2 (hleast c hc hcq hca))

/-- `qmin()` is undefined exactly when no slot is in the queue. -/
theorem qmin_eq_none_iff {s : State} : s.qmin = none ↔ ¬ ∃ c, c < 513 ∧ (s.nodeAt c).inq = true := by
  constructor
  · rintro h ⟨c, hc, hcq⟩
    exact Bool.false_ne_true ((qmin_none h c hc).symm.trans hcq)
  · intro hempty
    cases h : s.qmin with
    | none => rfl
    | some m =>
      obtain ⟨hm, hmq, _⟩ := qmin_some h
      exact absurd ⟨m, hm, hmq⟩ hempty

/-- Settles O28: the two answers of `qmin()`, each characterised both ways. -/
theorem qminIsLeastEntry : Obligations.QminIsLeastEntry :=
  fun _ _ => ⟨qmin_eq_some_iff, qmin_eq_none_iff⟩

end Sys2Proof.Machine
end

section
/-!
SUPPORT. Every command and every step keeps the invariant and completes; the reset state meets it (R36 to R43).
-/

namespace Sys2Proof.Machine

/-- What the host will do is no part of the invariant. -/
theorem inv_hostIn {s : State} (h : s.Inv) (events : List HostEvent) : ({ s with hostIn := events } : State).Inv :=
  inv_of_same h ⟨h.fault.errRange, h.fault.ecmdClear⟩ rfl rfl rfl rfl rfl rfl rfl rfl rfl

/-- Every command completes from a state that meets the invariant, and keeps it. -/
theorem exec_spec {s : State} (h : s.Inv) (i : Instr) : ∃ t, exec i s = .next t ∧ t.Inv := by
  cases i with
  | reset => exact execReset_spec h
  | rdst sel => exact execRdst_spec h sel
  | cnt byte => exact execCnt_spec h byte
  | ceos => exact execCeos_spec h
  | ldf sym count => exact execLdf_spec h sym count
  | rdf sym => exact execRdf_spec h sym
  | qload => exact execQload_spec h
  | merge => exact execMerge_spec h
  | build => exact execBuild_spec h
  | rdn node sel => exact execRdn_spec h node sel
  | derive => exact execDerive_spec h
  | rdc sym sel => exact execRdc_spec h sym sel
  | enc byte => exact execEnc_spec h byte
  | eeos => exact execEeos_spec h
  | dstep => exact execDstep_spec h
  | decode => exact execDecode_spec h

/-- An illegal word is refused or faults, and either keeps the invariant (R43, R75). -/
theorem illegalWord_spec {s : State} (h : s.Inv) (w : Word) : ∃ t, illegalWord w s = .next t ∧ t.Inv := by
  rcases illegalWord_cases w s with ⟨_, _, e⟩ | ⟨_, e⟩
  · exact ⟨_, e, inv_halt h⟩
  · exact ⟨_, e, inv_raise h _ _⟩

/-- Every step completes from a state that meets the invariant, and keeps it (R201). -/
theorem step_spec {s : State} (h : s.Inv) : ∃ t, step s = .next t ∧ t.Inv := by
  unfold step
  split
  · exact ⟨_, rfl, h⟩
  · exact ⟨_, rfl, inv_release _⟩
  · next bits rest _ => exact ⟨_, rfl, inv_bitIn (inv_hostIn h rest) bits⟩
  · split
    · exact exec_spec (inv_hostIn h _) _
    · exact illegalWord_spec (inv_hostIn h _) _

/-- Settles O54: each step from a state of the invariant answers one state, which meets it. -/
theorem stepKeepsInvariant : Obligations.StepKeepsInvariant := by
  intro s t h ht
  obtain ⟨u, hu, hinv⟩ := step_spec h
  exact next_inj.1 (hu.symm.trans ht) ▸ hinv

/-- Settles O53: the reset state is what a release of itself leaves. -/
theorem invariantAtReset : Obligations.InvariantAtReset := inv_release State.reset

end Sys2Proof.Machine
end

section
/-!
SUPPORT. What the invariant says of a complete tree and of a derived code table (R40, R42).
-/

namespace Sys2Proof.Machine

section CompleteTree

variable {s : State}

/-- In a complete tree the nodes reached from the root are the valid ones (R40). -/
theorem valid_iff_reachableFromRoot (h : s.Inv) (ht : s.hasTree) (i : Nat) :
    (s.nodeAt i).nv = true ↔ s.reachableFromRoot i := by
  constructor
  · exact reachable h ht
  · rintro ⟨path, hpath⟩
    have hroot : (s.nodeAt s.root.toNat).nv = true := h.queue.valid _ (h.tree ht).root
    exact (follow_valid (h.nodes (hasTree_ne_table ht)) path hroot hpath).1

/-- The valid leaves are the table's symbols (R38, R39). -/
theorem valid_leaf_iff (h : s.Inv) (hp : s.ph ≠ .table) (i : Nat) :
    ((s.nodeAt i).nv = true ∧ (s.nodeAt i).isLeaf = true) ↔ (i ≤ 256 ∧ s.freqAt i ≠ 0) := by
  constructor
  · rintro ⟨hv, hleaf⟩
    rw [isLeaf_of_valid (h.nodes hp) hv, decide_eq_true_iff] at hleaf
    exact ⟨by omega, ((h.loaded hp).leaves i hleaf).1 hv⟩
  · rintro ⟨hi, hf⟩
    have hv := ((h.loaded hp).leaves i (by omega)).2 hf
    exact ⟨hv, (isLeaf_of_valid (h.nodes hp) hv).trans (decide_eq_true (by omega))⟩

/-- The root of a complete tree is a node slot (R40). -/
theorem root_ne_nil (h : s.Inv) (ht : s.hasTree) : s.root ≠ 0x3FF := by
  have hlt := lt_of_valid h.wf (h.queue.valid _ (h.tree ht).root)
  intro hnil
  rw [hnil] at hlt
  exact absurd hlt (by decide)

/-- Bit `j` of a code as a sequence is bit `j` of its store (R32, R130). -/
theorem getElem?_codeBits (c : CodeEntry) {j : Nat} (hj : j < c.bits.length) :
    c.bits[j]? = some (c.cbits.getLsbD j) := by
  rw [length_codeBits] at hj
  simp [CodeEntry.bits, hj]

/-- Only the 257 symbols have codes (R50). -/
theorem lt_of_coded (h : s.Inv) {i : Nat} (hc : (s.codeAt i).cv = true) : i < 257 := by
  by_contra hi
  rw [codeAt_of_ge h.wf (by omega)] at hc
  exact Bool.noConfusion hc

end CompleteTree

/-- Settles O36: the queue, the reachable nodes and the leaves of a complete tree, each characterised above. -/
theorem completeTreeHoldsTable : Obligations.CompleteTreeHoldsTable := by
  intro s h ht
  refine ⟨(h.tree ht).qn, inq_iff_root h ht, root_ne_nil h ht, valid_iff_reachableFromRoot h ht, fun i => ?_,
    root_weight h ht⟩
  rw [← valid_iff_reachableFromRoot h ht]
  exact valid_leaf_iff h (hasTree_ne_table ht) i

/-- Settles O38: codes are paths to leaves, and no path goes on from a leaf. -/
theorem codesArePrefixFree : Obligations.CodesArePrefixFree := by
  intro s h
  refine ⟨fun hp => ?_, h.noCodes⟩
  have hC := h.codes hp
  have hN : s.NodesInv := h.nodes (hasTree_ne_table (.inr hp))
  refine ⟨fun k hk => hC.coded k (by omega), fun k hk hf => ?_, fun j k hjk hj hk hprefix => ?_⟩
  · have hcv := (hC.coded k (by omega)).2 hf
    exact ⟨length_codeBits _, fun j => getElem?_codeBits _, hC.path k hcv⟩
  · exact hjk (prefix_free hN (lt_of_coded h hj) (hC.path j hj) (hC.path k hk) hprefix)

end Sys2Proof.Machine
end

section
/-!
SUPPORT. What a command writes, whatever the state: the inversion lemma of `exec` by the groups of commands that write the
same elements (the columns "written by" of R21, R27, R29, R33 to R35 and R50).
-/

namespace Sys2Proof.Machine

/-! ## What the tree builder leaves alone (R102, R103) -/

section SameButTree

variable {s t : State} (h : s.SameButTree t)
include h

theorem State.SameButTree.err_eq : t.err = s.err := let ⟨he, _⟩ := h; he

theorem State.SameButTree.ecmd_eq : t.ecmd = s.ecmd := let ⟨_, he, _⟩ := h; he

theorem State.SameButTree.freq_eq : t.freq = s.freq := let ⟨_, _, he, _⟩ := h; he

theorem State.SameButTree.codes_eq : t.codes = s.codes := let ⟨_, _, _, he, _⟩ := h; he

theorem State.SameButTree.bitOut_eq : t.bitOut = s.bitOut := let ⟨_, _, _, _, he, _⟩ := h; he

theorem State.SameButTree.byteOut_eq : t.byteOut = s.byteOut := let ⟨_, _, _, _, _, he, _⟩ := h; he

theorem State.SameButTree.bitIn_eq : t.bitIn = s.bitIn := let ⟨_, _, _, _, _, _, he, _⟩ := h; he

theorem State.SameButTree.rspOut_eq : t.rspOut = s.rspOut := let ⟨_, _, _, _, _, _, _, _, he⟩ := h; he

end SameButTree

/-! ## The groups of commands -/

/-- The elements a command `i` that takes `s` to a next state has written, group by group: an element the constructor does
not name is unchanged. -/
inductive Writes (i : Instr) (s : State) : State → Prop
  /-- A response only: the reads, a refused command, DSTEP in the terminal state. -/
  | response (c : RspCode) (d : BitVec 64) : Writes i s (s.respond c d)
  /-- The fault primitive only (R170). -/
  | fault (f : FaultCode) : Writes i s (s.raise f (encode i))
  /-- RESET (R150). -/
  | reset (hi : i = .reset) : Writes i s (s.release.respond .ok 0)
  /-- One count, in phase 0 (R90 to R92). -/
  | count (hi : i.op ∈ [0x10, 0x11, 0x12]) (hp : s.ph = .table) (k : Nat) (n : Count) (d : BitVec 64) :
      Writes i s ((s.setFreq k n).respond .ok d)
  /-- The queue, the arena and the registers the tree builder sets (R102 to R104). -/
  | tree (hi : i.op ∈ [0x20, 0x21, 0x22]) (u : State) (hu : s.SameButTree u) (d : BitVec 64) :
      Writes i s (u.respond .ok d)
  /-- The code table (R121). -/
  | codes (hi : i = .derive) (codes : Table CodeEntry) (d : BitVec 64) :
      Writes i s (({ s with codes := codes, ph := .coded } : State).respond .ok d)
  /-- Bits on the bit-out port (R131, R132). -/
  | bits (hi : i.op ∈ [0x40, 0x41]) (bits : List Bool) (d : BitVec 64) : Writes i s ((s.writeBits bits).respond .ok d)
  /-- The decoder's position and the ports it reads and writes (R141, R142). -/
  | decoded (hi : i = .dstep ∨ i = .decode) (used rest : List Bool) (bytes : List Byte) (c : Index) (e : Bool)
      (d : BitVec 64) (hb : s.bitIn = used ++ rest) (hbytes : bytes.length ≤ used.length)
      (hused : i = .dstep → used.length ≤ 1) :
      Writes i s (({ s with bitIn := rest, byteOut := s.byteOut ++ bytes, cur := c, dt := e } : State).respond .ok d)
  /-- The steps DECODE has done when the bits run out, and the fault (R43, R142). -/
  | truncated (hi : i = .decode) (used rest : List Bool) (bytes : List Byte) (c : Index) (e : Bool)
      (hb : s.bitIn = used ++ rest) (hbytes : bytes.length ≤ used.length) :
      Writes i s (({ s with bitIn := rest, byteOut := s.byteOut ++ bytes, cur := c, dt := e } : State).raise .trunc
        (encode i))

/-- A command that has passed the front end writes what its group writes. -/
theorem writes_of_ownEffect {i : Instr} {s t : State} (hp : legalPhase i s.ph = true) (h : OwnEffect s t i) :
    Writes i s t := by
  cases i with
  | reset => exact h ▸ .reset rfl
  | rdst sel | rdf sym | rdn node sel | rdc sym sel =>
    obtain ⟨d, rfl⟩ := h
    exact .response _ _
  | cnt byte =>
    obtain rfl | ⟨n, d, rfl⟩ := h
    · exact .fault _
    · exact .count (by simp [Instr.op]) (eq_of_beq hp) _ _ _
  | ceos =>
    obtain rfl | ⟨n, d, rfl⟩ := h
    · exact .fault _
    · exact .count (by decide) (eq_of_beq hp) _ _ _
  | ldf sym n => exact h ▸ .count (by simp [Instr.op]) (eq_of_beq hp) _ _ _
  | qload =>
    obtain rfl | ⟨u, d, hu, rfl⟩ := h
    · exact .fault _
    · exact .tree (by decide) _ (sameButTree_loadQueue hu) _
  | merge =>
    obtain ⟨a, b, d, -, -, rfl⟩ := h
    exact .tree (by decide) _ (sameButTree_joined s a b) _
  | build =>
    obtain ⟨-, rfl⟩ | ⟨u, v, d, -, -, hv, -, rfl⟩ := h
    · exact .fault _
    · exact .tree (by decide) _ hv _
  | derive =>
    obtain ⟨codes, d, -, rfl⟩ := h
    exact .codes rfl _ _
  | enc byte =>
    obtain rfl | ⟨bits, d, rfl⟩ := h
    · exact .fault _
    · exact .bits (by simp [Instr.op]) _ _
  | eeos =>
    obtain ⟨bits, d, rfl⟩ := h
    exact .bits (by decide) _ _
  | dstep =>
    obtain ⟨d, rfl⟩ | rfl | ⟨b, rest, c, e, bytes, d, hb, hlen, rfl⟩ := h
    · exact .response _ _
    · exact .fault _
    · exact .decoded (.inl rfl) [b] rest bytes c e d hb hlen fun _ => Nat.le_refl 1
  | decode =>
    obtain ⟨used, rest, bytes, c, e, hb, hlen, ⟨d, rfl⟩ | ⟨-, -, rfl⟩⟩ := h
    · exact .decoded (.inr rfl) used rest bytes c e d hb hlen fun hi => Instr.noConfusion hi
    · exact .truncated rfl used rest bytes c e hb hlen

/-- Whatever the front end makes of a command, only the elements of its group are written. -/
theorem exec_writes {i : Instr} {s t : State} (h : exec i s = .next t) : Writes i s t := by
  obtain ⟨-, -, rfl⟩ | ⟨-, -, rfl⟩ | ⟨-, -, -, rfl⟩ | ⟨-, -, hp, ho⟩ := exec_next h
  · exact .response _ _
  · exact .fault _
  · exact .fault _
  · exact writes_of_ownEffect hp ho

/-- An illegal word writes no more than a response and the fault registers (R75, R171). -/
theorem illegalWord_next {w : Word} {s t : State} (h : illegalWord w s = .next t) :
    t = s.halt ∨ t = s.raise .illegal w := by
  obtain ⟨-, -, e⟩ | ⟨-, e⟩ := illegalWord_cases w s
  · exact .inl (next_inj.1 (h.symm.trans e))
  · exact .inr (next_inj.1 (h.symm.trans e))

/-! ## The elements one by one -/

section Elements

variable {i : Instr} {s t : State}

theorem Writes.freq_eq (h : Writes i s t) (hi : i.op ∉ [0x10, 0x11, 0x12, 0x01]) : t.freq = s.freq := by
  cases h with
  | reset hi' => subst hi'; exact absurd (by decide) hi
  | count hi' => exact absurd (List.mem_append_left [0x01] hi') hi
  | tree _ u hu => exact hu.freq_eq
  | _ => simp

theorem Writes.codes_eq (h : Writes i s t) (hi : i.op ∉ [0x30, 0x01]) : t.codes = s.codes := by
  cases h with
  | reset hi' | codes hi' => subst hi'; exact absurd (by decide) hi
  | tree _ u hu => exact hu.codes_eq
  | _ => simp

theorem Writes.tree_eq (h : Writes i s t) (hi : i.op ∉ [0x20, 0x21, 0x22, 0x01]) :
    t.nodes = s.nodes ∧ t.root = s.root ∧ t.qn = s.qn ∧ t.nint = s.nint := by
  cases h with
  | reset hi' => subst hi'; exact absurd (by decide) hi
  | tree hi' => exact absurd (List.mem_append_left [0x01] hi') hi
  | _ => simp

theorem Writes.position_eq (h : Writes i s t) (hi : i.op ∉ [0x20, 0x21, 0x22, 0x50, 0x51, 0x01]) :
    t.cur = s.cur ∧ t.dt = s.dt := by
  cases h with
  | reset hi' | truncated hi' => subst hi'; exact absurd (by decide) hi
  | tree hi' => exact absurd (List.mem_append_left [0x50, 0x51, 0x01] hi') hi
  | decoded hi' => rcases hi' with rfl | rfl <;> exact absurd (by decide) hi
  | _ => simp

theorem Writes.ph_eq (h : Writes i s t) (hi : i.op ∉ [0x20, 0x21, 0x22, 0x30, 0x01]) : t.ph = s.ph := by
  cases h with
  | reset hi' | codes hi' => subst hi'; exact absurd (by decide) hi
  | tree hi' => exact absurd (List.mem_append_left [0x30, 0x01] hi') hi
  | _ => simp

end Elements

/-- Settles O48: the groups that write each element, one element at a time. -/
theorem onlyNamedCommandsWrite : Obligations.OnlyNamedCommandsWrite := fun _ _ _ h =>
  have hw := exec_writes h
  ⟨hw.freq_eq, hw.tree_eq, hw.position_eq, hw.codes_eq, hw.ph_eq⟩

end Sys2Proof.Machine
end

section
/-!
SUPPORT. The frequency table and the phase register along a step (R23, R29, R57).
-/

namespace Sys2Proof.Machine

/-- Counts are written in phase 0 and by RESET, which enters it (R29). -/
theorem Writes.freq_eq_of_ph_ne {i : Instr} {s t : State} (h : Writes i s t) (hs : s.ph ≠ .table)
    (ht : t.ph ≠ .table) : t.freq = s.freq := by
  cases h with
  | reset => exact absurd rfl ht
  | count _ hp => exact absurd hp hs
  | tree _ u hu => exact hu.freq_eq
  | _ => simp

/-- Settles O49, by the event the step takes. -/
theorem tableIsReadOnlyAfterPhaseZero : Obligations.TableIsReadOnlyAfterPhaseZero := by
  intro s t hs h ht
  obtain ⟨-, rfl⟩ | ⟨rest, -, rfl⟩ | ⟨bits, rest, -, rfl⟩ | ⟨w, rest, i, -, -, hx⟩ | ⟨w, rest, e, -, -, hx⟩ :=
    step_cases h
  · rfl
  · exact absurd rfl ht
  · rfl
  · exact (exec_writes hx).freq_eq_of_ph_ne hs ht
  · obtain rfl | rfl := illegalWord_next hx <;> simp

/-- The phase QLOAD enters depends on the number of table entries (R102). -/
theorem ph_of_loadQueue {s u : State} (h : s.loadQueue = some u) :
    (u.ph = .merging ∧ s.numEntries ≠ 1) ∨ (u.ph = .tree ∧ s.numEntries = 1) := by
  obtain ⟨-, ⟨hn, rfl⟩ | ⟨hn, rfl⟩⟩ := loadQueue_eq_some h
  · exact .inr ⟨rfl, hn⟩
  · exact .inl ⟨rfl, hn⟩

/-- The moves of `PH` (the column "entered by" of R23). -/
theorem phase_moves {i : Instr} {s t : State} (hp : legalPhase i s.ph = true) (h : OwnEffect s t i)
    (hne : t.ph ≠ s.ph) :
    (i = .reset ∧ t.ph = .table) ∨
    (i = .qload ∧ s.ph = .table ∧ ((t.ph = .merging ∧ s.numEntries ≠ 1) ∨ (t.ph = .tree ∧ s.numEntries = 1))) ∨
    (i = .merge ∧ s.ph = .merging ∧ t.ph = .tree) ∨
    (i = .build ∧ (s.ph = .table ∨ s.ph = .merging) ∧ t.ph = .tree) ∨
    (i = .derive ∧ s.ph = .tree ∧ t.ph = .coded) := by
  cases i with
  | reset => exact .inl ⟨rfl, h ▸ rfl⟩
  | qload =>
    obtain rfl | ⟨u, d, hu, rfl⟩ := h
    · exact absurd (ph_raise _ _ _) hne
    · have hph := ph_of_loadQueue hu
      exact .inr (.inl ⟨rfl, eq_of_beq hp, hph⟩)
  | merge =>
    obtain ⟨a, b, d, -, -, rfl⟩ := h
    have hm : s.ph = .merging := eq_of_beq hp
    exact .inr (.inr (.inl ⟨rfl, hm, (joined_ph hm a b).resolve_left fun hj => hne (hj.trans hm.symm)⟩))
  | build =>
    obtain ⟨-, rfl⟩ | ⟨u, v, d, hu, -, -, hv, rfl⟩ := h
    · exact absurd (ph_raise _ _ _) hne
    · exact .inr (.inr (.inr (.inl ⟨rfl, hu.imp And.left And.left, hv⟩)))
  | derive =>
    obtain ⟨codes, d, -, rfl⟩ := h
    exact .inr (.inr (.inr (.inr ⟨rfl, eq_of_beq hp, rfl⟩)))
  | _ => exact absurd ((writes_of_ownEffect hp h).ph_eq (by simp [Instr.op])) hne

/-- A command that changes the phase has passed the front end. -/
theorem ownEffect_of_ph_ne {i : Instr} {s t : State} (h : exec i s = .next t) (hne : t.ph ≠ s.ph) :
    legalPhase i s.ph = true ∧ OwnEffect s t i := by
  obtain ⟨-, -, rfl⟩ | ⟨-, -, rfl⟩ | ⟨-, -, -, rfl⟩ | ⟨-, -, hp, ho⟩ := exec_next h
  · exact absurd (ph_halt s) hne
  · exact absurd (ph_raise _ _ _) hne
  · exact absurd (ph_raise _ _ _) hne
  · exact ⟨hp, ho⟩

/-- Settles O50: the moves of each command, and no other event of a step but a hardware reset changes the phase. -/
theorem phaseOnlyMovesForward : Obligations.PhaseOnlyMovesForward := by
  refine ⟨rfl, rfl, rfl, rfl, fun i s t h hne => ?_, fun s t h hne => ?_⟩
  · obtain ⟨hp, ho⟩ := ownEffect_of_ph_ne h hne
    exact phase_moves hp ho hne
  · obtain ⟨-, rfl⟩ | ⟨rest, hh, rfl⟩ | ⟨bits, rest, -, rfl⟩ | ⟨w, rest, i, hh, hd, -⟩ | ⟨w, rest, e, -, -, hx⟩ :=
      step_cases h
    · exact absurd rfl hne
    · exact .inr ⟨rest, hh, rfl⟩
    · exact absurd rfl hne
    · exact .inl ⟨w, rest, i, hh, hd⟩
    · obtain rfl | rfl := illegalWord_next hx <;> simp at hne

end Sys2Proof.Machine
end

section
/-!
SUPPORT. The port histories along a step (R33 to R35).
-/

namespace Sys2Proof.Machine

section Ports

variable {i : Instr} {s t : State}

theorem Writes.bitOut_eq (h : Writes i s t) :
    ∃ bits, t.bitOut = s.bitOut ++ bits ∧ (i.op ∉ [0x40, 0x41] → bits = []) := by
  cases h with
  | bits hi bits => exact ⟨bits, rfl, fun hi' => absurd hi hi'⟩
  | tree _ u hu => exact ⟨[], by simp [hu.bitOut_eq], fun _ => rfl⟩
  | _ => exact ⟨[], by simp, fun _ => rfl⟩

theorem Writes.byteOut_eq (h : Writes i s t) :
    ∃ bytes, t.byteOut = s.byteOut ++ bytes ∧ (i.op ∉ [0x50, 0x51] → bytes = []) := by
  cases h with
  | decoded hi _ _ bytes =>
    refine ⟨bytes, rfl, fun hi' => absurd ?_ hi'⟩
    rcases hi with rfl | rfl <;> decide
  | truncated hi _ _ bytes => exact ⟨bytes, by simp, fun hi' => absurd (by subst hi; decide) hi'⟩
  | tree _ u hu => exact ⟨[], by simp [hu.byteOut_eq], fun _ => rfl⟩
  | _ => exact ⟨[], by simp, fun _ => rfl⟩

theorem Writes.rspOut_prefix (h : Writes i s t) : s.rspOut <+: t.rspOut := by
  cases h with
  | tree _ u hu => simp [hu.rspOut_eq]
  | _ => simp

/-- The decoder reads a bit for each byte it writes; no other command reads any (R35). -/
theorem Writes.bitIn_eq (h : Writes i s t) :
    ∃ used, s.bitIn = used ++ t.bitIn ∧ t.byteOut.length ≤ s.byteOut.length + used.length ∧
      (i = .dstep → used.length ≤ 1) ∧ (i ≠ .dstep → i ≠ .decode → used = []) := by
  cases h with
  | decoded hi used _ _ _ _ _ hb hbytes hused =>
    refine ⟨used, hb, by simpa using hbytes, hused, fun h1 h2 => ?_⟩
    exact absurd hi (not_or.2 ⟨h1, h2⟩)
  | truncated hi used _ _ _ _ hb hbytes =>
    exact ⟨used, by simpa using hb, by simpa using hbytes, fun hi' => Instr.noConfusion (hi.symm.trans hi'),
      fun _ h2 => absurd hi h2⟩
  | tree _ u hu => exact ⟨[], by simp [hu.bitIn_eq], by simp [hu.byteOut_eq], by simp, fun _ _ => rfl⟩
  | _ => exact ⟨[], by simp, by simp, by simp, fun _ _ => rfl⟩

end Ports

/-- Settles O51, by the event the step takes. -/
theorem outputsAreAppendOnly : Obligations.OutputsAreAppendOnly := by
  refine ⟨rfl, rfl, fun s t h => ?_⟩
  obtain ⟨-, rfl⟩ | ⟨rest, -, rfl⟩ | ⟨bits, rest, -, rfl⟩ | ⟨w, rest, i, hh, hd, hx⟩ | ⟨w, rest, e, -, -, hx⟩ :=
    step_cases h
  · exact ⟨[], [], by simp⟩
  · exact ⟨[], [], by simp⟩
  · exact ⟨[], [], by simp⟩
  · have hw := exec_writes hx
    obtain ⟨bits, hbits, hbits'⟩ := hw.bitOut_eq
    obtain ⟨bytes, hbytes, hbytes'⟩ := hw.byteOut_eq
    have hpresents : ∀ {ops}, ¬ s.presents ops → i.op ∉ ops := fun hn hi => hn ⟨w, rest, i, hh, hd, hi⟩
    exact ⟨bits, bytes, hbits, hbytes, hw.rspOut_prefix, hbits' ∘ hpresents, hbytes' ∘ hpresents⟩
  · refine ⟨[], [], ?_⟩
    obtain rfl | rfl := illegalWord_next hx <;> simp

/-- A hardware reset releases everything (R190). -/
theorem step_hardwareReset {s : State} {rest : List HostEvent} (h : s.hostIn = .hardwareReset :: rest) :
    step s = .next { s with hostIn := rest }.release := by
  simp only [step, h]

/-- Settles O52: the bits each group of commands reads, and the hardware reset by its step. -/
theorem bitsAreReadFromTheFront : Obligations.BitsAreReadFromTheFront := by
  refine ⟨fun i s t h => (exec_writes h).bitIn_eq, fun s t rest hh h => ?_⟩
  obtain rfl := next_inj.1 ((step_hardwareReset hh).symm.trans h)
  rfl

end Sys2Proof.Machine
end

section
/-!
SUPPORT. The fault registers along a step (R24, R25, R168, R173).
-/

namespace Sys2Proof.Machine

/-- A first fault has been recorded: its code in `ERR`, the command word in `ECMD`, and answered (R170). -/
def State.RecordedFirst (s t : State) (w : Word) : Prop :=
  s.err = 0 ∧ ∃ f, t.rspOut = s.rspOut ++ [⟨.fault f, 0⟩] ∧ t.err = f.errBits ∧ t.ecmd = w

/-- The fault primitive records a fault or, when one is recorded, leaves both registers (R170). -/
theorem raise_faultRegisters (s : State) (f : FaultCode) (w : Word) :
    ((s.raise f w).err = s.err ∧ (s.raise f w).ecmd = s.ecmd) ∨ s.RecordedFirst (s.raise f w) w := by
  by_cases he : s.err = 0
  · refine .inr ⟨he, f, rspOut_raise s f w, ?_⟩
    rw [raise_first he]
    exact ⟨rfl, rfl⟩
  · rw [raise_later he]
    exact .inl ⟨rfl, rfl⟩

theorem Writes.faultRegisters {i : Instr} {s t : State} (h : Writes i s t) :
    (t.err = s.err ∧ t.ecmd = s.ecmd) ∨ (i = .reset ∧ t.err = 0 ∧ t.ecmd = 0) ∨ s.RecordedFirst t (encode i) := by
  cases h with
  | fault f => exact (raise_faultRegisters s f _).imp_right .inr
  | truncated _ _ rest bytes c e =>
    exact (raise_faultRegisters { s with bitIn := rest, byteOut := s.byteOut ++ bytes, cur := c, dt := e } _ _).imp_right
      .inr
  | reset hi => exact .inr (.inl ⟨hi, rfl, rfl⟩)
  | tree _ u hu => exact .inl ⟨hu.err_eq, hu.ecmd_eq⟩
  | _ => exact .inl ⟨rfl, rfl⟩

/-- A word that decodes is the word of its command (R75). -/
theorem eq_encode_of_decode {w : Word} {i : Instr} (h : decode w = .ok i) : w = encode i := by
  obtain ⟨-, hrsv, hsel, hidx, hdata, -⟩ := decode_ok h
  rw [encode, op_of_decode h, ← hsel, ← hidx, ← hdata, makeWord_fields w hrsv]

/-- The next event is a reset: the reset input, or the word of RESET (R173). -/
def State.nextIsReset (s : State) : Prop :=
  ∃ rest, s.hostIn = .hardwareReset :: rest ∨ s.hostIn = .command 0x0100000000000000 :: rest

/-- What a step does to the fault registers: nothing, clear them, or record a first fault. -/
theorem step_faultRegisters {s t : State} (h : step s = .next t) :
    (t.err = s.err ∧ t.ecmd = s.ecmd) ∨ (s.nextIsReset ∧ t.err = 0 ∧ t.ecmd = 0) ∨
      ∃ w rest, s.hostIn = .command w :: rest ∧ s.RecordedFirst t w := by
  obtain ⟨-, rfl⟩ | ⟨rest, hh, rfl⟩ | ⟨bits, rest, -, rfl⟩ | ⟨w, rest, i, hh, hd, hx⟩ | ⟨w, rest, e, hh, -, hx⟩ :=
    step_cases h
  · exact .inl ⟨rfl, rfl⟩
  · exact .inr (.inl ⟨⟨rest, .inl hh⟩, rfl, rfl⟩)
  · exact .inl ⟨rfl, rfl⟩
  · have hw := eq_encode_of_decode hd
    obtain hkept | ⟨rfl, hclear⟩ | hfirst := (exec_writes hx).faultRegisters
    · exact .inl hkept
    · have hword : w = 0x0100000000000000 := hw.trans rfl
      exact .inr (.inl ⟨⟨rest, .inr (hword ▸ hh)⟩, hclear⟩)
    · exact .inr (.inr ⟨w, rest, hh, hw ▸ hfirst⟩)
  · obtain rfl | rfl := illegalWord_next hx
    · exact .inl ⟨rfl, rfl⟩
    · exact (raise_faultRegisters { s with hostIn := rest } _ w).imp_right fun hf => .inr ⟨w, rest, hh, hf⟩

/-- Either reset clears the fault registers (R173). -/
theorem step_clears_of_nextIsReset {s t : State} (hr : s.nextIsReset) (h : step s = .next t) :
    t.err = 0 ∧ t.ecmd = 0 := by
  obtain ⟨rest, hh | hh⟩ := hr
  · obtain rfl := next_inj.1 ((step_hardwareReset hh).symm.trans h)
    exact ⟨rfl, rfl⟩
  · have hreset : step s = execReset { s with hostIn := rest } := by
      simp only [step, hh, show decode 0x0100000000000000 = .ok .reset from rfl, exec]
    obtain rfl := next_inj.1 ((execReset_run _).symm.trans (hreset.symm.trans h))
    exact ⟨rfl, rfl⟩

/-- Settles O16: a step that changes the fault registers clears them by a reset or records a first fault. -/
theorem firstFaultIsKept : Obligations.FirstFaultIsKept := by
  intro s t h
  refine ⟨fun he => ?_, fun hr => step_clears_of_nextIsReset hr h, fun he hr => ?_⟩
  · obtain ⟨herr, hecmd⟩ | ⟨-, herr, hecmd⟩ | ⟨w, rest, hh, -, f, hf⟩ := step_faultRegisters h
    · exact .inl ⟨herr.trans he, .inl hecmd⟩
    · exact .inl ⟨herr, .inr hecmd⟩
    · exact .inr ⟨w, rest, f, hh, hf⟩
  · obtain hkept | ⟨hreset, -⟩ | ⟨w, rest, -, hclear, -⟩ := step_faultRegisters h
    · exact hkept
    · exact absurd hreset hr
    · exact absurd hclear he

end Sys2Proof.Machine
end

section
/-!
SUPPORT. One step as the host sees it: the command a presented word decodes to (R70, R77), and what the four reads answer
(R56).
-/

namespace Sys2Proof.Machine

/-- Settles O7, by the branch of `step` for a word that decodes. -/
theorem stepRunsDecodedCommand : Obligations.StepRunsDecodedCommand := by
  intro s w rest i hh hd
  simp only [step, hh, hd]

/-- What a read answers in a state (R93, R105, R123, R151); 0 for the commands that are no reads. -/
def readData : Instr → State → BitVec 64
  | .rdst sel, s => if sel = 0 then s.status else s.ecmd
  | .rdf sym, s => (s.freqAt sym.toNat).setWidth 64
  | .rdn node sel, s => rdnData (s.nodeAt node.toNat) sel
  | .rdc sym sel, s => rdcData (s.codeAt sym.toNat) sel
  | _, _ => 0

/-- A well-formed read answers its data in any state, in any phase and faulted or not (R56, R171). -/
theorem exec_read {i : Instr} (hi : i.op ∈ [0x02, 0x13, 0x23, 0x31]) (hw : i.wellFormed = true) (s : State) :
    exec i s = answer s (readData i s) := by
  cases i with
  | rdst sel => exact execRdst_run s (of_decide_eq_true hw)
  | rdf sym => exact execRdf_run s (of_decide_eq_true hw)
  | rdn node sel =>
    obtain ⟨hn, hs⟩ := Bool.and_eq_true_iff.1 hw
    exact execRdn_run s (of_decide_eq_true hn) (of_decide_eq_true hs)
  | rdc sym sel =>
    obtain ⟨hn, hs⟩ := Bool.and_eq_true_iff.1 hw
    exact execRdc_run s (of_decide_eq_true hn) (of_decide_eq_true hs)
  | _ => simp [Instr.op] at hi

/-- A read does not see the responses returned before it (R76). -/
@[simp] theorem readData_respond (i : Instr) (s : State) (c : RspCode) (d : BitVec 64) :
    readData i (s.respond c d) = readData i s := by
  cases i <;> rfl

/-- Settles O20: a read only answers, and its answer does not depend on earlier answers. -/
theorem readsHaveNoSideEffect : Obligations.ReadsHaveNoSideEffect := by
  intro i s hi hw
  refine ⟨readData i s, exec_read hi hw s, ?_⟩
  calc exec i (s.respond .ok (readData i s))
      = answer (s.respond .ok (readData i s)) (readData i (s.respond .ok (readData i s))) := exec_read hi hw _
    _ = answer (s.respond .ok (readData i s)) (readData i s) := by rw [readData_respond]

end Sys2Proof.Machine
end

section
/-!
SUPPORT. The canonical form of the tables along a step, whatever else the state holds: every index written lies in its
space (R50, R51; log entry 1).
-/

namespace Sys2Proof.Machine

/-- The canonical form speaks of the three tables only. -/
theorem tablesWf_congr {s t : State} (hf : t.freq = s.freq) (hn : t.nodes = s.nodes) (hc : t.codes = s.codes) :
    t.tablesWf = s.tablesWf := by
  rw [State.tablesWf, State.tablesWf, hf, hn, hc]

@[simp] theorem tablesWf_respond (s : State) (c : RspCode) (d : BitVec 64) :
    (s.respond c d).tablesWf = s.tablesWf := rfl

@[simp] theorem tablesWf_raise (s : State) (f : FaultCode) (w : Word) : (s.raise f w).tablesWf = s.tablesWf :=
  tablesWf_congr (freq_raise s f w) (nodes_raise s f w) (codes_raise s f w)

@[simp] theorem tablesWf_release (s : State) : s.release.tablesWf = true := rfl

section TreeBuilder

variable {s t : State} (h : s.tablesWf = true)
include h

/-- Taking an entry out of the queue keeps the form (R31). -/
theorem tablesWf_dequeue {i : Nat} (hi : i < 513) : (s.dequeue i).tablesWf = true := tablesWf_setNode _ hi h

/-- QLOAD writes slots of symbols (R102). -/
theorem tablesWf_loadQueue (hl : s.loadQueue = some t) : t.tablesWf = true := by
  have hloaded := tablesWf_loadLeaves h
  obtain ⟨ns, hns⟩ := loadLeaves_eq s
  rw [hns] at hloaded
  obtain ⟨-, ⟨-, rfl⟩ | ⟨-, rfl⟩⟩ := loadQueue_eq_some hl <;> rw [hns] <;> exact hloaded

/-- MERGE writes the slots of the two entries removed and a free slot (R103). -/
theorem tablesWf_joined {a b : Nat} (r : s.Removed a b) (hn : s.nint.toNat < 256) :
    (s.joined a b).tablesWf = true := by
  obtain ⟨-, -, hfreq, hcodes, -, -, -, -, -, -, -, hnodes⟩ := joined_same s a b
  rw [tablesWf_congr (s := ((s.dequeue a).dequeue b).setNode (257 + s.nint.toNat) _) hfreq hnodes hcodes]
  exact tablesWf_setNode _ (by omega) (tablesWf_dequeue (tablesWf_dequeue h r.ltA) r.ltB)

theorem tablesWf_mergeOnce (hm : s.mergeOnce = .ok t) : t.tablesWf = true := by
  obtain ⟨a, b, r, hn, -, rfl⟩ := mergeOnce_ok hm
  exact tablesWf_joined h r hn

end TreeBuilder

/-- BUILD's loop keeps the form, merge by merge (R104). -/
theorem tablesWf_mergeAll (free : Nat) : ∀ {s t : State}, s.tablesWf = true → State.mergeAll free s = .ok t →
    t.tablesWf = true := by
  induction free with
  | zero =>
    intro s t h hm
    unfold State.mergeAll at hm
    split at hm
    · exact tablesWf_mergeOnce h hm
    · exact Except.ok.inj hm ▸ h
  | succ free ih =>
    intro s t h hm
    unfold State.mergeAll at hm
    split at hm
    · split at hm
      · cases hm
      · next u hu => exact ih (tablesWf_mergeOnce h hu) hm
    · exact Except.ok.inj hm ▸ h

/-- A well-formed command's own rule keeps the form: the operand ranges of R73 are those of the index spaces. -/
theorem tablesWf_of_ownEffect {i : Instr} {s t : State} (h : s.tablesWf = true) (hw : i.wellFormed = true)
    (ho : OwnEffect s t i) : t.tablesWf = true := by
  cases i with
  | reset => exact ho ▸ rfl
  | rdst sel | rdf sym | rdn node sel | rdc sym sel =>
    obtain ⟨d, rfl⟩ := ho
    exact h
  | cnt byte =>
    have hb : byte.toNat ≤ 255 := of_decide_eq_true hw
    obtain rfl | ⟨n, d, rfl⟩ := ho
    · simpa using h
    · exact tablesWf_setFreq n (by omega) h
  | ceos =>
    obtain rfl | ⟨n, d, rfl⟩ := ho
    · simpa using h
    · exact tablesWf_setFreq n (by decide) h
  | ldf sym n =>
    have hs : sym.toNat ≤ 256 := of_decide_eq_true hw
    exact ho ▸ tablesWf_setFreq n (by omega) h
  | qload =>
    obtain rfl | ⟨u, d, hu, rfl⟩ := ho
    · simpa using h
    · exact (tablesWf_respond _ _ _).trans (tablesWf_loadQueue h hu)
  | merge =>
    obtain ⟨a, b, d, r, hn, rfl⟩ := ho
    exact tablesWf_joined h r hn
  | build =>
    obtain ⟨-, rfl⟩ | ⟨u, v, d, hu, hm, -, -, rfl⟩ := ho
    · simpa using h
    · refine (tablesWf_respond _ _ _).trans (tablesWf_mergeAll _ ?_ hm)
      obtain ⟨-, hl⟩ | ⟨-, rfl⟩ := hu
      · exact tablesWf_loadQueue h hl
      · exact h
  | derive =>
    obtain ⟨codes, d, hcodes, rfl⟩ := ho
    obtain ⟨hfreq, hnodes, -⟩ := (tablesWf_iff s).1 h
    exact (tablesWf_iff _).2 ⟨hfreq, hnodes, hcodes⟩
  | enc byte =>
    obtain rfl | ⟨bits, d, rfl⟩ := ho
    · simpa using h
    · exact h
  | eeos =>
    obtain ⟨bits, d, rfl⟩ := ho
    exact h
  | dstep =>
    obtain ⟨d, rfl⟩ | rfl | ⟨b, rest, c, e, bytes, d, -, -, rfl⟩ := ho
    · exact h
    · simpa using h
    · exact h
  | decode =>
    obtain ⟨used, rest, bytes, c, e, -, -, ⟨d, rfl⟩ | ⟨-, -, rfl⟩⟩ := ho
    · exact h
    · exact (tablesWf_raise _ _ _).trans h

/-- Every command keeps the form, whatever the front end makes of it (R77). -/
theorem tablesWf_exec {i : Instr} {s t : State} (h : s.tablesWf = true) (hx : exec i s = .next t) :
    t.tablesWf = true := by
  obtain ⟨-, -, rfl⟩ | ⟨-, -, rfl⟩ | ⟨-, -, -, rfl⟩ | ⟨-, hw, -, ho⟩ := exec_next hx
  · exact h
  · simpa using h
  · simpa using h
  · exact tablesWf_of_ownEffect h hw ho

/-- Settles O56, by the event the step takes. -/
theorem stepKeepsTablesCanonical : Obligations.StepKeepsTablesCanonical := by
  intro s t h hstep
  obtain ⟨-, rfl⟩ | ⟨rest, -, rfl⟩ | ⟨bits, rest, -, rfl⟩ | ⟨w, rest, i, -, -, hx⟩ | ⟨w, rest, e, -, -, hx⟩ :=
    step_cases hstep
  · exact h
  · exact tablesWf_release _
  · exact h
  · exact tablesWf_exec (s := { s with hostIn := rest }) h hx
  · obtain rfl | rfl := illegalWord_next hx
    · exact h
    · exact (tablesWf_raise _ _ _).trans h

end Sys2Proof.Machine
end

section
/-!
SUPPORT. The round trips of the encoding, and legal words as the words of well-formed commands (R71 to R73, R75).
-/

namespace Sys2Proof.Machine

/-- A well-formed command is read back from its word: the word's fields are the command's. -/
theorem decode_encode {i : Instr} (hw : i.wellFormed = true) : decode (encode i) = .ok i := by
  simp [decode, encode, instrOfFields_self, hw]

/-- Decoding and encoding are inverse to each other (R75). -/
theorem decode_eq_ok_iff {w : Word} {i : Instr} : decode w = .ok i ↔ w = encode i ∧ i.wellFormed = true := by
  constructor
  · intro h
    obtain ⟨-, -, -, -, -, hw⟩ := decode_ok h
    exact ⟨eq_encode_of_decode h, hw⟩
  · rintro ⟨rfl, hw⟩
    exact decode_encode hw

/-- Settles O1: the fields of the word are the command's own, and they name it. -/
theorem decodeOfEncode : Obligations.DecodeOfEncode := fun _ hw => decode_encode hw

/-- Settles O2: the word that decodes is made of its fields, and those are the command's. -/
theorem encodeOfDecode : Obligations.EncodeOfDecode := fun _ _ h =>
  let ⟨hword, hw⟩ := decode_eq_ok_iff.1 h
  ⟨hword.symm, hw⟩

/-- The operand ranges of R73, command by command and field by field. -/
theorem wellFormed_iff (i : Instr) :
    i.wellFormed = true ↔ i.idx.toNat ≤ idxLimit i.op ∧ i.sel.toNat ≤ selLimit i.op := by
  cases i <;> simp [Instr.wellFormed, Instr.idx, Instr.sel, Instr.op, idxLimit, selLimit]

theorem op_mem_opcodes (i : Instr) : i.op ∈ opcodes := by
  cases i <;> simp [Instr.op, opcodes]

/-- Only LDF has a data operand (R73). -/
theorem data_of_op_ne (i : Instr) : i.op = 0x12 ∨ i.data = 0 := by
  cases i <;> simp [Instr.op, Instr.data]

/-- The word of a command is legal when the command is well formed. -/
theorem legalWord_encode {i : Instr} (hw : i.wellFormed = true) : legalWord (encode i) := by
  obtain ⟨hidx, hsel⟩ := (wellFormed_iff i).1 hw
  simpa [legalWord, encode, hidx, hsel, op_mem_opcodes] using data_of_op_ne i

/-- Each of the 16 opcodes names a command (R75 (a)). -/
theorem exists_instrOfFields {op : Opcode} (h : op ∈ opcodes) (sel : Sel) (idx : Index) (data : Count) :
    ∃ i, instrOfFields op sel idx data = some i := by
  simp only [opcodes, List.mem_cons, List.not_mem_nil, or_false] at h
  rcases h with rfl | rfl | rfl | rfl | rfl | rfl | rfl | rfl | rfl | rfl | rfl | rfl | rfl | rfl | rfl | rfl <;>
    exact ⟨_, rfl⟩

/-- Fields in the ranges of R73 are those of the command they name: a field it does not use has the range 0 (R75 (c)). -/
theorem fields_of_instrOfFields {op : Opcode} {sel : Sel} {idx : Index} {data : Count} {i : Instr}
    (h : instrOfFields op sel idx data = some i) (hidx : idx.toNat ≤ idxLimit op) (hsel : sel.toNat ≤ selLimit op)
    (hdata : op = 0x12 ∨ data = 0) : i.sel = sel ∧ i.idx = idx ∧ i.data = data := by
  unfold instrOfFields at h
  iterate 16
    rcases row_or_rest h with ⟨rfl, rfl⟩ | h
    · simp_all [idxLimit, selLimit, Instr.sel, Instr.idx, Instr.data, ← BitVec.toNat_inj]
  exact absurd h (by simp)

/-- A legal word is the word of a well-formed command. -/
theorem exists_encode_of_legalWord {w : Word} (h : legalWord w) : ∃ i, w = encode i ∧ i.wellFormed = true := by
  obtain ⟨hop, hrsv, hidx, hsel, hdata⟩ := h
  obtain ⟨i, hi⟩ := exists_instrOfFields hop (selField w) (idxField w) (dataField w)
  have hopi := op_of_instrOfFields hi
  obtain ⟨hseli, hidxi, hdatai⟩ := fields_of_instrOfFields hi hidx hsel hdata
  refine ⟨i, ?_, (wellFormed_iff i).2 ?_⟩
  · rw [encode, hopi, hseli, hidxi, hdatai, makeWord_fields w hrsv]
  · rw [hopi, hseli, hidxi]
    exact ⟨hidx, hsel⟩

/-- R75, field by field. -/
theorem decodes_iff_legalWord (w : Word) : (∃ i, decode w = .ok i) ↔ legalWord w := by
  simp only [decode_eq_ok_iff]
  refine ⟨?_, exists_encode_of_legalWord⟩
  rintro ⟨i, rfl, hw⟩
  exact legalWord_encode hw

/-- Settles O3: the legal words are the words of the well-formed commands. -/
theorem legalWordsDecode : Obligations.LegalWordsDecode := decodes_iff_legalWord

/-- Settles O5: the decoder evaluates to the commands the spec names. -/
theorem wordsWrittenOut : Obligations.WordsWrittenOut := ⟨rfl, rfl, rfl, rfl, rfl, rfl, rfl, rfl⟩

end Sys2Proof.Machine
end

section
/-!
SUPPORT. The opcode map of R72: a row's mask, match and range checks, taken apart field by field, are the ranges of R73.
-/

namespace Sys2Proof.Machine

/-! ## Masks field by field -/

section Fields

variable (w m : Word)

@[simp] theorem opField_and : opField (w &&& m) = opField w &&& opField m := BitVec.extractLsb'_and

@[simp] theorem selField_and : selField (w &&& m) = selField w &&& selField m := BitVec.extractLsb'_and

@[simp] theorem rsvField_and : rsvField (w &&& m) = rsvField w &&& rsvField m := BitVec.extractLsb'_and

@[simp] theorem idxField_and : idxField (w &&& m) = idxField w &&& idxField m := BitVec.extractLsb'_and

@[simp] theorem dataField_and : dataField (w &&& m) = dataField w &&& dataField m := BitVec.extractLsb'_and

/-- Words are equal field by field (R71). -/
theorem word_eq_iff {v w : Word} : v = w ↔ opField v = opField w ∧ selField v = selField w ∧
    rsvField v = rsvField w ∧ idxField v = idxField w ∧ dataField v = dataField w := by
  constructor
  · rintro rfl
    simp
  · simp only [opField, selField, rsvField, idxField, dataField, ← BitVec.toNat_inj, BitVec.extractLsb'_toNat,
      Nat.shiftRight_eq_div_pow]
    omega

end Fields

/-- The mask that leaves the low `k` bits of a field free. -/
def highMask (n k : Nat) : BitVec n := BitVec.allOnes n <<< k

/-- A field passes such a mask when only its low bits are set. -/
theorem and_highMask_eq_zero_iff {n : Nat} (x : BitVec n) (k : Nat) : x &&& highMask n k = 0 ↔ x.toNat < 2 ^ k := by
  have hbit : ∀ j, j < n → (highMask n k).getLsbD j = !decide (j < k) := fun j hj => by simp [highMask, hj]
  constructor
  · intro h
    refine Nat.lt_pow_two_of_testBit _ fun j hj => ?_
    change x.getLsbD j = false
    by_cases hjn : j < n
    · have := congrArg (·.getLsbD j) h
      simpa [hbit j hjn, Nat.not_lt.2 hj] using this
    · exact BitVec.getLsbD_of_ge x j (by omega)
  · intro h
    ext j hj
    by_cases hkj : j < k
    · simp [← BitVec.getLsbD_eq_getElem, hbit j hj, hkj]
    · have hx : x.toNat.testBit j = false :=
        Nat.testBit_lt_two_pow (h.trans_le (Nat.pow_le_pow_right (by decide) (Nat.not_lt.1 hkj)))
      simp [← BitVec.getLsbD_eq_getElem, BitVec.getLsbD, hx]

/-- The mask check and the range check of a field are one range (R72). -/
theorem and_highMask_and_le_iff {n : Nat} (x : BitVec n) (k max : Nat) :
    (x &&& highMask n k = 0 ∧ x.toNat ≤ max) ↔ x.toNat ≤ min (2 ^ k - 1) max := by
  have := Nat.two_pow_pos k
  rw [and_highMask_eq_zero_iff]
  omega

/-! ## The rows -/

/-- The rows of R72 stand for the opcodes of R72, in order. -/
theorem opcodes_eq_map : opcodes = opcodeTable.map (fun r => opField r.fixedBits) := by decide

/-- What the match and mask words of R72 are made of: the whole opcode, no reserved bit, and for `sel` and `idx` a number
of free low bits that, with the range check, leaves the range of R73; the data of LDF is free. -/
theorem fields_of_row : ∀ r ∈ opcodeTable,
    (opField r.fixedMask = BitVec.allOnes 8 ∧ rsvField r.fixedMask = BitVec.allOnes 6) ∧
    (selField r.fixedBits = 0 ∧ rsvField r.fixedBits = 0 ∧ idxField r.fixedBits = 0 ∧ dataField r.fixedBits = 0) ∧
    (∃ k : Fin 9, selField r.fixedMask = highMask 8 k ∧ min (2 ^ k.val - 1) r.selMax = selLimit (opField r.fixedBits)) ∧
    (∃ k : Fin 11, idxField r.fixedMask = highMask 10 k ∧
      min (2 ^ k.val - 1) r.idxMax = idxLimit (opField r.fixedBits)) ∧
    dataField r.fixedMask = (if opField r.fixedBits = 0x12 then 0 else BitVec.allOnes 32) := by
  decide

/-- A row accepts the legal words of its opcode. -/
theorem accepts_iff {r : OpcodeRow} (hr : r ∈ opcodeTable) (w : Word) :
    r.accepts w = true ↔ opField w = opField r.fixedBits ∧ legalWord w := by
  obtain ⟨⟨hop, hrsv⟩, ⟨hsel0, hrsv0, hidx0, hdata0⟩, ⟨ks, hsel, hselMax⟩, ⟨ki, hidx, hidxMax⟩, hdata⟩ :=
    fields_of_row r hr
  have hmem : opField r.fixedBits ∈ opcodes := opcodes_eq_map ▸ List.mem_map_of_mem hr
  have hdataCheck : dataField w &&& dataField r.fixedMask = 0 ↔ opField r.fixedBits = 0x12 ∨ dataField w = 0 := by
    rw [hdata]
    split
    · next h => exact ⟨fun _ => .inl h, fun _ => BitVec.and_zero⟩
    · next h => rw [BitVec.and_allOnes, or_iff_right h]
  have haccepts : r.accepts w = true ↔ opField w = opField r.fixedBits ∧ rsvField w = 0 ∧
      (idxField w &&& highMask 10 ki = 0 ∧ (idxField w).toNat ≤ r.idxMax) ∧
      (selField w &&& highMask 8 ks = 0 ∧ (selField w).toNat ≤ r.selMax) ∧
      (opField r.fixedBits = 0x12 ∨ dataField w = 0) := by
    simp only [OpcodeRow.accepts, Bool.and_eq_true, beq_iff_eq, decide_eq_true_eq, word_eq_iff, opField_and,
      selField_and, rsvField_and, idxField_and, dataField_and, hsel0, hrsv0, hidx0, hdata0, hop, hrsv,
      BitVec.and_allOnes, hdataCheck, hsel, hidx]
    constructor
    · rintro ⟨⟨⟨h1, h2, h3, h4, h5⟩, h6⟩, h7⟩
      exact ⟨h1, h3, ⟨h4, h6⟩, ⟨h2, h7⟩, h5⟩
    · rintro ⟨h1, h3, ⟨h4, h6⟩, ⟨h2, h7⟩, h5⟩
      exact ⟨⟨⟨h1, h2, h3, h4, h5⟩, h6⟩, h7⟩
  rw [haccepts, and_highMask_and_le_iff, and_highMask_and_le_iff, hselMax, hidxMax]
  refine and_congr_right fun e => ?_
  rw [legalWord, e, and_iff_right hmem]

/-- The rows differ in their opcodes. -/
theorem row_eq_of_opcode_eq {r r' : OpcodeRow} (hr : r ∈ opcodeTable) (hr' : r' ∈ opcodeTable)
    (h : opField r.fixedBits = opField r'.fixedBits) : r = r' :=
  List.inj_on_of_nodup_map (opcodes_eq_map ▸ (by decide : opcodes.Nodup)) hr hr' h

/-- Settles O4: a row accepts the legal words of its opcode, and no two rows have the same one. -/
theorem opcodeMapDecides : Obligations.OpcodeMapDecides := by
  refine ⟨fun w => ?_, fun w r hr r' hr' h h' => ?_, fun w i r hr hd h => ?_⟩
  · rw [decodes_iff_legalWord]
    constructor
    · intro hlegal
      have ⟨hop, _⟩ := hlegal
      rw [opcodes_eq_map] at hop
      obtain ⟨r, hr, hrop⟩ := List.mem_map.1 hop
      exact ⟨r, hr, (accepts_iff hr w).2 ⟨hrop.symm, hlegal⟩⟩
    · rintro ⟨r, hr, h⟩
      exact ((accepts_iff hr w).1 h).2
  · obtain ⟨e, -⟩ := (accepts_iff hr w).1 h
    obtain ⟨e', -⟩ := (accepts_iff hr' w).1 h'
    exact row_eq_of_opcode_eq hr hr' (e.symm.trans e')
  · obtain ⟨e, -⟩ := (accepts_iff hr w).1 h
    have hi := op_of_decode hd
    exact ⟨e.symm.trans hi.symm, hi.symm⟩

end Sys2Proof.Machine
end

section
/-!
SUPPORT. What the front end makes of an illegal word, of an ill-formed command and of a phase a command is not legal in,
and the one response of every command that completes (R74 to R77).
-/

namespace Sys2Proof.Machine

/-! ## Illegal words and ill-formed commands (R75) -/

/-- A presented word that is not legal goes through the front end as such. -/
theorem step_of_not_legalWord {s : State} {w : Word} {rest : List HostEvent} (hh : s.hostIn = .command w :: rest)
    (hw : ¬ legalWord w) : step s = illegalWord w { s with hostIn := rest } := by
  cases hd : decode w with
  | ok i => exact absurd ((decodes_iff_legalWord w).1 ⟨i, hd⟩) hw
  | error e => simp only [step, hh, hd]

/-- Settles O9: the word is taken from the host and the fault primitive runs. -/
theorem illegalWordFaults : Obligations.IllegalWordFaults := by
  intro s w rest hh hw
  have hstep : s.err = 0 ∨ exemptOp (opField w) = true →
      step s = .next (({ s with hostIn := rest } : State).raise .illegal w) := fun he =>
    (step_of_not_legalWord hh hw).trans (frontEnd_illegal he rfl)
  refine ⟨fun he => ?_, fun he hx => ?_⟩
  · rw [hstep (.inl he), raise_first (s := { s with hostIn := rest }) he]
    rfl
  · rw [hstep (.inr ((exempt_iff _).2 hx)), raise_later (s := { s with hostIn := rest }) he]

/-- A command with an operand out of range raises `E_ILLEGAL` unless it is refused (R75 (d)). -/
theorem exec_illFormed {i : Instr} {s : State} (hw : i.wellFormed = false)
    (he : s.err = 0 ∨ exemptOp i.op = true) : exec i s = .next (s.raise .illegal (encode i)) := by
  obtain ⟨rule, hrule⟩ := exec_command i s
  exact hrule.trans (frontEnd_illegal he hw)

/-- Settles O11: the fault primitive records a first fault only. -/
theorem operandOutOfRangeFaults : Obligations.OperandOutOfRangeFaults := by
  intro i s hw he
  rw [exec_illFormed hw (he.imp_right (exempt_iff _).2)]
  split
  · next h => rw [raise_first h]; rfl
  · next h => rw [raise_later h]

/-! ## The wrong phase (R74) -/

/-- A well-formed command in a phase it is not legal in raises `E_SEQ` unless it is refused. -/
theorem exec_wrongPhase {i : Instr} {s : State} (hw : i.wellFormed = true) (hp : legalPhase i s.ph = false)
    (he : s.err = 0 ∨ exemptOp i.op = true) : exec i s = .next (s.raise .seq (encode i)) := by
  obtain ⟨rule, hrule⟩ := exec_command i s
  exact hrule.trans (frontEnd_seq he hw hp)

/-! ## The response of a command (R76) -/

/-- From `s` to `t` one response has been returned, with code `c` and data `d`, and no further word was taken. -/
def State.Answers (s t : State) (c : RspCode) (d : BitVec 64) : Prop :=
  t.rspOut = s.rspOut ++ [⟨c, d⟩] ∧ t.hostIn = s.hostIn

theorem answers_respond (s : State) (c : RspCode) (d : BitVec 64) : s.Answers (s.respond c d) c d := ⟨rfl, rfl⟩

theorem answers_raise (s : State) (f : FaultCode) (w : Word) : s.Answers (s.raise f w) (.fault f) 0 :=
  ⟨rspOut_raise s f w, hostIn_raise s f w⟩

/-- The tree builder's work comes before its response. -/
theorem State.SameButTree.answers {s u : State} (h : s.SameButTree u) (d : BitVec 64) :
    s.Answers (u.respond .ok d) .ok d := by
  obtain ⟨-, -, -, -, -, -, -, hhost, hrsp⟩ := h
  exact ⟨by rw [rspOut_respond, hrsp], hhost⟩

/-- A command's own rule answers `OK`, or a fault other than `E_SEQ`, with data 0. -/
theorem answers_of_ownEffect {i : Instr} {s t : State} (h : OwnEffect s t i) :
    (∃ d, s.Answers t .ok d) ∨ ∃ f, f ≠ .seq ∧ s.Answers t (.fault f) 0 := by
  cases i with
  | reset => exact h ▸ .inl ⟨0, rfl, rfl⟩
  | rdst sel | rdf sym | rdn node sel | rdc sym sel =>
    obtain ⟨d, rfl⟩ := h
    exact .inl ⟨d, answers_respond s _ d⟩
  | cnt byte | ceos =>
    obtain rfl | ⟨n, d, rfl⟩ := h
    · exact .inr ⟨.cntOvf, by decide, answers_raise s _ _⟩
    · exact .inl ⟨d, rfl, rfl⟩
  | ldf sym n => exact h ▸ .inl ⟨0, rfl, rfl⟩
  | qload =>
    obtain rfl | ⟨u, d, hu, rfl⟩ := h
    · exact .inr ⟨.malformed, by decide, answers_raise s _ _⟩
    · exact .inl ⟨d, (sameButTree_loadQueue hu).answers d⟩
  | merge =>
    obtain ⟨a, b, d, -, -, rfl⟩ := h
    exact .inl ⟨d, (sameButTree_joined s a b).answers d⟩
  | build =>
    obtain ⟨-, rfl⟩ | ⟨u, v, d, -, -, hv, -, rfl⟩ := h
    · exact .inr ⟨.malformed, by decide, answers_raise s _ _⟩
    · exact .inl ⟨d, hv.answers d⟩
  | derive =>
    obtain ⟨codes, d, -, rfl⟩ := h
    exact .inl ⟨d, rfl, rfl⟩
  | enc byte =>
    obtain rfl | ⟨bits, d, rfl⟩ := h
    · exact .inr ⟨.noCode, by decide, answers_raise s _ _⟩
    · exact .inl ⟨d, rfl, rfl⟩
  | eeos =>
    obtain ⟨bits, d, rfl⟩ := h
    exact .inl ⟨d, rfl, rfl⟩
  | dstep =>
    obtain ⟨d, rfl⟩ | rfl | ⟨b, rest, c, e, bytes, d, -, -, rfl⟩ := h
    · exact .inl ⟨d, rfl, rfl⟩
    · exact .inr ⟨.trunc, by decide, answers_raise s _ _⟩
    · exact .inl ⟨d, rfl, rfl⟩
  | decode =>
    obtain ⟨used, rest, bytes, c, e, -, -, ⟨d, rfl⟩ | ⟨-, -, rfl⟩⟩ := h
    · exact .inl ⟨d, rfl, rfl⟩
    · have hraise := answers_raise { s with bitIn := rest, byteOut := s.byteOut ++ bytes, cur := c, dt := e } .trunc
        (encode .decode)
      exact .inr ⟨.trunc, by decide, hraise⟩

/-- Every command that completes returns one response, with data 0 unless it answers `OK` (R76). -/
theorem exec_answers {i : Instr} {s t : State} (h : exec i s = .next t) :
    ∃ c d, s.Answers t c d ∧ (c ≠ .ok → d = 0) := by
  obtain ⟨-, -, rfl⟩ | ⟨-, -, rfl⟩ | ⟨-, -, -, rfl⟩ | ⟨-, -, -, ho⟩ := exec_next h
  · exact ⟨.halted, 0, answers_respond s _ _, fun _ => rfl⟩
  · exact ⟨_, 0, answers_raise s _ _, fun _ => rfl⟩
  · exact ⟨_, 0, answers_raise s _ _, fun _ => rfl⟩
  · obtain ⟨d, ha⟩ | ⟨f, -, ha⟩ := answers_of_ownEffect ho
    · exact ⟨.ok, d, ha, fun hne => absurd rfl hne⟩
    · exact ⟨.fault f, 0, ha, fun _ => rfl⟩

/-- The code is in bits 71:64 of a response and the data in 63:0 (R76). -/
theorem fields_responseBits (r : Response) :
    r.bits.extractLsb' 64 8 = r.code.bits ∧ r.bits.extractLsb' 0 64 = r.data :=
  ⟨BitVec.extractLsb'_append_eq_left, BitVec.extractLsb'_append_eq_right⟩

/-- Settles O13: the response of each command, and its packing. -/
theorem oneResponsePerCommand : Obligations.OneResponsePerCommand := by
  intro i s t h
  obtain ⟨c, d, ⟨hrsp, hhost⟩, hdata⟩ := exec_answers h
  obtain ⟨hcode, hbits⟩ := fields_responseBits ⟨c, d⟩
  exact ⟨⟨c, d⟩, hrsp, hcode, hbits, hdata, hhost⟩

/-- A command's own rule does not answer `E_SEQ`. -/
theorem rspOut_ne_seq_of_ownEffect {i : Instr} {s t : State} (h : OwnEffect s t i) (d : BitVec 64) :
    t.rspOut ≠ s.rspOut ++ [⟨.fault .seq, d⟩] := by
  obtain ⟨d', hrsp, -⟩ | ⟨f, hf, hrsp, -⟩ := answers_of_ownEffect h
  · simp [hrsp]
  · simp [hrsp, hf]

/-- Settles O12: the front end checks the phase, and the command's own rule does not raise `E_SEQ`. -/
theorem wrongPhaseFaults : Obligations.WrongPhaseFaults := by
  intro i s he hw
  rw [← legalPhase_iff]
  refine ⟨fun hp => ?_, fun hp t d h => ?_⟩
  · rw [exec_wrongPhase hw (Bool.eq_false_iff.2 hp) (.inl he), raise_first he]
    rfl
  · obtain ⟨hf, -⟩ | ⟨-, hf, -⟩ | ⟨-, -, hf, -⟩ | ⟨-, -, -, ho⟩ := exec_next h
    · exact absurd he hf
    · exact absurd (hw.symm.trans hf) (by decide)
    · exact absurd (hp.symm.trans hf) (by decide)
    · exact rspOut_ne_seq_of_ownEffect ho d

end Sys2Proof.Machine
end

section
/-!
SUPPORT. The assembler of R78: what `commandOf` reads from the operand values of each mnemonic, row by row, and the lines
that are refused.
-/

namespace Sys2Proof.Machine

/-! ## Operand values -/

theorem operandBits_eq_some_iff {w n : Nat} {x : BitVec w} : operandBits w n = some x ↔ x.toNat = n := by
  unfold operandBits
  constructor
  · split
    · next h =>
      rintro ⟨⟩
      rw [BitVec.toNat_ofNat, Nat.mod_eq_of_lt h]
    · rintro ⟨⟩
  · rintro rfl
    rw [if_pos x.isLt, BitVec.ofNat_toNat, BitVec.setWidth_eq]

/-- A value that fits is the value of an operand. -/
theorem exists_toNat_eq {w n : Nat} (h : n < 2 ^ w) : ∃ x : BitVec w, x.toNat = n :=
  ⟨BitVec.ofNat w n, by rw [BitVec.toNat_ofNat, Nat.mod_eq_of_lt h]⟩

theorem idxLimit_lt (op : Opcode) : idxLimit op < 2 ^ 10 := by unfold idxLimit; split_ifs <;> decide

theorem selLimit_lt (op : Opcode) : selLimit op < 2 ^ 8 := by unfold selLimit; split_ifs <;> decide

/-- The value a line's operands give a field: that of the operand that goes to it, 0 where there is none (R78). -/
def AssemblerRow.valueOf (r : AssemblerRow) (values : List Nat) (f : OperandField) : Nat :=
  values.getD (r.fields.idxOf f) 0

theorem fields_nodup : ∀ r ∈ assemblerRows, r.fields.Nodup := by decide

section Row

variable {r : AssemblerRow} (hr : r ∈ assemblerRows) {values : List Nat} {f : OperandField}
include hr

/-- No two operands go to the same field. -/
theorem valueOf_of_getElem? {k : Nat} (hk : r.fields[k]? = some f) : r.valueOf values f = values.getD k 0 := by
  obtain ⟨hlt, rfl⟩ := List.getElem?_eq_some_iff.1 hk
  rw [AssemblerRow.valueOf, (fields_nodup r hr).idxOf_getElem]

theorem valueOf_of_mem_zip {v : Nat} (h : (f, v) ∈ r.fields.zip values) : r.valueOf values f = v := by
  obtain ⟨k, hk⟩ := List.mem_iff_getElem?.1 h
  obtain ⟨hf, hv⟩ := List.getElem?_zip_eq_some.1 hk
  rw [valueOf_of_getElem? hr hf, List.getD_eq_getElem?_getD, hv, Option.getD_some]

end Row

/-- With no more operands than fields, a value that is not 0 was written in the line. -/
theorem valueOf_le {r : AssemblerRow} {values : List Nat} {limit : OperandField → Nat}
    (ht : r.takes values.length) (h : ∀ f v, (f, v) ∈ r.fields.zip values → v ≤ limit f) (f : OperandField) :
    r.valueOf values f ≤ limit f := by
  have hlen : values.length ≤ r.fields.length := by rcases ht with ht | ⟨ht, -⟩ <;> omega
  rw [AssemblerRow.valueOf, List.getD_eq_getElem?_getD]
  cases hv : values[r.fields.idxOf f]? with
  | none => exact Nat.zero_le _
  | some v =>
    obtain ⟨hlt, -⟩ := List.getElem?_eq_some_iff.1 hv
    have hf : r.fields[r.fields.idxOf f]? = some f :=
      List.getElem?_eq_some_iff.2 ⟨by omega, List.getElem_idxOf (by omega)⟩
    exact h f v (List.mem_iff_getElem?.2 ⟨_, List.getElem?_zip_eq_some.2 ⟨hf, hv⟩⟩)

/-! ## What a mnemonic reads -/

/-- A line's command as R78 gives it: from the right number of operands, with the row's opcode, each field holding its
value. -/
structure AssemblerRow.Gives (r : AssemblerRow) (values : List Nat) (i : Instr) : Prop where
  takes : r.takes values.length
  op : i.op = r.op
  value : ∀ f : OperandField, f.value i = r.valueOf values f

/-- `read` reads operand values as the row says: what it answers is what the row gives, and it refuses no operands of the
right number in range. -/
structure AssemblerRow.ReadBy (r : AssemblerRow) (read : List Nat → Option Instr) : Prop where
  gives : ∀ values i, read values = some i → r.Gives values i
  reads : ∀ values, r.takes values.length → (∀ f v, (f, v) ∈ r.fields.zip values → v ≤ f.limit r.op) →
    ∃ i, read values = some i

/-- The command has this opcode and these fields (R71). -/
def HasFields (i : Instr) (op : Opcode) (idx : Index) (sel : Sel) (data : Count) : Prop :=
  i.op = op ∧ i.idx = idx ∧ i.sel = sel ∧ i.data = data

theorem gives_of_fields {r : AssemblerRow} {values : List Nat} {i : Instr} {idx : Index} {sel : Sel} {data : Count}
    (h : HasFields i r.op idx sel data) (ht : r.takes values.length)
    (hidx : idx.toNat = r.valueOf values .idx) (hsel : sel.toNat = r.valueOf values .sel)
    (hdata : data.toNat = r.valueOf values .data) : r.Gives values i := by
  obtain ⟨hop, rfl, rfl, rfl⟩ := h
  exact ⟨ht, hop, fun | .idx => hidx | .sel => hsel | .data => hdata⟩

/-- One value as the operand of a command. -/
def readOne {w : Nat} (c : BitVec w → Instr) (a : Nat) : Option Instr := (operandBits w a).map c

theorem readOne_eq_some_iff {w : Nat} {c : BitVec w → Instr} {a : Nat} {i : Instr} :
    readOne c a = some i ↔ ∃ x, x.toNat = a ∧ c x = i := by
  simp [readOne, operandBits_eq_some_iff]

/-- The mnemonics without operands. -/
def readNone (i : Instr) (values : List Nat) : Option Instr := if values = [] then some i else none

/-- The mnemonics whose one operand goes to `idx`. -/
def readIdx (c : Index → Instr) : List Nat → Option Instr
  | [a] => readOne c a
  | _ => none

/-- RDN and RDC: `idx`, and a `sel` that may be left out. -/
def readIdxSel (c : Index → Sel → Instr) : List Nat → Option Instr
  | [a] => readOne (c · 0) a
  | [a, b] =>
    match operandBits 10 a, operandBits 8 b with
    | some x, some y => some (c x y)
    | _, _ => none
  | _ => none

theorem readIdxSel_pair {c : Index → Sel → Instr} {a b : Nat} {i : Instr} :
    readIdxSel c [a, b] = some i ↔ ∃ x y, x.toNat = a ∧ y.toNat = b ∧ c x y = i := by
  simp only [← operandBits_eq_some_iff]
  cases hx : operandBits 10 a <;> cases hy : operandBits 8 b <;> simp [readIdxSel, hx, hy]

/-- LDF: `idx` and `data`. -/
def readIdxData (c : Index → Count → Instr) : List Nat → Option Instr
  | [a, b] =>
    match operandBits 10 a, operandBits 32 b with
    | some x, some y => some (c x y)
    | _, _ => none
  | _ => none

theorem readIdxData_pair {c : Index → Count → Instr} {a b : Nat} {i : Instr} :
    readIdxData c [a, b] = some i ↔ ∃ x y, x.toNat = a ∧ y.toNat = b ∧ c x y = i := by
  simp only [← operandBits_eq_some_iff]
  cases hx : operandBits 10 a <;> cases hy : operandBits 32 b <;> simp [readIdxData, hx, hy]

/-- RDST: a `sel` that may be left out. -/
def readSel (c : Sel → Instr) : List Nat → Option Instr
  | [] => some (c 0)
  | [a] => readOne c a
  | _ => none

section Readings

variable {m : List Char} {op : Opcode}

theorem readBy_none {i : Instr} (hi : HasFields i op 0 0 0) :
    AssemblerRow.ReadBy ⟨m, op, []⟩ (readNone i) where
  gives values j h := by
    obtain ⟨rfl, rfl⟩ : values = [] ∧ i = j := by simpa [readNone] using h
    exact gives_of_fields hi (.inl rfl) rfl rfl rfl
  reads values ht _ := ⟨i, if_pos (by simpa [AssemblerRow.takes] using ht)⟩

theorem readBy_idx {c : Index → Instr} (hc : ∀ x, HasFields (c x) op x 0 0) :
    AssemblerRow.ReadBy ⟨m, op, [.idx]⟩ (readIdx c) where
  gives
    | [_], _, h => by
      obtain ⟨x, rfl, rfl⟩ := readOne_eq_some_iff.1 h
      exact gives_of_fields (hc x) (.inl rfl) rfl rfl rfl
  reads
    | [a], _, h => by
      obtain ⟨x, hx⟩ := exists_toNat_eq ((h .idx a (by simp)).trans_lt (idxLimit_lt op))
      exact ⟨c x, readOne_eq_some_iff.2 ⟨x, hx, rfl⟩⟩
    | [], ht, _ | _ :: _ :: _, ht, _ => by simp [AssemblerRow.takes] at ht

theorem readBy_idxSel {c : Index → Sel → Instr}
    (hc : ∀ x y, HasFields (c x y) op x y 0) :
    AssemblerRow.ReadBy ⟨m, op, [.idx, .sel]⟩ (readIdxSel c) where
  gives
    | [_], _, h => by
      obtain ⟨x, rfl, rfl⟩ := readOne_eq_some_iff.1 h
      exact gives_of_fields (hc x 0) (.inr ⟨rfl, rfl⟩) rfl rfl rfl
    | [_, _], _, h => by
      obtain ⟨x, y, rfl, rfl, rfl⟩ := readIdxSel_pair.1 h
      exact gives_of_fields (hc x y) (.inl rfl) rfl rfl rfl
  reads
    | [a], _, h => by
      obtain ⟨x, hx⟩ := exists_toNat_eq ((h .idx a (by simp)).trans_lt (idxLimit_lt op))
      exact ⟨c x 0, readOne_eq_some_iff.2 ⟨x, hx, rfl⟩⟩
    | [a, b], _, h => by
      obtain ⟨x, hx⟩ := exists_toNat_eq ((h .idx a (by simp)).trans_lt (idxLimit_lt op))
      obtain ⟨y, hy⟩ := exists_toNat_eq ((h .sel b (by simp)).trans_lt (selLimit_lt op))
      exact ⟨c x y, readIdxSel_pair.2 ⟨x, y, hx, hy, rfl⟩⟩
    | [], ht, _ | _ :: _ :: _ :: _, ht, _ => by simp [AssemblerRow.takes] at ht

theorem readBy_idxData {c : Index → Count → Instr}
    (hc : ∀ x y, HasFields (c x y) op x 0 y) :
    AssemblerRow.ReadBy ⟨m, op, [.idx, .data]⟩ (readIdxData c) where
  gives
    | [_, _], _, h => by
      obtain ⟨x, y, rfl, rfl, rfl⟩ := readIdxData_pair.1 h
      exact gives_of_fields (hc x y) (.inl rfl) rfl rfl rfl
  reads
    | [a, b], _, h => by
      obtain ⟨x, hx⟩ := exists_toNat_eq ((h .idx a (by simp)).trans_lt (idxLimit_lt op))
      obtain ⟨y, hy⟩ := exists_toNat_eq ((h .data b (by simp)).trans_lt (Nat.sub_one_lt_of_lt (Nat.two_pow_pos 32)))
      exact ⟨c x y, readIdxData_pair.2 ⟨x, y, hx, hy, rfl⟩⟩
    | [], ht, _ | [_], ht, _ | _ :: _ :: _ :: _, ht, _ => by simp [AssemblerRow.takes] at ht

theorem readBy_sel {c : Sel → Instr} (hc : ∀ x, HasFields (c x) op 0 x 0) :
    AssemblerRow.ReadBy ⟨m, op, [.sel]⟩ (readSel c) where
  gives
    | [], _, h => by
      obtain rfl := Option.some.inj h
      exact gives_of_fields (hc 0) (.inr ⟨rfl, rfl⟩) rfl rfl rfl
    | [_], _, h => by
      obtain ⟨x, rfl, rfl⟩ := readOne_eq_some_iff.1 h
      exact gives_of_fields (hc x) (.inl rfl) rfl rfl rfl
  reads
    | [], _, _ => ⟨c 0, rfl⟩
    | [a], _, h => by
      obtain ⟨x, hx⟩ := exists_toNat_eq ((h .sel a (by simp)).trans_lt (selLimit_lt op))
      exact ⟨c x, readOne_eq_some_iff.2 ⟨x, hx, rfl⟩⟩
    | _ :: _ :: _, ht, _ => by simp [AssemblerRow.takes] at ht

end Readings

/-- Each mnemonic of R78 is read as its row says. -/
theorem commandOf_readBy : ∀ r ∈ assemblerRows, r.ReadBy (commandOf r.mnemonic) := by
  simp only [assemblerRows, List.cons_append, List.nil_append, List.forall_mem_cons]
  exact ⟨readBy_idx (c := .cnt) fun _ => ⟨rfl, rfl, rfl, rfl⟩,
    readBy_none (i := .ceos) ⟨rfl, rfl, rfl, rfl⟩,
    readBy_idxData (c := .ldf) fun _ _ => ⟨rfl, rfl, rfl, rfl⟩,
    readBy_idx (c := .rdf) fun _ => ⟨rfl, rfl, rfl, rfl⟩,
    readBy_none (i := .qload) ⟨rfl, rfl, rfl, rfl⟩,
    readBy_none (i := .merge) ⟨rfl, rfl, rfl, rfl⟩,
    readBy_none (i := .build) ⟨rfl, rfl, rfl, rfl⟩,
    readBy_idxSel (c := .rdn) fun _ _ => ⟨rfl, rfl, rfl, rfl⟩,
    readBy_none (i := .derive) ⟨rfl, rfl, rfl, rfl⟩,
    readBy_idxSel (c := .rdc) fun _ _ => ⟨rfl, rfl, rfl, rfl⟩,
    readBy_idx (c := .enc) fun _ => ⟨rfl, rfl, rfl, rfl⟩,
    readBy_none (i := .eeos) ⟨rfl, rfl, rfl, rfl⟩,
    readBy_none (i := .dstep) ⟨rfl, rfl, rfl, rfl⟩,
    readBy_none (i := .decode) ⟨rfl, rfl, rfl, rfl⟩,
    readBy_none (i := .reset) ⟨rfl, rfl, rfl, rfl⟩,
    readBy_sel (c := .rdst) fun _ => ⟨rfl, rfl, rfl, rfl⟩,
    List.forall_mem_nil _⟩

/-- One row of a chain of mnemonics: the row that is taken, or the rest of the chain. -/
theorem mnemonic_or_rest {m m' : List Char} {read rest : Option Instr} {i : Instr}
    (h : (if m = m' then read else rest) = some i) : m = m' ∨ rest = some i := by
  split at h
  · next hm => exact .inl hm
  · exact .inr h

/-- Only the 16 mnemonics of R78 are read. -/
theorem mnemonic_of_commandOf {m : List Char} {values : List Nat} {i : Instr} (h : commandOf m values = some i) :
    ∃ r ∈ assemblerRows, r.mnemonic = m := by
  unfold commandOf at h
  iterate 16
    rcases mnemonic_or_rest h with rfl | h
    · decide
  cases h

/-! ## Lines -/

/-- What the assembler reads: the tokens, the operand values, the command they stand for, and its ranges (R78). -/
theorem parseLine_eq_some_iff {line : List Char} {i : Instr} : parseLine line = some i ↔
    ∃ mnemonic tokens values, lexLine line = some (.word mnemonic :: tokens) ∧ operandValues tokens = some values ∧
      commandOf mnemonic values = some i ∧ i.wellFormed = true := by
  constructor
  · intro h
    unfold parseLine at h
    split at h
    · next mnemonic tokens hlex =>
      split at h
      · cases h
      · next values hvalues =>
        split at h
        · cases h
        · next j hj =>
          split at h
          · next hw =>
            obtain rfl := Option.some.inj h
            exact ⟨mnemonic, tokens, values, hlex, hvalues, hj, hw⟩
          · cases h
    · cases h
  · rintro ⟨mnemonic, tokens, values, hlex, hvalues, hi, hw⟩
    simp only [parseLine, hlex, hvalues, hi, hw, if_true]

theorem assembleLine_eq_some_iff {line : List Char} {w : Word} :
    assembleLine line = some w ↔ ∃ i, parseLine line = some i ∧ encode i = w := Option.map_eq_some_iff

/-- The fields of a well-formed command are within their limits (R73). -/
theorem value_le_limit {i : Instr} (hw : i.wellFormed = true) (f : OperandField) : f.value i ≤ f.limit i.op := by
  obtain ⟨hidx, hsel⟩ := (wellFormed_iff i).1 hw
  cases f with
  | idx => exact hidx
  | sel => exact hsel
  | data => exact Nat.le_sub_one_of_lt i.data.isLt

section Line

variable {line mnemonic : List Char} {tokens : List Token} {values : List Nat}
  (hlex : lexLine line = some (.word mnemonic :: tokens)) (hvalues : operandValues tokens = some values)
  {r : AssemblerRow} (hr : r ∈ assemblerRows) (hm : r.mnemonic = mnemonic)
include hlex hvalues hr hm

/-- A line that is read gives a well-formed command, as the row of its mnemonic says. -/
theorem gives_of_parseLine {i : Instr} (h : parseLine line = some i) : r.Gives values i ∧ i.wellFormed = true := by
  obtain ⟨mnemonic', tokens', values', hlex', hvalues', hi, hw⟩ := parseLine_eq_some_iff.1 h
  obtain ⟨rfl, rfl⟩ : mnemonic = mnemonic' ∧ tokens = tokens' := by simpa [hlex] using hlex'
  obtain rfl : values = values' := by simpa [hvalues] using hvalues'
  exact ⟨(commandOf_readBy r hr).gives _ _ (hm ▸ hi), hw⟩

/-- A line is refused when a value is above the limit of its field (R78). -/
theorem parseLine_eq_none_of_limit_lt {f : OperandField} {v : Nat} (hv : (f, v) ∈ r.fields.zip values)
    (hlt : f.limit r.op < v) : parseLine line = none := by
  rw [Option.eq_none_iff_forall_ne_some]
  intro i h
  obtain ⟨hg, hw⟩ := gives_of_parseLine hlex hvalues hr hm h
  have hle := value_le_limit hw f
  rw [hg.value f, valueOf_of_mem_zip hr hv, hg.op] at hle
  omega

/-- A line is refused when it has the wrong number of operands (R78). -/
theorem parseLine_eq_none_of_not_takes (ht : ¬ r.takes values.length) : parseLine line = none := by
  rw [Option.eq_none_iff_forall_ne_some]
  intro i h
  exact ht (gives_of_parseLine hlex hvalues hr hm h).1.takes

/-- Every other line is read (R78). -/
theorem exists_parseLine (ht : r.takes values.length)
    (hle : ∀ f v, (f, v) ∈ r.fields.zip values → v ≤ f.limit r.op) :
    ∃ i, parseLine line = some i ∧ r.Gives values i := by
  obtain ⟨i, hi⟩ := (commandOf_readBy r hr).reads values ht hle
  have hg := (commandOf_readBy r hr).gives values i hi
  have hvalue (f : OperandField) : f.value i ≤ f.limit i.op := by
    rw [hg.value f, hg.op]
    exact valueOf_le ht hle f
  have hw := (wellFormed_iff i).2 ⟨hvalue .idx, hvalue .sel⟩
  exact ⟨i, parseLine_eq_some_iff.2 ⟨mnemonic, tokens, values, hlex, hvalues, hm ▸ hi, hw⟩, hg⟩

end Line

/-- Settles O6: the rows of the assembler, and the five examples by evaluation. -/
theorem assemblerMakesLegalWords : Obligations.AssemblerMakesLegalWords := by
  refine ⟨fun line w h => ?_, fun line i h => ?_, fun line mnemonic tokens values hlex hvalues r hr hm => ?_,
    ?_, ?_, ?_, ?_, ?_⟩
  · obtain ⟨i, hi, rfl⟩ := assembleLine_eq_some_iff.1 h
    obtain ⟨-, -, -, -, -, -, hw⟩ := parseLine_eq_some_iff.1 hi
    exact ⟨legalWord_encode hw, i, hi, decode_encode hw⟩
  · obtain ⟨mnemonic, tokens, values, hlex, hvalues, hi, -⟩ := parseLine_eq_some_iff.1 h
    exact ⟨mnemonic, tokens, values, hlex, hvalues, mnemonic_of_commandOf hi⟩
  · refine ⟨fun ⟨f, v, hv, hlt⟩ => parseLine_eq_none_of_limit_lt hlex hvalues hr hm hv hlt,
      parseLine_eq_none_of_not_takes hlex hvalues hr hm, fun ht hle => ?_⟩
    obtain ⟨i, hi, hg⟩ := exists_parseLine hlex hvalues hr hm ht hle
    exact ⟨i, hi, assembleLine_eq_some_iff.2 ⟨i, hi, rfl⟩, hg.op, fun k f hf =>
      (hg.value f).trans (valueOf_of_getElem? hr hf)⟩
  all_goals decide +kernel

end Sys2Proof.Machine
end

section
/-!
SUPPORT. A run of presented commands, one command at a time (R58, R153; log entry 15).
-/

namespace Sys2Proof.Machine

/-- A step that completes leaves the other steps of a run to the state it answers. -/
theorem run_succ_of_step (M : Host.Core) {s t : M.State} (h : M.step s = .next t) (n : Nat) :
    M.run (n + 1) s = M.run n t := by
  simp only [Host.Core.run, h]

/-- A run of no commands only takes from the host what it was about to do. -/
theorem runCommands_nil (s : State) : runCommands [] s = .next (s.present []) := rfl

/-- A well-formed command that completes leaves the rest of the run to the state it answers. -/
theorem runCommands_cons {i : Instr} {rest : List Instr} {s t : State} (hw : i.wellFormed = true)
    (hx : exec i (s.present rest) = .next (t.present rest)) : runCommands (i :: rest) s = runCommands rest t := by
  have hstep : core.step (s.present (i :: rest)) = .next (t.present rest) :=
    (stepRunsDecodedCommand (s.present (i :: rest)) (encode i) (s.present rest).hostIn i rfl
      (decode_encode hw)).trans hx
  exact run_succ_of_step core hstep rest.length

end Sys2Proof.Machine
end

section
/-!
SUPPORT. The frequency table (file 40): what the counting commands, LDF and RDF do to one count, and what a run of
counting commands leaves.
-/

namespace Sys2Proof.Machine

/-! ## Counting (R90, R91) -/

/-- The command counts symbol `k`: CNT its byte, CEOS the end-of-stream symbol, operands in the range of R73. -/
inductive Counts : Instr → Nat → Prop
  | byte (b : Index) (hb : b.toNat ≤ 255) : Counts (.cnt b) b.toNat
  | eos : Counts .ceos 256

theorem Counts.wellFormed {i : Instr} {k : Nat} : Counts i k → i.wellFormed = true
  | .byte _ hb => decide_eq_true hb
  | .eos => rfl

/-- `s` after counting symbol `k` once: the count is one higher and is the answer. -/
def State.counted (s : State) (k : Nat) : State :=
  (s.setFreq k (s.freqAt k + 1)).respond .ok ((s.freqAt k + 1).setWidth 64)

theorem freqAt_counted (s : State) (k j : Nat) :
    (s.counted k).freqAt j = if j = k then s.freqAt k + 1 else s.freqAt j := freqAt_setFreq s k j _

section Counting

variable {i : Instr} {k : Nat} {s : State} (h : Counts i k) (he : s.err = 0) (hp : s.ph = .table)
include h he hp

/-- In phase 0 both counting commands run the one rule. -/
theorem Counts.exec_eq : exec i s = countUp k (encode i) s := by
  cases h with
  | byte b hb => exact execCnt_run he hp hb
  | eos => exact execCeos_run he hp

/-- Below 2^32 - 1 the count goes up by one and is the answer. -/
theorem Counts.exec_below (hc : s.freqAt k ≠ 0xFFFFFFFF) : exec i s = .next (s.counted k) :=
  (h.exec_eq he hp).trans (if_neg hc)

/-- At 2^32 - 1 the command faults. -/
theorem Counts.exec_overflow (hc : s.freqAt k = 0xFFFFFFFF) :
    exec i s = .next { s with err := 6, ecmd := encode i, rspOut := s.rspOut ++ [⟨.fault .cntOvf, 0⟩] } :=
  calc exec i s = .next (s.raise .cntOvf (encode i)) := (h.exec_eq he hp).trans (if_pos hc)
    _ = _ := by rw [raise_first he]; rfl

end Counting

/-- The increment of a count below 2^32 - 1 does not wrap. -/
theorem toNat_count_add_one {c : Count} (hc : c ≠ 0xFFFFFFFF) : (c + 1).toNat = c.toNat + 1 := by bv_omega

/-- The effect R90 and R91 share: the one count, its answer, and nothing else. -/
theorem Counts.exec_counts {i : Instr} {k : Nat} {s : State} (h : Counts i k) (he : s.err = 0) (hp : s.ph = .table)
    (hc : s.freqAt k ≠ 0xFFFFFFFF) :
    ∃ t, exec i s = .next t ∧ (t.freqAt k).toNat = (s.freqAt k).toNat + 1 ∧
      (∀ j, j ≠ k → t.freqAt j = s.freqAt j) ∧
      t = { s with freq := t.freq, rspOut := s.rspOut ++ [⟨.ok, (t.freqAt k).setWidth 64⟩] } := by
  refine ⟨_, h.exec_below he hp hc, ?_, fun j hj => ?_, ?_⟩
  · rw [freqAt_counted, if_pos rfl, toNat_count_add_one hc]
  · rw [freqAt_counted, if_neg hj]
  · rw [freqAt_counted, if_pos rfl]
    rfl

/-- Settles O21: CNT is a counting command of its byte. -/
theorem cntCountsByte : Obligations.CntCountsByte := fun _ b he hp hb hc => (Counts.byte b hb).exec_counts he hp hc

/-- Settles O22: CEOS is the counting command of symbol 256. -/
theorem ceosCountsEndOfStream : Obligations.CeosCountsEndOfStream := fun _ he hp hc => Counts.eos.exec_counts he hp hc

/-- Settles O23, for the two counting commands. -/
theorem countOverflowFaults : Obligations.CountOverflowFaults := fun _ he hp =>
  ⟨fun b hb hc => (Counts.byte b hb).exec_overflow he hp hc, Counts.eos.exec_overflow he hp⟩

/-! ## Loading and reading one count (R92, R93) -/

/-- Settles O24, by reading the table after the write. -/
theorem ldfLoadsEntry : Obligations.LdfLoadsEntry := by
  intro s sym n he hp hs
  exact ⟨_, execLdf_run n he hp hs, freqAt_setFreq_self s sym.toNat n,
    fun k hk => (freqAt_setFreq s sym.toNat k n).trans (if_neg hk), rfl⟩

/-- Settles O26: RDF is a read. -/
theorem rdfReadsEntry : Obligations.RdfReadsEntry := fun s sym hs =>
  exec_read (i := .rdf sym) (by simp [Instr.op]) (decide_eq_true hs) s

/-- Writes to two indices of a canonical table commute: both orders leave canonical tables that read the same. -/
theorem tableSet_comm {β : Type} [DecidableEq β] (d : β) (n : Nat) {t : Table β} {i j : Nat} (v w : β)
    (ht : tableWf d n t = true) (hi : i < n) (hj : j < n) (hij : i ≠ j) :
    tableSet d (tableSet d t i v) j w = tableSet d (tableSet d t j w) i v := by
  refine tableWf_ext d n _ _ (tableWf_set d n _ w hj (tableWf_set d n t v hi ht))
    (tableWf_set d n _ v hi (tableWf_set d n t w hj ht)) fun k => ?_
  simp only [tableGet_set]
  split_ifs with hkj hki
  · exact absurd (hki.symm.trans hkj) hij
  all_goals rfl

theorem setFreq_comm {s : State} {i j : Nat} (m n : Count) (h : s.tablesWf = true) (hi : i < 257) (hj : j < 257)
    (hij : i ≠ j) : (s.setFreq i m).setFreq j n = (s.setFreq j n).setFreq i m := by
  obtain ⟨hfreq, -, -⟩ := (tablesWf_iff s).1 h
  simp only [State.setFreq, tableSet_comm 0 257 m n hfreq hi hj hij]

/-- An LDF command in a run: the rest runs from a state with its count loaded. -/
theorem runCommands_ldf {s : State} {sym : Index} (n : Count) (he : s.err = 0) (hp : s.ph = .table)
    (hs : sym.toNat ≤ 256) (rest : List Instr) :
    runCommands (.ldf sym n :: rest) s = runCommands rest ((s.setFreq sym.toNat n).respond .ok 0) :=
  runCommands_cons (decide_eq_true hs : (Instr.ldf sym n).wellFormed = true)
    (execLdf_run (s := s.present rest) n he hp hs)

/-- Two LDF commands in a row write their two counts and answer twice. -/
theorem runCommands_ldf_ldf {s : State} {a b : Index} (m n : Count) (he : s.err = 0) (hp : s.ph = .table)
    (ha : a.toNat ≤ 256) (hb : b.toNat ≤ 256) : runCommands [.ldf a m, .ldf b n] s =
      .next (((((s.setFreq a.toNat m).setFreq b.toNat n).respond .ok 0).respond .ok 0).present []) :=
  (runCommands_ldf m he hp ha _).trans
    (runCommands_ldf (s := (s.setFreq a.toNat m).respond .ok 0) n he hp hb [])

/-- Settles O25: both orders write the same two counts. -/
theorem ldfCommandsCommute : Obligations.LdfCommandsCommute := by
  intro s a b m n hwf he hp ha hb hab
  refine ⟨_, runCommands_ldf_ldf m n he hp ha hb, ?_⟩
  rw [runCommands_ldf_ldf n m he hp hb ha, setFreq_comm m n hwf (by omega) (by omega) (by bv_omega)]

/-! ## A run of counting commands (R94) -/

/-- One counting command in a run: the rest runs from a state with one count raised. -/
theorem Counts.runCommands_cons {i : Instr} {k : Nat} {s : State} (h : Counts i k) (he : s.err = 0) (hp : s.ph = .table)
    (hc : s.freqAt k ≠ 0xFFFFFFFF) (rest : List Instr) : runCommands (i :: rest) s = runCommands rest (s.counted k) :=
  Machine.runCommands_cons h.wellFormed (h.exec_below (s := s.present rest) he hp hc)

/-- Counting commands of the symbols listed raise each count by the symbol's occurrences, if none overflows, and the rest
of the run goes on from there. -/
theorem runCommands_counting {commands : List Instr} {symbols : List Nat} (h : List.Forall₂ Counts commands symbols) :
    ∀ {s : State}, s.err = 0 → s.ph = .table → (∀ k, (s.freqAt k).toNat + symbols.count k < 2 ^ 32) →
    ∃ t, (∀ rest, runCommands (commands ++ rest) s = runCommands rest t) ∧
      (∀ k, (t.freqAt k).toNat = (s.freqAt k).toNat + symbols.count k) ∧
      t = { s with freq := t.freq, rspOut := t.rspOut } := by
  induction h with
  | nil => exact fun _ _ _ => ⟨_, fun _ => rfl, fun _ => rfl, rfl⟩
  | @cons i j commands symbols hij _ ih =>
    intro s he hp hbound
    have hc : s.freqAt j ≠ 0xFFFFFFFF := by
      have hj := hbound j
      rw [List.count_cons_self] at hj
      bv_omega
    have hcounted (k : Nat) : ((s.counted j).freqAt k).toNat + symbols.count k =
        (s.freqAt k).toNat + (j :: symbols).count k := by
      rw [freqAt_counted]
      split
      · next hkj => rw [hkj, toNat_count_add_one hc, List.count_cons_self]; omega
      · next hkj => rw [List.count_cons_of_ne (Ne.symm hkj)]
    obtain ⟨t, hrun, hcount, hframe⟩ := ih (s := s.counted j) he hp fun k => (hcounted k).trans_lt (hbound k)
    exact ⟨t, fun rest => (hij.runCommands_cons he hp hc _).trans (hrun rest),
      fun k => (hcount k).trans (hcounted k), hframe⟩

/-- The symbols R94 counts: the bytes of the input and one `EOS`. -/
def countedSymbols (input : List Byte) : List Nat := input.map BitVec.toNat ++ [256]

theorem counts_expandCnts (input : List Byte) :
    List.Forall₂ Counts (expandCnts input ++ [.ceos]) (countedSymbols input) := by
  induction input with
  | nil => exact .cons .eos .nil
  | cons b rest ih =>
    have hb : (b.setWidth 10).toNat = b.toNat := BitVec.toNat_setWidth_of_le (by decide)
    exact .cons (hb ▸ .byte (b.setWidth 10) (by omega)) ih

theorem count_countedSymbols_byte (input : List Byte) (b : Byte) :
    (countedSymbols input).count b.toNat = input.count b := by
  have hb : (256 : Nat) ≠ b.toNat := by omega
  rw [countedSymbols, List.count_append, List.count_map_of_injective _ _ fun _ _ => BitVec.eq_of_toNat_eq,
    List.count_singleton, if_neg (by simpa using hb), Nat.add_zero]

theorem count_countedSymbols_of_ge (input : List Byte) {k : Nat} (hk : 256 ≤ k) :
    (countedSymbols input).count k = if 256 = k then 1 else 0 := by
  have hbytes : (input.map BitVec.toNat).count k = 0 := by
    rw [List.count_eq_zero, List.mem_map]
    rintro ⟨b, -, rfl⟩
    omega
  rw [countedSymbols, List.count_append, hbytes, Nat.zero_add, List.count_singleton]
  simp only [beq_iff_eq]

/-- No symbol is counted 2^32 times if no byte occurs so often. -/
theorem count_countedSymbols_lt {input : List Byte} (h : ∀ b, input.count b < 2 ^ 32) (k : Nat) :
    (countedSymbols input).count k < 2 ^ 32 := by
  by_cases hk : k < 256
  · obtain ⟨b, rfl⟩ := exists_toNat_eq (w := 8) hk
    exact (count_countedSymbols_byte input b).trans_lt (h b)
  · rw [count_countedSymbols_of_ge input (by omega)]
    split <;> decide

theorem lt_of_mem_countedSymbols {input : List Byte} {k : Nat} (h : k ∈ countedSymbols input) : k < 257 := by
  simp only [countedSymbols, List.mem_append, List.mem_map, List.mem_singleton] at h
  obtain ⟨b, -, rfl⟩ | rfl := h <;> omega

/-- The occurrences of all numbers below `n` in a list of such numbers sum to its length. -/
theorem sum_count_range {n : Nat} {symbols : List Nat} (h : ∀ k ∈ symbols, k < n) :
    ((List.range n).map fun k => symbols.count k).sum = symbols.length :=
  calc ((List.range n).map fun k => symbols.count k).sum
      = ∑ k ∈ Finset.range n, (symbols : Multiset Nat).count k := by simp only [Multiset.coe_count]; rfl
    _ = symbols.length := Multiset.sum_count_eq_card fun k hk => Finset.mem_range.2 (h k hk)

/-- Settles O27: in whatever order, the commands count the bytes and one `EOS`, from a table of zeros. -/
theorem frequencyCompleteness : Obligations.FrequencyCompleteness := by
  intro input commands hinput hperm
  obtain ⟨symbols, hcounts, hsymbols⟩ := List.perm_comp_forall₂ hperm (counts_expandCnts input)
  have hzero (k : Nat) : (State.reset.freqAt k).toNat = 0 := rfl
  obtain ⟨t, hrun, hcount, hframe⟩ := runCommands_counting hcounts (s := State.reset) rfl rfl fun k => by
    rw [hzero, Nat.zero_add, hsymbols.count_eq]
    exact count_countedSymbols_lt hinput k
  have hfreq (k : Nat) : (t.freqAt k).toNat = (countedSymbols input).count k := by
    rw [hcount, hzero, Nat.zero_add, hsymbols.count_eq]
  refine ⟨t.present [], ?_, ?_, fun b => ?_, ?_, ?_⟩
  · simpa [runCommands_nil] using hrun []
  · exact congrArg State.err hframe
  · exact (hfreq _).trans (count_countedSymbols_byte input b)
  · exact BitVec.eq_of_toNat_eq ((hfreq 256).trans (count_countedSymbols_of_ge input le_rfl))
  · calc (t.present []).totalCount = ((List.range 257).map fun k => (countedSymbols input).count k).sum :=
          congrArg (fun f => ((List.range 257).map f).sum) (funext hfreq)
      _ = (countedSymbols input).length := sum_count_range fun _ => lt_of_mem_countedSymbols
      _ = input.length + 1 := by simp [countedSymbols]

end Sys2Proof.Machine
end

section
/-!
SUPPORT. Reading a node and loading the queue (R102, R105): what RDN packs, the state QLOAD leaves, and the fault where
there is no end-of-stream entry.
-/

namespace Sys2Proof.Machine

/-- A response writes no slot (R11). -/
@[simp] theorem nodeAt_respond (s : State) (c : RspCode) (d : BitVec 64) (k : Nat) :
    (s.respond c d).nodeAt k = s.nodeAt k := rfl

/-! ## RDN (R105) -/

/-- An empty slot reads 0 whatever the selector. -/
theorem rdnData_of_empty {x : Slot} (h : x.nv = false) (sel : Sel) : rdnData x sel = 0 := if_pos h

section ValidSlot

variable {x : Slot} (h : x.nv = true)
include h

/-- Selector 0 reads the queue bit, the valid bit, the leaf bit and the symbol. -/
theorem rdnData_symbol :
    rdnData x 0 = (BitVec.ofBool x.inq ++ 1#1 ++ BitVec.ofBool x.isLeaf ++ x.sym).setWidth 64 := by
  simp [rdnData, h]

/-- Selector 1 reads the weight. -/
theorem rdnData_weight : rdnData x 1 = x.w.setWidth 64 := by simp [rdnData, h]

/-- Selector 2 reads the two links. -/
theorem rdnData_links : rdnData x 2 = (x.one ++ x.zero).setWidth 64 := by simp [rdnData, h]

end ValidSlot

/-- The three flags and the symbol stand at bits 11, 10, 9 and 8:0 of their packing, and nothing above. -/
theorem fields_symbolData (inq nv leaf : BitVec 1) (sym : Symbol) (d : BitVec 64)
    (hd : d = (inq ++ nv ++ leaf ++ sym).setWidth 64) :
    d.getLsbD 11 = inq.getLsbD 0 ∧ d.getLsbD 10 = nv.getLsbD 0 ∧ d.getLsbD 9 = leaf.getLsbD 0 ∧
      d.extractLsb' 0 9 = sym ∧ d.extractLsb' 12 52 = 0 := by
  subst hd
  refine ⟨?_, ?_, ?_, BitVec.eq_of_getLsbD_eq fun j hj => ?_, BitVec.eq_of_getLsbD_eq fun j hj => ?_⟩ <;>
    simp only [BitVec.getLsbD_extractLsb', BitVec.getLsbD_setWidth, BitVec.getLsbD_append]
  · simp
  · simp
  · simp
  · simp [hj, show j < 64 by omega]
  · simp [show ¬ 12 + j < 9 by omega, show ¬ 12 + j - 9 < 1 by omega, show ¬ 12 + j - 9 - 1 < 1 by omega,
      BitVec.getLsbD_of_ge inq (12 + j - 9 - 1 - 1) (by omega)]

/-- The links stand at bits 9:0 and 19:10 of their packing, and nothing above. -/
theorem fields_linkData (one zero : Index) (d : BitVec 64) (hd : d = (one ++ zero).setWidth 64) :
    d.extractLsb' 0 10 = zero ∧ d.extractLsb' 10 10 = one ∧ d.extractLsb' 20 44 = 0 := by
  subst hd
  refine ⟨BitVec.eq_of_getLsbD_eq fun j hj => ?_, BitVec.eq_of_getLsbD_eq fun j hj => ?_,
      BitVec.eq_of_getLsbD_eq fun j hj => ?_⟩ <;>
    simp only [BitVec.getLsbD_extractLsb', BitVec.getLsbD_setWidth, BitVec.getLsbD_append]
  · simp [hj, show j < 64 by omega]
  · simp [hj, show 10 + j < 64 by omega]
  · simp [show ¬ 20 + j < 10 by omega, BitVec.getLsbD_of_ge one (20 + j - 10) (by omega)]

/-- RDN answers what it packs, in any state (R56, R105). -/
theorem exec_rdn (s : State) {i : Index} {sel : Sel} (hi : i.toNat ≤ 512) (hs : sel.toNat ≤ 2) :
    exec (.rdn i sel) s = .next { s with rspOut := s.rspOut ++ [⟨.ok, rdnData (s.nodeAt i.toNat) sel⟩] } :=
  execRdn_run s hi hs

theorem isLeaf_eq_decide (x : Slot) : x.isLeaf = decide (x.zero = 0x3FF ∧ x.one = 0x3FF) := by
  rw [Bool.eq_iff_iff, decide_eq_true_iff]
  exact isLeaf_iff x

/-- Settles O34: an empty slot packs to 0, and each field of a node stands at its bits. -/
theorem rdnReadsNode : Obligations.RdnReadsNode := by
  intro s i hi x answers
  have hanswers (sel : Sel) (hs : sel.toNat ≤ 2) : answers sel (rdnData x sel) := exec_rdn s hi hs
  refine ⟨fun hv => ?_, fun hv => ⟨⟨_, hanswers 0 (by decide), ?_⟩, ?_, ⟨_, hanswers 2 (by decide), ?_⟩⟩⟩
  · have hzero (sel : Sel) (hs : sel.toNat ≤ 2) : answers sel 0 := rdnData_of_empty hv sel ▸ hanswers sel hs
    exact ⟨hzero 0 (by decide), hzero 1 (by decide), hzero 2 (by decide)⟩
  · rw [← isLeaf_eq_decide]
    simpa using fields_symbolData _ _ _ _ _ (rdnData_symbol hv)
  · exact rdnData_weight hv ▸ hanswers 1 (by decide)
  · exact fields_linkData _ _ _ (rdnData_links hv)

/-! ## QLOAD (R102) -/

/-- The state QLOAD leaves, before it answers (R102). -/
def State.loaded (s : State) : State :=
  { s with
    nodes := s.loadLeaves.nodes
    qn := BitVec.ofNat 10 s.numEntries
    nint := 0
    root := if s.numEntries = 1 then 256 else s.root
    cur := if s.numEntries = 1 then 256 else s.cur
    dt := if s.numEntries = 1 then true else s.dt
    ph := if s.numEntries = 1 then .tree else .merging }

/-- With an end-of-stream entry the queue is loaded (R102). -/
theorem loadQueue_of_eos {s : State} (hf : s.freqAt 256 ≠ 0) : s.loadQueue = some s.loaded := by
  cases hl : s.loadQueue with
  | none => exact absurd ((loadQueue_eq_none s).1 hl) hf
  | some t =>
    obtain ⟨-, ⟨h1, rfl⟩ | ⟨h1, rfl⟩⟩ := loadQueue_eq_some hl
    · simp only [State.loaded, h1, if_true]
    · simp only [State.loaded, h1, if_false]

theorem nodes_loaded (s : State) : s.loaded.nodes = s.loadLeaves.nodes := by simp only [State.loaded]

/-- After QLOAD the slots of the table's symbols hold their leaves, every other slot what it held (R102). -/
theorem nodeAt_loaded (s : State) (k : Nat) :
    s.loaded.nodeAt k = if k < 257 ∧ s.freqAt k ≠ 0 then leafSlot k (s.freqAt k) else s.nodeAt k :=
  (nodeAt_congr (nodes_loaded s) k).trans (nodeAt_loadLeaves s k)

theorem toNat_qn_loaded (s : State) : s.loaded.qn.toNat = s.numEntries :=
  Nat.mod_eq_of_lt (lt_of_le_of_lt (numEntries_le s) (by decide))

section FromTable

variable {s : State} (he : s.err = 0) (hp : s.ph = .table) (hf : s.freqAt 256 ≠ 0)
include he hp hf

theorem exec_qload : exec .qload s = .next (s.loaded.respond .ok (s.loaded.qn.setWidth 64)) :=
  execQload_run he hp (loadQueue_of_eos hf)

theorem exec_build_table : exec .build s = finishBuild s.loaded := execBuild_run he hp (loadQueue_of_eos hf)

end FromTable

/-- Settles O29: the slots and the registers of the loaded state. -/
theorem qloadLoadsLeaves : Obligations.QloadLoadsLeaves := by
  intro s he hp hf
  refine ⟨_, exec_qload he hp hf, fun k => ?_, toNat_qn_loaded s, ?_⟩
  · rw [nodeAt_respond, nodeAt_loaded]
    rfl
  · simp only [State.loaded, State.respond]

/-- Settles O30: there is no queue to load, and both commands raise the fault. -/
theorem malformedTableFaults : Obligations.MalformedTableFaults := by
  intro s he hp hf
  have hl : s.loadQueue = none := (loadQueue_eq_none s).2 hf
  constructor
  · exact (execQload_malformed he hp hl).trans (congrArg _ (raise_first he _ _))
  · exact (execBuild_malformed he hp hl).trans (congrArg _ (raise_first he _ _))

end Sys2Proof.Machine
end

section
/-!
SUPPORT. One MERGE (R103): which two entries it takes, the free slot it writes, and the state it leaves, field by field.
-/

namespace Sys2Proof.Machine

section Merge

variable {s : State} {a b : Nat}

/-- In the statements' order: the first entry removed goes before the second, and the second before all the others. -/
theorem State.Removed.goesBefore (r : s.Removed a b) : s.goesBefore a b ∧
    ∀ c, c < 513 → (s.nodeAt c).inq = true → c ≠ a → c ≠ b → s.goesBefore b c := by
  obtain ⟨-, -, hfirst⟩ := qmin_eq_some_iff.1 r.first
  obtain ⟨-, -, hsecond⟩ := qmin_eq_some_iff.1 r.second
  refine ⟨hfirst b r.ltB r.inqB r.ne.symm, fun c hc hcq hca hcb => ?_⟩
  have hbc := hsecond c hc (by rwa [nodeAt_dequeue, if_neg hca]) hcb
  simpa only [State.goesBefore, nodeAt_dequeue, if_neg hca, if_neg r.ne.symm] using hbc

/-- The two entries a MERGE takes are determined by the queue. -/
theorem State.Removed.unique {c d : Nat} (r : s.Removed a b) (r' : s.Removed c d) : a = c ∧ b = d := by
  obtain rfl : a = c := Option.some.inj (r.first.symm.trans r'.first)
  exact ⟨rfl, Option.some.inj (r.second.symm.trans r'.second)⟩

/-- A queue entry is a node slot of the arena (R50). -/
theorem lt_of_queued (h : s.Inv) {i : Nat} (hi : (s.nodeAt i).inq = true) : i < 513 :=
  lt_of_valid h.wf (h.queue.valid i hi)

/-- The slot the next MERGE writes is empty (R38). -/
theorem nextSlot_free (h : s.Inv) (hp : s.ph = .merging) : (s.nodeAt (257 + s.nint.toNat)).nv = false := by
  rw [← Bool.not_eq_true]
  intro hv
  have hL := h.loaded (by rw [hp]; exact Phase.noConfusion)
  exact absurd ((hL.inner _ (nint_lt h hp)).1 hv) (lt_irrefl _)

/-- No queue entry is the slot the next MERGE writes. -/
theorem ne_nextSlot (h : s.Inv) (hp : s.ph = .merging) {i : Nat} (hi : (s.nodeAt i).inq = true) :
    i ≠ 257 + s.nint.toNat := by
  rintro rfl
  exact Bool.false_ne_true ((nextSlot_free h hp).symm.trans (h.queue.valid _ hi))

/-- The weights of two entries of the queue sum to less than 2^41 (R103). -/
theorem removed_weight_lt (h : s.Inv) (hp : s.ph = .merging) (r : s.Removed a b) :
    (s.nodeAt a).w.toNat + (s.nodeAt b).w.toNat < 2 ^ 41 :=
  calc (s.nodeAt a).w.toNat + (s.nodeAt b).w.toNat ≤ s.queueWeight := removed_weight r
    _ = s.totalCount := (h.nodes (by rw [hp]; exact Phase.noConfusion)).weight
    _ < 2 ^ 41 := totalCount_lt s

/-- The state MERGE leaves: the arena, the two counters and, on the last merge, the registers of the complete tree. -/
theorem joined_eq (s : State) (a b : Nat) : s.joined a b = { s with
    nodes := (s.joined a b).nodes
    nint := (s.joined a b).nint
    qn := (s.joined a b).qn
    root := if s.qn = 2 then BitVec.ofNat 10 (257 + s.nint.toNat) else s.root
    cur := if s.qn = 2 then BitVec.ofNat 10 (257 + s.nint.toNat) else s.cur
    dt := if s.qn = 2 then false else s.dt
    ph := if s.qn = 2 then .tree else s.ph } := by
  have hlast : s.qn - 1 = 1 ↔ s.qn = 2 := by constructor <;> bv_omega
  by_cases hq : s.qn = 2
  · rw [State.joined, completeTree_eq, if_pos (hlast.2 hq)]
    simp only [hq, if_true]
    rfl
  · rw [State.joined, completeTree_eq, if_neg (hq ∘ hlast.1)]
    simp only [hq, if_false]
    rfl

/-- A MERGE takes two entries out of the queue and puts one in. -/
theorem toNat_qn_joined (h : s.Inv) (hp : s.ph = .merging) (a b : Nat) : (s.joined a b).qn.toNat + 1 = s.qn.toNat := by
  have hqn := (h.merging hp).qn
  obtain ⟨-, -, -, -, hsub, -⟩ := joined_same s a b
  rw [hsub]
  bv_omega

theorem exec_merge (he : s.err = 0) (hp : s.ph = .merging) (hm : s.mergeOnce = .ok (s.joined a b)) :
    exec .merge s = .next ((s.joined a b).respond .ok (BitVec.ofNat 64 (257 + s.nint.toNat))) :=
  execMerge_run he hp hm

end Merge

/-- Settles O31: MERGE joins the two entries it removes, and the joined state is read off field by field. -/
theorem mergeJoinsTwoLeastEntries : Obligations.MergeJoinsTwoLeastEntries := by
  intro s h he hp
  obtain ⟨a, b, r, hm⟩ := mergeOnce_eq h hp
  obtain ⟨hab, hleast⟩ := r.goesBefore
  have hnode (k : Nat) := (nodeAt_respond (s.joined a b) .ok (BitVec.ofNat 64 (257 + s.nint.toNat)) k).trans
    (nodeAt_joined s r.ne k)
  have hnew := (hnode (257 + s.nint.toNat)).trans (if_pos rfl)
  refine ⟨_, a, b, exec_merge he hp hm, r.ne, r.inqA, r.inqB, hab, fun c hcq => hleast c (lt_of_queued h hcq) hcq,
    ?_, ?_, ?_, ?_, ?_, ?_, ?_, ?_, fun k hka hkb hkn => ?_, joined_nint h hp a b, toNat_qn_joined h hp a b, ?_⟩
  · rw [hnew]; rfl
  · rw [hnew]; rfl
  · rw [hnew]; rfl
  · rw [hnew]; exact Nat.mod_eq_of_lt (removed_weight_lt h hp r)
  · rw [hnew]; exact Nat.mod_eq_of_lt (r.ltA.trans (by decide))
  · rw [hnew]; exact Nat.mod_eq_of_lt (r.ltB.trans (by decide))
  · rw [hnode, if_neg (ne_nextSlot h hp r.inqA), if_neg r.ne, if_pos rfl]
  · rw [hnode, if_neg (ne_nextSlot h hp r.inqB), if_pos rfl]
  · rw [hnode, if_neg hkn, if_neg hkb, if_neg hka]
  · exact congrArg (State.respond · .ok (BitVec.ofNat 64 (257 + s.nint.toNat))) (joined_eq s a b)

end Sys2Proof.Machine
end

section
/-!
SUPPORT. BUILD (R104): the states its loop starts from, and what holds when the loop has completed the tree.
-/

namespace Sys2Proof.Machine

/-- The counts decide the number of entries. -/
theorem numEntries_congr {s t : State} (h : ∀ i, i ≤ 256 → t.freqAt i = s.freqAt i) : t.numEntries = s.numEntries :=
  countP_range_congr fun k hk => by rw [h k (by omega)]

/-- What the tree builder leaves alone, as one equation. -/
theorem State.SameButTree.eq_with {s t : State} (h : s.SameButTree t) : t = { s with
    nodes := t.nodes, nint := t.nint, qn := t.qn, root := t.root, cur := t.cur, dt := t.dt, ph := t.ph } := by
  obtain ⟨herr, hecmd, hfreq, hcodes, hbitOut, hbyteOut, hbitIn, hhost, hrsp⟩ := h
  rw [← herr, ← hecmd, ← hfreq, ← hcodes, ← hbitOut, ← hbyteOut, ← hbitIn, ← hhost, ← hrsp]

/-- The states BUILD's loop runs from: a loaded queue, the decoder at the root where the tree is complete (R104). -/
structure State.ReadyToMerge (s : State) : Prop where
  inv : s.Inv
  ph : s.ph = .merging ∨ s.ph = .tree
  cur : s.ph = .tree → s.cur = s.root

theorem readyToMerge_of_merging {s : State} (h : s.Inv) (hp : s.ph = .merging) : s.ReadyToMerge :=
  ⟨h, .inl hp, fun ht => Phase.noConfusion (hp.symm.trans ht)⟩

theorem readyToMerge_loaded {s : State} (h : s.Inv) (hp : s.ph = .table) (hf : s.freqAt 256 ≠ 0) :
    s.loaded.ReadyToMerge :=
  have hl := loadQueue_of_eos hf
  ⟨loadQueue_inv h hp hl, loadQueue_ph hl, loadQueue_cur hl⟩

theorem sameButTree_loaded {s : State} (hf : s.freqAt 256 ≠ 0) : s.SameButTree s.loaded :=
  sameButTree_loadQueue (loadQueue_of_eos hf)

/-- BUILD runs its loop from a state that is ready to merge, and has changed the tree builder's elements only. -/
theorem exec_build_start {s : State} (h : s.Inv) (he : s.err = 0)
    (hstart : (s.ph = .table ∧ s.freqAt 256 ≠ 0) ∨ s.ph = .merging) :
    ∃ u, exec .build s = finishBuild u ∧ u.ReadyToMerge ∧ s.SameButTree u := by
  rcases hstart with ⟨hp, hf⟩ | hp
  · exact ⟨s.loaded, exec_build_table he hp hf, readyToMerge_loaded h hp hf, sameButTree_loaded hf⟩
  · exact ⟨s, execBuild_merging he hp, readyToMerge_of_merging h hp, sameButTree_refl s⟩

/-- Settles O32: the loop completes the tree, and the rest is what the invariant says of a complete tree. -/
theorem buildCompletesTree : Obligations.BuildCompletesTree := by
  intro s h he hstart
  obtain ⟨u, hx, hu, hsu⟩ := exec_build_start h he hstart
  obtain ⟨t, -, hfinish, hinv, hph, hcur, hut⟩ := finishBuild_spec hu.inv hu.ph hu.cur
  have hsame := sameButTree_trans hsu hut
  have hT := hinv.tree (.inl hph)
  have hbalance := (hinv.loaded (by rw [hph]; exact Phase.noConfusion)).balance
  rw [hT.qn, numEntries_congr fun i _ => freqAt_congr hsame.freq_eq i, Nat.add_comm] at hbalance
  refine ⟨_, hx.trans hfinish, inv_respond hinv _ _, hph, hT.qn, hT.root, hcur, hcur ▸ hT.terminal, hbalance, ?_⟩
  have hframe := hsame.eq_with
  rw [hT.qn, hcur, hph] at hframe
  exact congrArg (State.respond · .ok (t.root.setWidth 64)) hframe

end Sys2Proof.Machine
end

section
/-!
SUPPORT. The tree is a function of the table (R106): states that agree on the slots in use and on the tree builder's
registers are taken by the same merges to states that agree again.
-/

namespace Sys2Proof.Machine

/-! ## Slots and trees that agree -/

/-- Two slots hold the same, or neither is in use. -/
def Slot.Agrees (x y : Slot) : Prop := x = y ∨ (x.nv = false ∧ x.inq = false ∧ y.nv = false ∧ y.inq = false)

section Agrees

variable {x y : Slot} (h : x.Agrees y)
include h

theorem Slot.Agrees.nv_eq : x.nv = y.nv := by
  rcases h with rfl | ⟨hx, -, hy, -⟩
  · rfl
  · rw [hx, hy]

theorem Slot.Agrees.inq_eq : x.inq = y.inq := by
  rcases h with rfl | ⟨-, hx, -, hy⟩
  · rfl
  · rw [hx, hy]

theorem Slot.Agrees.eq_of_valid (hv : x.nv = true) : x = y :=
  h.resolve_right fun hunused => Bool.false_ne_true (hunused.1.symm.trans hv)

theorem Slot.Agrees.eq_of_queued (hq : x.inq = true) : x = y :=
  h.resolve_right fun ⟨_, hunused, _⟩ => Bool.false_ne_true (hunused.symm.trans hq)

end Agrees

/-- Two states hold the same tree: the slots in use and the tree builder's registers. -/
structure State.SameTree (s s' : State) : Prop where
  slots : ∀ i, (s.nodeAt i).Agrees (s'.nodeAt i)
  ph : s.ph = s'.ph
  root : s.root = s'.root
  cur : s.cur = s'.cur
  dt : s.dt = s'.dt
  qn : s.qn = s'.qn
  nint : s.nint = s'.nint

/-! ## One merge -/

section Slots

variable {s s' : State} {a b : Nat} (h : ∀ i, (s.nodeAt i).Agrees (s'.nodeAt i))
include h

/-- The queues of agreeing arenas have the same entries with the same weights, hence the same minimum. -/
theorem qmin_of_agrees (ha : s.qmin = some a) : s'.qmin = some a := by
  obtain ⟨hlt, hq, hleast⟩ := qmin_eq_some_iff.1 ha
  have ha' := (h a).eq_of_queued hq
  refine qmin_eq_some_iff.2 ⟨hlt, ha' ▸ hq, fun c hc hcq hca => ?_⟩
  have hcq' : (s.nodeAt c).inq = true := (h c).inq_eq.trans hcq
  simpa only [State.goesBefore, ha', (h c).eq_of_queued hcq'] using hleast c hc hcq' hca

/-- Taking the same entry out of both queues leaves arenas that agree. -/
theorem agrees_dequeue (hq : (s.nodeAt a).inq = true) (i : Nat) :
    ((s.dequeue a).nodeAt i).Agrees ((s'.dequeue a).nodeAt i) := by
  rw [nodeAt_dequeue, nodeAt_dequeue, (h a).eq_of_queued hq]
  split
  · exact .inl rfl
  · exact h i

/-- MERGE takes the same two entries from agreeing arenas. -/
theorem removed_of_agrees (r : s.Removed a b) : s'.Removed a b where
  first := qmin_of_agrees h r.first
  second := qmin_of_agrees (agrees_dequeue h r.inqA) r.second
  ne := r.ne
  ltA := r.ltA
  ltB := r.ltB
  inqA := (h a).inq_eq.symm.trans r.inqA
  inqB := (h b).inq_eq.symm.trans r.inqB

end Slots

section SameTree

variable {s s' : State} (h : s.SameTree s')
include h

/-- Joining the same two entries of the same tree leaves the same tree. -/
theorem sameTree_joined {a b : Nat} (r : s.Removed a b) : (s.joined a b).SameTree (s'.joined a b) := by
  have ha := (h.slots a).eq_of_queued r.inqA
  have hb := (h.slots b).eq_of_queued r.inqB
  obtain ⟨-, -, -, -, hqn, hnint, -⟩ := joined_same s a b
  obtain ⟨-, -, -, -, hqn', hnint', -⟩ := joined_same s' a b
  refine ⟨fun i => ?_, ?_, ?_, ?_, ?_, by rw [hqn, hqn', h.qn], by rw [hnint, hnint', h.nint]⟩
  · rw [nodeAt_joined s r.ne, nodeAt_joined s' r.ne, ha, hb, h.nint]
    split_ifs
    · exact .inl rfl
    · exact .inl rfl
    · exact .inl rfl
    · exact h.slots i
  all_goals rw [joined_eq s, joined_eq s']
  · simp only [h.qn, h.ph]
  · simp only [h.qn, h.nint, h.root]
  · simp only [h.qn, h.nint, h.cur]
  · simp only [h.qn, h.dt]

theorem sameTree_mergeOnce {u u' : State} (hm : s.mergeOnce = .ok u) (hm' : s'.mergeOnce = .ok u') : u.SameTree u' := by
  obtain ⟨a, b, r, -, -, rfl⟩ := mergeOnce_ok hm
  obtain ⟨c, d, r', -, -, rfl⟩ := mergeOnce_ok hm'
  obtain ⟨rfl, rfl⟩ := (removed_of_agrees h.slots r).unique r'
  exact sameTree_joined h r

end SameTree

/-! ## The loop -/

/-- Outside phase 1 BUILD's loop is done. -/
theorem mergeAll_of_ne {s : State} (hp : s.ph ≠ .merging) (free : Nat) : State.mergeAll free s = .ok s := by
  cases free <;> exact if_neg hp

/-- In phase 1 BUILD's loop goes on from the state its MERGE leaves. -/
theorem mergeAll_succ {s u : State} (hp : s.ph = .merging) (hm : s.mergeOnce = .ok u) (free : Nat) :
    State.mergeAll (free + 1) s = State.mergeAll free u := by
  simp only [State.mergeAll, hp, if_true, hm]

/-- A turn of BUILD's loop that completes has completed its MERGE. -/
theorem mergeAll_succ_ok {s t : State} {free : Nat} (hp : s.ph = .merging) (h : State.mergeAll (free + 1) s = .ok t) :
    ∃ u, s.mergeOnce = .ok u ∧ State.mergeAll free u = .ok t := by
  cases hm : s.mergeOnce with
  | error f =>
    simp only [State.mergeAll, hp, if_true, hm] at h
    cases h
  | ok u => exact ⟨u, rfl, (mergeAll_succ hp hm free).symm.trans h⟩

/-- BUILD's loop completes the same tree from the same tree. -/
theorem sameTree_mergeAll (free : Nat) : ∀ {s s' t t' : State}, s.SameTree s' → State.mergeAll free s = .ok t →
    State.mergeAll free s' = .ok t' → t.SameTree t' := by
  induction free with
  | zero =>
    intro s s' t t' h ht ht'
    by_cases hp : s.ph = .merging
    · exact sameTree_mergeOnce h ((if_pos hp).symm.trans ht) ((if_pos (h.ph.symm.trans hp)).symm.trans ht')
    · obtain rfl := Except.ok.inj ((mergeAll_of_ne hp 0).symm.trans ht)
      obtain rfl := Except.ok.inj ((mergeAll_of_ne (h.ph ▸ hp) 0).symm.trans ht')
      exact h
  | succ free ih =>
    intro s s' t t' h ht ht'
    by_cases hp : s.ph = .merging
    · obtain ⟨u, hm, hu⟩ := mergeAll_succ_ok hp ht
      obtain ⟨u', hm', hu'⟩ := mergeAll_succ_ok (h.ph.symm.trans hp) ht'
      exact ih (sameTree_mergeOnce h hm hm') hu hu'
    · obtain rfl := Except.ok.inj ((mergeAll_of_ne hp _).symm.trans ht)
      obtain rfl := Except.ok.inj ((mergeAll_of_ne (h.ph ▸ hp) _).symm.trans ht')
      exact h

/-! ## From the table -/

/-- In phase 0 no slot is in use (R37), so QLOAD makes the same queue from equal tables. -/
theorem sameTree_loaded {s s' : State} (h : s.TableInv) (h' : s'.TableInv)
    (hfreq : ∀ i, i ≤ 256 → s.freqAt i = s'.freqAt i) : s.loaded.SameTree s'.loaded := by
  have hcount : s.numEntries = s'.numEntries := numEntries_congr hfreq
  refine ⟨fun i => ?_, ?_, ?_, ?_, ?_, ?_, ?_⟩
  · rw [nodeAt_loaded, nodeAt_loaded]
    by_cases hi : i < 257
    · rw [hfreq i (by omega)]
      split
      · exact .inl rfl
      · exact .inr ⟨(h.noNode i).1, (h.noNode i).2, h'.noNode i⟩
    · rw [if_neg (fun hh => hi hh.1), if_neg (fun hh => hi hh.1)]
      exact .inr ⟨(h.noNode i).1, (h.noNode i).2, h'.noNode i⟩
  all_goals simp only [State.loaded, hcount, h.root, h'.root, h.cur, h'.cur, h.dt, h'.dt]

/-- Settles O35: both BUILDs run the loop from loaded queues that agree. -/
theorem treeIsFunctionOfTable : Obligations.TreeIsFunctionOfTable := by
  intro s s' h h' he he' hp hp' hf hfreq
  have hf' : s'.freqAt 256 ≠ 0 := hfreq 256 le_rfl ▸ hf
  have hu := readyToMerge_loaded h hp hf
  have hu' := readyToMerge_loaded h' hp' hf'
  obtain ⟨t, ht, hx, -⟩ := finishBuild_spec hu.inv hu.ph hu.cur
  obtain ⟨t', ht', hx', -⟩ := finishBuild_spec hu'.inv hu'.ph hu'.cur
  have hload := sameTree_loaded (h.table hp) (h'.table hp') hfreq
  have hsame := sameTree_mergeAll _ hload ht (hload.nint ▸ ht')
  exact ⟨_, _, (exec_build_table he hp hf).trans hx, (exec_build_table he' hp' hf').trans hx',
    fun i => ⟨(hsame.slots i).nv_eq, (hsame.slots i).eq_of_valid⟩, hsame.root, hsame.cur, hsame.dt, hsame.qn,
    hsame.nint⟩

end Sys2Proof.Machine
end

section
/-!
SUPPORT. BUILD against QLOAD and the MERGE commands that remain (R104): what the builder does depends neither on the
host's events nor on the responses before it, and a run of MERGE commands does what BUILD's loop does.
-/

namespace Sys2Proof.Machine

/-! ## The builder does not see the host's side -/

/-- `s` with other events to come from the host and other responses returned before (log entries 2 and 3). -/
def State.withHost (s : State) (events : List HostEvent) (responses : List Response) : State :=
  { s with hostIn := events, rspOut := responses }

theorem present_eq_withHost (s : State) (commands : List Instr) :
    s.present commands = s.withHost (commands.map fun i => .command (encode i)) s.rspOut := rfl

section WithHost

variable (s : State) (events : List HostEvent) (responses : List Response)

theorem loadLeaves_withHost : (s.withHost events responses).loadLeaves = s.loadLeaves.withHost events responses :=
  List.foldl_hom (State.withHost · events responses) fun u i => by
    unfold State.loadLeaf
    rw [apply_ite (State.withHost · events responses)]
    rfl

theorem loaded_withHost : (s.withHost events responses).loaded = s.loaded.withHost events responses := by
  unfold State.loaded
  rw [loadLeaves_withHost]
  rfl

theorem joined_withHost (a b : Nat) :
    (s.withHost events responses).joined a b = (s.joined a b).withHost events responses := by
  unfold State.joined
  rw [completeTree_eq, completeTree_eq, apply_ite (State.withHost · events responses)]
  rfl

theorem withHost_respond (c : RspCode) (d : BitVec 64) :
    (s.respond c d).withHost events responses = s.withHost events responses := rfl

theorem inv_withHost (h : s.Inv) : (s.withHost events responses).Inv :=
  inv_of_same h ⟨h.fault.errRange, h.fault.ecmdClear⟩ rfl rfl rfl rfl rfl rfl rfl rfl rfl

end WithHost

/-- MERGE joins the same entries whatever the host's side. -/
theorem mergeOnce_withHost {s u : State} (h : s.Inv) (hp : s.ph = .merging) (hm : s.mergeOnce = .ok u)
    (events : List HostEvent) (responses : List Response) :
    (s.withHost events responses).mergeOnce = .ok (u.withHost events responses) := by
  obtain ⟨a, b, r, -, -, rfl⟩ := mergeOnce_ok hm
  obtain ⟨c, d, r', hm'⟩ := mergeOnce_eq (inv_withHost s events responses h) hp
  obtain ⟨rfl, rfl⟩ := (removed_of_agrees (s := s) (s' := s.withHost events responses) (fun _ => .inl rfl) r).unique r'
  rw [hm', joined_withHost]

/-! ## A run of MERGE commands -/

/-- One MERGE command in a run: the rest runs from the joined state. -/
theorem runCommands_merge {s u : State} (h : s.Inv) (he : s.err = 0) (hp : s.ph = .merging) (hm : s.mergeOnce = .ok u)
    (rest : List Instr) : runCommands (.merge :: rest) s =
      runCommands rest (u.respond .ok (BitVec.ofNat 64 (257 + s.nint.toNat))) := by
  obtain ⟨a, b, -, -, -, rfl⟩ := mergeOnce_ok hm
  have hpresent := mergeOnce_withHost h hp hm (rest.map fun i => .command (encode i)) s.rspOut
  refine runCommands_cons rfl ((execMerge_run (s := s.present rest) he hp hpresent).trans ?_)
  rw [← (sameButTree_joined s a b).rspOut_eq]
  rfl

/-- From a queue of `n + 1` entries BUILD's loop and `n` MERGE commands lead to the same tree: each does `n` merges. -/
theorem merges_complete (n : Nat) : ∀ {s : State}, s.Inv → s.err = 0 → (s.ph = .merging ∨ s.ph = .tree) →
    s.qn.toNat = n + 1 →
    ∃ t : State, (∀ free events responses, n ≤ free →
        State.mergeAll free (s.withHost events responses) = .ok (t.withHost events responses)) ∧
      runCommands (List.replicate n .merge) s = .next (t.withHost [] t.rspOut) := by
  induction n with
  | zero =>
    intro s h he hp hqn
    have hne : s.ph ≠ .merging := fun hm => by
      have := (h.merging hm).qn
      omega
    exact ⟨s, fun free events responses _ => mergeAll_of_ne (s := s.withHost events responses) hne free,
      runCommands_nil s⟩
  | succ n ih =>
    intro s h he hp hqn
    have hm : s.ph = .merging := hp.resolve_right fun ht => by
      rw [(h.tree (.inl ht)).qn] at hqn
      simp at hqn
    obtain ⟨a, b, r, hmerge⟩ := mergeOnce_eq h hm
    have hcount := toNat_qn_joined h hm a b
    obtain ⟨t, hloop, hrun⟩ := ih (s := (s.joined a b).respond .ok (BitVec.ofNat 64 (257 + s.nint.toNat)))
      (inv_respond (mergeOnce_inv h hm r) _ _) ((sameButTree_joined s a b).err_eq.trans he) (joined_ph hm a b)
      (by rw [qn_respond]; omega)
    refine ⟨t, fun free events responses hfree => ?_, (runCommands_merge h he hm hmerge _).trans hrun⟩
    obtain ⟨k, rfl⟩ := Nat.exists_eq_add_of_le' (Nat.one_le_of_lt hfree)
    exact (mergeAll_succ (s := s.withHost events responses) hm (mergeOnce_withHost h hm hmerge _ _) k).trans
      (hloop k events responses (by omega))

/-- From a state that is ready to merge, BUILD's work and the remaining MERGE commands complete the same tree. -/
theorem finishBuild_eq_merges {s : State} (hs : s.ReadyToMerge) (he : s.err = 0) (responses : List Response) :
    ∃ t : State,
      finishBuild (s.withHost [] responses) = .next ((t.withHost [] responses).respond .ok (t.root.setWidth 64)) ∧
      runCommands (List.replicate (s.qn.toNat - 1) .merge) s = .next (t.withHost [] t.rspOut) := by
  have hqn : 1 ≤ s.qn.toNat := by
    rcases hs.ph with hp | hp
    · exact Nat.le_of_succ_le (hs.inv.merging hp).qn
    · rw [(hs.inv.tree (.inl hp)).qn]
      decide
  have hslots : s.qn.toNat - 1 ≤ 256 - s.nint.toNat := by
    have hbalance := (hs.inv.loaded (by rcases hs.ph with hp | hp <;> rw [hp] <;> exact Phase.noConfusion)).balance
    have hle := numEntries_le s
    omega
  obtain ⟨t, hloop, hrun⟩ := merges_complete (s.qn.toNat - 1) hs.inv he hs.ph (by omega)
  refine ⟨t, ?_, hrun⟩
  have hmerge : State.mergeAll (256 - (s.withHost [] responses).nint.toNat) (s.withHost [] responses) =
      .ok (t.withHost [] responses) := hloop _ [] responses hslots
  simp only [finishBuild, hmerge]
  rfl

/-! ## The two equivalences -/

/-- The QLOAD command in a run: the rest runs from the loaded state. -/
theorem runCommands_qload {s : State} (he : s.err = 0) (hp : s.ph = .table) (hf : s.freqAt 256 ≠ 0)
    (rest : List Instr) : runCommands (.qload :: rest) s =
      runCommands rest (s.loaded.respond .ok (s.loaded.qn.setWidth 64)) := by
  refine runCommands_cons rfl ((exec_qload (s := s.present rest) he hp hf).trans ?_)
  rw [present_eq_withHost, loaded_withHost]
  rfl

/-- A run of one command is that command with nothing more to come. -/
theorem runCommands_singleton {i : Instr} {s t : State} (hw : i.wellFormed = true)
    (hx : exec i (s.withHost [] s.rspOut) = .next t) (ht : t.hostIn = []) : runCommands [i] s = .next t := by
  have hnone : t.present [] = t := by
    rw [State.present, List.map_nil, ← ht]
  have hcons := runCommands_cons (rest := []) (s := s) hw (hx.trans (congrArg _ hnone.symm))
  rw [hcons, runCommands_nil, hnone]

/-- BUILD from `s`, where its loop starts from the tree of `u`, and the MERGE commands that remain from `u` differ in
the responses only. -/
theorem build_eq_merges {s u : State} (hu : u.ReadyToMerge) (he : u.err = 0)
    (hx : exec .build (s.withHost [] s.rspOut) = finishBuild (u.withHost [] s.rspOut)) :
    ∃ t v, runCommands [.build] s = .next t ∧
      runCommands (List.replicate (u.qn.toNat - 1) .merge) u = .next v ∧ { v with rspOut := t.rspOut } = t := by
  obtain ⟨t, hbuild, hrun⟩ := finishBuild_eq_merges hu he s.rspOut
  exact ⟨_, _, runCommands_singleton rfl (hx.trans hbuild) (hostIn_respond _ _ _), hrun, rfl⟩

theorem readyToMerge_respond {s : State} (h : s.ReadyToMerge) (c : RspCode) (d : BitVec 64) :
    (s.respond c d).ReadyToMerge :=
  ⟨inv_respond h.inv c d, h.ph, h.cur⟩

/-- Settles O33: in both phases BUILD's loop and the MERGE commands start from the same queue. -/
theorem buildEqualsQloadAndMerges : Obligations.BuildEqualsQloadAndMerges := by
  intro s h he
  refine ⟨fun hp hf => ?_, fun hp => ?_⟩
  · have hready := readyToMerge_respond (readyToMerge_loaded h hp hf) .ok (s.loaded.qn.setWidth 64)
    have hbuild := exec_build_table (s := s.withHost [] s.rspOut) he hp hf
    rw [loaded_withHost, ← withHost_respond s.loaded _ _ .ok (s.loaded.qn.setWidth 64)] at hbuild
    obtain ⟨t, v, ht, hv, htv⟩ := build_eq_merges hready ((sameButTree_loaded hf).err_eq.trans he) hbuild
    rw [qn_respond, toNat_qn_loaded] at hv
    exact ⟨t, v, ht, (runCommands_qload he hp hf _).trans hv, htv⟩
  · exact build_eq_merges (readyToMerge_of_merging h hp) he (execBuild_merging (s := s.withHost [] s.rspOut) he hp)

end Sys2Proof.Machine
end

section
/-!
SUPPORT. The code table's two commands (R120 to R123): the codes DERIVE leaves, and the slices RDC reads of a code.
-/

namespace Sys2Proof.Machine

/-- DERIVE in phase 2 leaves a code table that holds the right code of each symbol of the table and of no other, and
answers with their number (R121). -/
theorem exec_derive {s : State} (h : s.Inv) (he : s.err = 0) (hp : s.ph = .tree) :
    ∃ codes, exec .derive s =
        answer { s with codes := codes, ph := .coded } (BitVec.ofNat 64 s.numEntries) ∧
      (∀ k, s.RightCode (tableGet CodeEntry.empty codes k) k) ∧
      ∀ k, k < 257 → ((tableGet CodeEntry.empty codes k).cv = true ↔ s.freqAt k ≠ 0) := by
  obtain ⟨codes, hwalk, -, hright, hcoded⟩ := derive_spec h (.inl hp)
  exact ⟨codes, execDerive_run he hp hwalk, hright, hcoded⟩

/-- Settles O37: a symbol has a code exactly when the table has it, and each entry of the new code table is right for
the tree. -/
theorem deriveRecordsPaths : Obligations.DeriveRecordsPaths := by
  intro s h he hp
  obtain ⟨codes, hexec, hright, hcoded⟩ := exec_derive h he hp
  refine ⟨_, hexec, fun k hk hf => ?_, fun k hk hf => ?_, rfl⟩
  · have hcv := (hcoded k (Nat.lt_succ_of_le hk)).2 hf
    exact ⟨hcv, (hright k).length hcv, (hright k).path hcv, fun j => (hright k).unused j hcv⟩
  · have hcv := Bool.eq_false_iff.2 fun hcv => (hcoded k (Nat.lt_succ_of_le hk)).1 hcv hf
    exact (hright k).absent hcv

/-! ## RDC (R123) -/

/-- A symbol without a code reads 0 whatever the selector. -/
theorem rdcData_of_absent {c : CodeEntry} (h : c.cv = false) (sel : Sel) : rdcData c sel = 0 := if_pos h

section Coded

variable {c : CodeEntry} (h : c.cv = true)
include h

/-- Selectors 0 to 7 read 32 code bits each. -/
theorem rdcData_slice {sel : Sel} (hs : sel.toNat ≤ 7) :
    rdcData c sel = (c.cbits.extractLsb' (32 * sel.toNat) 32).setWidth 64 := by
  simp [rdcData, h, hs]

/-- Selector 8 reads the length under the valid bit. -/
theorem rdcData_length : rdcData c 8 = (1#1 ++ c.clen).setWidth 64 := by simp [rdcData, h]

end Coded

/-- A 32-bit slice stands at bits 31:0 of its packing, and nothing above. -/
theorem fields_sliceData (bits : CodeBits) (start : Nat) (d : BitVec 64)
    (hd : d = (bits.extractLsb' start 32).setWidth 64) :
    (∀ j, j < 32 → d.getLsbD j = bits.getLsbD (start + j)) ∧ d.extractLsb' 32 32 = 0 := by
  subst hd
  refine ⟨fun j hj => ?_, BitVec.eq_of_getLsbD_eq fun j hj => ?_⟩
  · simp [hj, show j < 64 by omega]
  · simp

/-- The length stands at bits 8:0 of its packing, the valid bit at bit 9, and nothing above. -/
theorem fields_lengthData (len : CodeLen) (d : BitVec 64) (hd : d = (1#1 ++ len).setWidth 64) :
    d.extractLsb' 0 9 = len ∧ d.getLsbD 9 = true ∧ d.extractLsb' 10 54 = 0 := by
  subst hd
  refine ⟨BitVec.eq_of_getLsbD_eq fun j hj => ?_, ?_, BitVec.eq_of_getLsbD_eq fun j hj => ?_⟩ <;>
    simp only [BitVec.getLsbD_extractLsb', BitVec.getLsbD_setWidth, BitVec.getLsbD_append]
  · simp [hj, show j < 64 by omega]
  · simp
  · simp [show ¬ 10 + j < 9 by omega, BitVec.getLsbD_of_ge 1#1 (10 + j - 9) (by omega)]

/-- RDC answers what it packs, in any state (R56, R123). -/
theorem exec_rdc (s : State) {sym : Index} {sel : Sel} (hn : sym.toNat ≤ 256) (hs : sel.toNat ≤ 8) :
    exec (.rdc sym sel) s =
      .next { s with rspOut := s.rspOut ++ [⟨.ok, rdcData (s.codeAt sym.toNat) sel⟩] } :=
  execRdc_run s hn hs

/-- Settles O39: an absent code packs to 0, and the slice or the length of a code stands at its bits. -/
theorem rdcReadsCode : Obligations.RdcReadsCode := by
  intro s sym sel hn hs
  refine ⟨_, exec_rdc s hn hs, fun hc => rdcData_of_absent hc sel, fun hc hsel => ?_, fun hc hsel => ?_⟩
  · exact fields_sliceData _ _ _ (rdcData_slice hc hsel)
  · exact fields_lengthData _ _ (hsel ▸ rdcData_length hc)

end Sys2Proof.Machine
end

section
/-!
SUPPORT. The encoder's two commands (R130 to R132): the bits they write, and whose code is empty.
-/

namespace Sys2Proof.Machine

/-- A code that fits its store is written whole, and its length is the answer (R131, R132). -/
theorem writeCode_run {c : CodeEntry} (hlen : c.clen.toNat ≤ 256) (s : State) :
    writeCode c s = .next { s with
      bitOut := s.bitOut ++ c.bits, rspOut := s.rspOut ++ [⟨.ok, c.clen.setWidth 64⟩] } := if_pos hlen

section CodedPhase

variable {s : State} (h : s.Inv) (hp : s.ph = .coded)
include h hp

/-- Only the root itself is reached by no choice at all. -/
theorem codeBits_eq_nil_iff {i : Nat} (hc : (s.codeAt i).cv = true) :
    (s.codeAt i).bits = [] ↔ s.root.toNat = i := by
  have hpath := (h.codes hp).path i hc
  constructor
  · intro hnil
    rw [hnil] at hpath
    exact Option.some.inj hpath
  · intro hroot
    rw [hroot] at hpath
    exact follow_leaf (h.nodes (hasTree_ne_table (.inr hp))) (lt_of_coded h hc) hpath

/-- An empty code would be a prefix of the end-of-stream code, so a literal byte has none (R131, corner case (a)). -/
theorem codeBits_ne_nil {i : Nat} (hi : i ≠ 256) (hc : (s.codeAt i).cv = true) : (s.codeAt i).bits ≠ [] := by
  intro hnil
  have hprefix : (s.codeAt i).bits <+: (s.codeAt 256).bits := hnil ▸ List.nil_prefix
  have hC := h.codes hp
  exact hi (prefix_free (h.nodes (hasTree_ne_table (.inr hp))) (lt_of_coded h hc) (hC.path i hc)
    (hC.path 256 (eos_coded h hp)) hprefix)

end CodedPhase

/-- Settles O40: the bits written are the code of the byte, which is no empty one. -/
theorem encWritesCode : Obligations.EncWritesCode := by
  intro s b he hp hb hc hlen
  have hexec : exec (.enc b) s = writeCode (s.codeAt b.toNat) s := execEnc_run he hp hb hc
  exact ⟨(s.codeAt b.toNat).bits, hexec.trans (writeCode_run hlen s), length_codeBits _,
    fun _ => getElem?_codeBits _, fun h => codeBits_ne_nil h hp (by omega) hc⟩

/-- Settles O41: the command's own rule raises a first fault. -/
theorem encWithoutCodeFaults : Obligations.EncWithoutCodeFaults := by
  intro s b he hp hb hc
  have hexec : exec (.enc b) s = .next (s.raise .noCode (encode (.enc b))) := execEnc_noCode he hp hb hc
  rw [hexec, raise_first he]
  rfl

/-- Settles O42: the end-of-stream symbol is coded in phase 3, and its code is empty only at the root. -/
theorem eeosWritesEndOfStreamCode : Obligations.EeosWritesEndOfStreamCode := by
  intro s h he hp
  have hc := eos_coded h hp
  have hexec : exec .eeos s = writeCode (s.codeAt 256) s := execEeos_run he hp
  have hroot : s.root = 256 ↔ s.root.toNat = 256 := BitVec.toNat_inj.symm
  exact ⟨hc, (s.codeAt 256).bits, hexec.trans (writeCode_run (clen_le h 256 hc) s), length_codeBits _,
    fun _ => getElem?_codeBits _, hroot.trans (codeBits_eq_nil_iff h hp hc).symm⟩

end Sys2Proof.Machine
end

section
/-!
SUPPORT. The decoder (file 44): where one DSTEP goes, both commands at the decoder's ends, and what DECODE leaves (R141,
R142).
-/

namespace Sys2Proof.Machine

/-- A walking decoder at the end of the bits answers `E_TRUNC` (R142). -/
theorem decodeLoop_nil {s : State} (hd : s.dt = false) (count : Nat) :
    decodeLoop [] count s = .next (s.raise .trunc (encode .decode)) :=
  if_neg (by rw [hd]; exact Bool.false_ne_true)

/-- Settles O43, by where the link leads: below 256, to 256, or above. -/
theorem dstepWalksOneLink : Obligations.DstepWalksOneLink := by
  intro s b rest h he ht hd hb n
  have hlink : n = s.linkOf s.cur.toNat b := rfl
  clear_value n
  have hn : n.toNat = s.childOf s.cur.toNat b := hlink ▸ linkOf_toNat s _ b
  have h' := inv_bitIn h rest
  have hrun {t : State} {a : Arrival} (hw : { s with bitIn := rest }.walk b = .ok (t, a)) :
      exec .dstep s = .next (t.respond .ok a.data) := execDstep_run he ht hd hb hw
  refine ⟨fun hinner => ?_, fun heos => ?_, fun hbyte => ?_⟩
  · have hc : 257 ≤ s.childOf s.cur.toNat b := hn ▸ hinner
    rw [hlink]
    exact hrun (walk_moved h' ht hd hc)
  · have hc : s.childOf s.cur.toNat b = 256 := by rw [← hn, heos]; rfl
    exact hrun (walk_ended h' ht hd hc)
  · have hc : s.childOf s.cur.toNat b < 256 := by omega
    have hv : n.setWidth 8 = BitVec.ofNat 8 (s.childOf s.cur.toNat b) := by rw [← hn]; rfl
    have hdata : n.setWidth 64 = (n.setWidth 8).setWidth 64 := by bv_omega
    rw [hdata, hv]
    exact hrun (walk_emitted h' ht hd hc)

/-- Settles O44: the terminal answers, and the fault primitive recording a first fault. -/
theorem decoderAtItsEnds : Obligations.DecoderAtItsEnds := by
  intro s he ht
  refine ⟨fun hd => ⟨execDstep_terminal he ht hd, ?_⟩, fun hd hb => ⟨?_, ?_⟩⟩
  · exact (execDecode_run he ht).trans (decodeLoop_terminal hd _ 0)
  · have hstep : exec .dstep s = .next (s.raise .trunc (encode .dstep)) := execDstep_trunc he ht hd hb
    rw [hstep, raise_first he]
    rfl
  · have hloop : exec .decode s = decodeLoop s.bitIn 0 s := execDecode_run he ht
    rw [hloop, hb, decodeLoop_nil hd, raise_first he, hb]
    rfl

/-- Settles O45: the loop completes, and in the terminal state the position is the end-of-stream leaf (R41). -/
theorem decodeCompletes : Obligations.DecodeCompletes := by
  intro s h he ht
  obtain ⟨t, hloop, hinv⟩ := decodeLoop_spec s.bitIn 0 h ht
  have hexec : exec .decode s = .next t := (execDecode_run he ht).trans hloop
  obtain ⟨used, rest, bytes, c, e, hbits, hlen, ⟨rfl, rfl⟩ | ⟨rfl, hd, rfl, rfl⟩⟩ := decodeLoop_next _ rfl hloop
  · have hcur : c = 256 := (hinv.tree ht).terminal.1 rfl
    refine ⟨_, bytes, used, hexec, hbits, hlen, .inl ?_⟩
    rw [hcur, Nat.zero_add]
    rfl
  · refine ⟨_, bytes, used, hexec, by rw [bitIn_raise]; exact hbits, hlen, .inr ⟨?_, hd⟩⟩
    rw [raise_first (by exact he), hd]
    rfl

end Sys2Proof.Machine
end

section
/-!
SUPPORT. DECODE against DSTEP commands (R142): the two run the same steps, whatever the host's side, and end alike.
-/

namespace Sys2Proof.Machine

/-! ## One step of the loop -/

/-- Following a link neither reads nor writes the host's side. -/
theorem walk_withHost (s : State) (b : Bool) (events : List HostEvent) (responses : List Response) :
    (s.withHost events responses).walk b = (s.walk b).map fun r => (r.1.withHost events responses, r.2) := by
  have hnode (i : Nat) : (s.withHost events responses).node? i = s.node? i := rfl
  have hcur : (s.withHost events responses).cur = s.cur := rfl
  simp only [State.walk, hcur, hnode]
  cases s.node? s.cur.toNat with
  | none => rfl
  | some here =>
    dsimp only
    generalize (if b = true then here.one else here.zero) = n
    cases s.node? n.toNat with
    | none => rfl
    | some x =>
      dsimp only
      split_ifs <;> rfl

/-- A walk that completes does so whatever the host's side. -/
theorem walk_withHost_of_ok {s t : State} {b : Bool} {a : Arrival} (hw : s.walk b = .ok (t, a))
    (events : List HostEvent) (responses : List Response) :
    (s.withHost events responses).walk b = .ok (t.withHost events responses, a) :=
  (walk_withHost s b events responses).trans (congrArg _ hw)

/-- A bit that is walked leaves the rest of the loop to the state reached, with the bytes written counted. -/
theorem decodeLoop_cons_of_walk {s t : State} {b : Bool} {rest : List Bool} {a : Arrival} (hd : s.dt = false)
    (hw : { s with bitIn := rest }.walk b = .ok (t, a)) (count : Nat) :
    decodeLoop (b :: rest) count s = decodeLoop rest (count + a.numBytes) t := by
  rw [decodeLoop_cons hd, hw]
  cases a <;> rfl

/-- Bit 8 of the response data tells whether a byte was written (R141). -/
theorem getLsbD_arrivalData (a : Arrival) : (if a.data.getLsbD 8 then 1 else 0) = a.numBytes := by
  cases a with
  | moved | ended => rfl
  | emitted v =>
    have hbit : (0x100 + v.setWidth 64 : BitVec 64).getLsbD 8 = true := by
      have hv : (0x100 + v.setWidth 64 : BitVec 64).toNat = 256 + v.toNat := by bv_omega
      have := v.isLt
      rw [← BitVec.testBit_toNat, hv, Nat.testBit_eq_decide_div_mod_eq]
      exact decide_eq_true (by omega)
    exact if_pos hbit

/-- Kind 2 is the answer at the end of the stream only (R141). -/
theorem arrivalData_ne {a : Arrival} (h : a ≠ .ended) : a.data ≠ 0x200 := by
  cases a with
  | moved => decide
  | emitted v =>
    simp only [Arrival.data]
    bv_omega
  | ended => exact absurd rfl h

/-! ## A run of DSTEP commands -/

/-- A run of DSTEP commands leads from `s` to `u` and answers `steps` and then `last`; none of `steps` is a fault or of
kind 2. -/
structure DstepRun (s u : State) (steps : List Response) (last : Response) : Prop where
  run : runCommands (List.replicate (steps.length + 1) .dstep) s = .next u
  answers : u.rspOut = s.rspOut ++ steps ++ [last]
  going : ∀ r ∈ steps, r.code = .ok ∧ r.data ≠ 0x200

/-- A run of one DSTEP. -/
theorem DstepRun.single {s u : State} {last : Response} (hx : exec .dstep (s.withHost [] s.rspOut) = .next u)
    (hhost : u.hostIn = []) (hrsp : u.rspOut = s.rspOut ++ [last]) : DstepRun s u [] last where
  run := runCommands_singleton rfl hx hhost
  answers := by rw [hrsp, List.append_nil]
  going := fun _ hr => absurd hr List.not_mem_nil

/-- One DSTEP that goes on, before a run. -/
theorem DstepRun.cons {s t u : State} {d : BitVec 64} {steps : List Response} {last : Response}
    (hx : ∀ events, exec .dstep (s.withHost events s.rspOut) = .next ((t.withHost events s.rspOut).respond .ok d))
    (hrsp : t.rspOut = s.rspOut) (hd : d ≠ 0x200) (hrun : DstepRun (t.respond .ok d) u steps last) :
    DstepRun s u (⟨.ok, d⟩ :: steps) last where
  run := by
    have hpresent (commands : List Instr) :
        exec .dstep (s.present commands) = .next ((t.respond .ok d).present commands) := by
      rw [present_eq_withHost, hx, ← hrsp]
      rfl
    exact (runCommands_cons rfl (hpresent _)).trans hrun.run
  answers := by simp [hrun.answers, hrsp]
  going := List.forall_mem_cons.2 ⟨⟨rfl, hd⟩, hrun.going⟩

/-! ## The equivalence -/

/-- `t` is what DECODE leaves after `responses` and `n` bytes when the last DSTEP answers `last` and leaves `u`. -/
def EndsAlike (responses : List Response) (n : Nat) (last : Response) (u t : State) : Prop :=
  last = ⟨.ok, 0x200⟩ ∧ t = { u with rspOut := responses ++ [⟨.ok, BitVec.ofNat 64 n⟩] } ∨
  last = ⟨.fault .trunc, 0⟩ ∧
    t = { u with ecmd := encode .decode, rspOut := responses ++ [⟨.fault .trunc, 0⟩] }

/-- A run of DSTEP commands from `s` does what the loop does, whatever was answered before the loop; its bytes are the
answers of kind 1, which bit 8 tells. -/
def State.LoopIsDsteps (s : State) (bits : List Bool) (count : Nat) (responses : List Response) : Prop :=
  ∃ t u steps last, DstepRun s u steps last ∧ decodeLoop bits count (s.withHost [] responses) = .next t ∧
    EndsAlike responses (count + steps.countP fun r => r.data.getLsbD 8) last u t

/-- In the terminal state one DSTEP answers kind 2 and the loop ends. -/
theorem loopIsDsteps_terminal {s : State} (he : s.err = 0) (ht : s.hasTree) (hd : s.dt = true) (bits : List Bool)
    (count : Nat) (responses : List Response) : s.LoopIsDsteps bits count responses :=
  ⟨_, _, [], _, .single (execDstep_terminal (s := s.withHost [] s.rspOut) he ht hd) rfl rfl,
    decodeLoop_terminal (s := s.withHost [] responses) hd bits count, .inl ⟨rfl, rfl⟩⟩

/-- Bit by bit, DSTEP and one turn of the loop walk the same link (R142). -/
theorem loopIsDsteps (bits : List Bool) : ∀ {s : State} (count : Nat) (responses : List Response),
    s.Inv → s.err = 0 → s.hasTree → s.bitIn = bits → s.LoopIsDsteps bits count responses := by
  induction bits with
  | nil =>
    intro s count responses h he ht hb
    cases hd : s.dt with
    | true => exact loopIsDsteps_terminal he ht hd _ count responses
    | false =>
      have hlast := execDstep_trunc (s := s.withHost [] s.rspOut) he ht hd hb
      have hloop := decodeLoop_nil (s := s.withHost [] responses) hd count
      rw [raise_first (by exact he)] at hlast hloop
      exact ⟨_, _, [], _, .single hlast rfl rfl, hloop, .inr ⟨rfl, rfl⟩⟩
  | cons b rest ih =>
    intro s count responses h he ht hb
    cases hd : s.dt with
    | true => exact loopIsDsteps_terminal he ht hd _ count responses
    | false =>
      obtain ⟨t, a, hw, hinv, -⟩ := walk_spec (inv_bitIn h rest) ht hd b
      obtain ⟨c, e, bytes, rfl, hends⟩ := walk_ok hw
      have hstep events := execDstep_run (s := s.withHost events s.rspOut) he ht hd hb
        (walk_withHost_of_ok hw events s.rspOut)
      have hloop := decodeLoop_cons_of_walk (s := s.withHost [] responses) hd
        (walk_withHost_of_ok hw [] responses) count
      by_cases ha : a = .ended
      · obtain ⟨rfl, -, -⟩ | ⟨rfl, -, rfl⟩ | ⟨v, rfl, -⟩ := hends <;> cases ha
        exact ⟨_, _, [], _, .single (hstep []) rfl rfl, hloop.trans (decodeLoop_terminal rfl _ _),
          .inl ⟨rfl, rfl⟩⟩
      · obtain ⟨t', u, steps, last, hrun, hrest, hend⟩ := ih (count + a.numBytes) responses
          (inv_respond hinv .ok a.data) he (by exact ht) rfl
        refine ⟨t', u, ⟨.ok, a.data⟩ :: steps, last, .cons hstep rfl (arrivalData_ne ha) hrun, hloop.trans hrest,
          ?_⟩
        rw [List.countP_cons, getLsbD_arrivalData, Nat.add_comm (List.countP ..), ← Nat.add_assoc]
        exact hend

/-- Settles O46: the loop from DECODE's own state, with no byte counted yet. -/
theorem decodeEqualsRepeatedDstep : Obligations.DecodeEqualsRepeatedDstep := by
  intro s h he ht
  obtain ⟨t, u, steps, last, hrun, hloop, hend⟩ := loopIsDsteps s.bitIn 0 s.rspOut h he ht rfl
  have hdecode : exec .decode (s.withHost [] s.rspOut) = .next t :=
    (execDecode_run (s := s.withHost [] s.rspOut) he ht).trans hloop
  rw [Nat.zero_add] at hend
  obtain ⟨c, d, ⟨-, hhost⟩, -⟩ := exec_answers hdecode
  exact ⟨t, u, steps, last, runCommands_singleton rfl hdecode hhost, hrun.run, hrun.answers, hrun.going, hend⟩

end Sys2Proof.Machine
end

section
/-!
SUPPORT. Decoding an encoded stream (R143): each code leads the decoder from the root to its symbol's leaf, whichever
state the codes were derived in.
-/

namespace Sys2Proof.Machine

/-- The stream of a longer input starts with the code of its first byte (R130). -/
theorem codeStream_cons (c : State) (b : Byte) (input : List Byte) :
    c.codeStream (b :: input) = (c.codeAt b.toNat).bits ++ c.codeStream input := by
  simp [State.codeStream]

/-- Two canonical arenas that read the same are one. -/
theorem nodes_eq_of_nodeAt_eq {s c : State} (hs : s.tablesWf = true) (hc : c.tablesWf = true)
    (hn : ∀ i, s.nodeAt i = c.nodeAt i) : s.nodes = c.nodes := by
  obtain ⟨-, hs, -⟩ := (tablesWf_iff s).1 hs
  obtain ⟨-, hc, -⟩ := (tablesWf_iff c).1 hc
  exact tableWf_ext _ _ _ _ hs hc hn

/-- A byte's code brings the decoder back to the root (R41, R141). -/
theorem inv_arrived_byte {s : State} (h : s.Inv) (ht : s.hasTree) (hd : s.dt = false) {k : Nat} (hk : k ≠ 256)
    (rest : List Bool) : (s.arrived k rest).Inv := by
  have hroot := root_inner_of_walking h ht hd
  have hterm : s.dt = true ↔ s.root = 256 := by
    rw [hd]
    exact ⟨fun e => Bool.noConfusion e, fun e => absurd hroot (by rw [e]; decide)⟩
  rw [State.arrived, if_neg hk]
  exact inv_moved h ht (h.queue.valid _ (h.tree ht).root) hterm (fun _ => hroot) rfl rfl rfl rfl rfl rfl rfl rfl rfl

/-- The codes of `c` are paths in the tree of `s`: those of the bytes of `input`, and the end-of-stream code. -/
def State.LeadsBy (s c : State) (input : List Byte) : Prop :=
  (∀ b ∈ input, s.follow s.root.toNat (c.codeAt b.toNat).bits = some b.toNat) ∧
    s.follow s.root.toNat (c.codeAt 256).bits = some 256

/-- Which codes lead to their symbols depends on the arena and the root only. -/
theorem leadsBy_congr {s t c : State} {input : List Byte} (hnodes : t.nodes = s.nodes) (hroot : t.root = s.root)
    (h : s.LeadsBy c input) : t.LeadsBy c input := by
  simpa only [State.LeadsBy, follow_congr hnodes, hroot] using h

/-- In phase 3 each byte counted has a code, and each code leads to its symbol (R42). -/
theorem leadsBy_own {c : State} {input : List Byte} (h : c.Inv) (hp : c.ph = .coded)
    (hcounted : ∀ b ∈ input, c.freqAt b.toNat ≠ 0) : c.LeadsBy c input :=
  have hC := h.codes hp
  ⟨fun b hb => hC.path _ ((hC.coded _ (by omega)).2 (hcounted b hb)), hC.path _ (eos_coded h hp)⟩

/-- From the root a walking decoder reads the stream to its last bit and writes its bytes. -/
theorem decodeLoop_codeStream {c : State} (input : List Byte) : ∀ {s : State} (count : Nat) (rest : List Bool),
    s.Inv → s.hasTree → s.dt = false → s.cur = s.root → s.LeadsBy c input →
    decodeLoop (c.codeStream input ++ rest) count s =
      answer { s with bitIn := rest, byteOut := s.byteOut ++ input, cur := 256, dt := true }
        (BitVec.ofNat 64 (count + input.length)) := by
  induction input with
  | nil =>
    rintro s count rest h ht hd hcur ⟨-, heos⟩
    have hpath := decodeLoop_path (c.codeAt 256).bits count rest h ht hd (by decide) (hcur ▸ heos)
    rw [List.append_nil]
    exact hpath.trans (decodeLoop_terminal rfl _ _)
  | cons b input ih =>
    rintro s count rest h ht hd hcur ⟨hbytes, heos⟩
    obtain ⟨hb, hbytes⟩ := List.forall_mem_cons.1 hbytes
    have hrest : s.LeadsBy c input := ⟨hbytes, heos⟩
    have hlt := b.isLt
    have hne : b.toNat ≠ 256 := by omega
    have hinv := inv_arrived_byte h ht hd hne (c.codeStream input ++ rest)
    rw [codeStream_cons, List.append_assoc,
      decodeLoop_path _ count _ h ht hd (by omega) (hcur ▸ hb), if_neg hne]
    rw [State.arrived, if_neg hne] at hinv ⊢
    rw [ih (count + 1) rest hinv ht hd rfl (leadsBy_congr (s := s) rfl rfl hrest)]
    simp [answer_eq, Nat.add_assoc, Nat.add_comm 1]

/-- In the terminal state at its root the decoder's tree is the end-of-stream leaf alone, so the stream is empty. -/
theorem eq_nil_of_terminal_root {s c : State} {input : List Byte} (h : s.Inv) (ht : s.hasTree) (hroot : s.root = 256)
    (hcodes : s.LeadsBy c input) : input = [] ∧ c.codeStream input = [] := by
  have hN := h.nodes (hasTree_ne_table ht)
  obtain ⟨hbytes, heos⟩ := hcodes
  have hleaf : s.root.toNat < 257 := by rw [hroot]; decide
  have hnil : (c.codeAt 256).bits = [] := follow_leaf hN hleaf heos
  cases input with
  | nil => exact ⟨rfl, hnil⟩
  | cons b input =>
    have hb := hbytes b List.mem_cons_self
    rw [follow_leaf hN hleaf hb, hroot] at hb
    have hbyte : 256 = b.toNat := Option.some.inj hb
    have := b.isLt
    omega

/-- Settles O47: by the stream from the root, or the empty stream of the single-leaf tree. -/
theorem decodingUndoesEncoding : Obligations.DecodingUndoesEncoding := by
  intro c s input rest hc hp hcounted h he ht hcur hroot hn hbits
  have hcodes := leadsBy_congr (nodes_eq_of_nodeAt_eq h.wf hc.wf hn) hroot (leadsBy_own hc hp hcounted)
  have hexec : exec .decode s = decodeLoop s.bitIn 0 s := execDecode_run he ht
  rw [hexec]
  cases hd : s.dt with
  | false =>
    rw [hbits, decodeLoop_codeStream input 0 rest h ht hd hcur hcodes, Nat.zero_add]
    rfl
  | true =>
    have hterm : s.cur = 256 := (h.tree ht).terminal.1 hd
    obtain ⟨rfl, hstream⟩ := eq_nil_of_terminal_root h ht (hcur ▸ hterm) hcodes
    rw [decodeLoop_terminal hd, List.append_nil, ← hd, ← hterm, ← List.nil_append rest, ← hstream, ← hbits]
    rfl

end Sys2Proof.Machine
end

section
/-!
SUPPORT. The system commands (file 45): which words reset, and the fields of `STATUS` (R26, R150, R151).
-/

namespace Sys2Proof.Machine

/-- A legal word with RESET's opcode is RESET's word: the command uses no other field (R73). -/
theorem eq_resetWord_of_legalWord {w : Word} (hw : legalWord w) (hop : opField w = 0x01) :
    w = 0x0100000000000000 := by
  obtain ⟨i, rfl, -⟩ := exists_encode_of_legalWord hw
  rw [encode, opField_makeWord] at hop
  cases i with
  | reset => rfl
  | _ => simp [Instr.op] at hop

/-- An illegal word with an exempt opcode raises `E_ILLEGAL` whether or not HFE is faulted; a later fault is not
recorded (R170, R171). -/
theorem step_illegal_exempt {s : State} {w : Word} {rest : List HostEvent} (hh : s.hostIn = .command w :: rest)
    (hw : ¬ legalWord w) (hop : exemptOp (opField w) = true) :
    step s = .next { s with
      hostIn := rest, err := if s.err = 0 then 4 else s.err, ecmd := if s.err = 0 then w else s.ecmd
      rspOut := s.rspOut ++ [⟨.fault .illegal, 0⟩] } := by
  have hraise : step s = .next (({ s with hostIn := rest } : State).raise .illegal w) :=
    (step_of_not_legalWord hh hw).trans (frontEnd_illegal (.inr hop) rfl)
  rw [hraise]
  by_cases he : s.err = 0
  · rw [raise_first (s := { s with hostIn := rest }) he, if_pos he, if_pos he]
    rfl
  · rw [raise_later (s := { s with hostIn := rest }) he, if_neg he, if_neg he]

/-- Settles O18: RESET is exempt and releases everything, and any other word with its opcode is illegal. -/
theorem resetReleasesEverything : Obligations.ResetReleasesEverything := by
  intro s
  refine ⟨execReset_run s, fun w rest hh hop hne => ?_⟩
  exact step_illegal_exempt hh (fun hw => hne (eq_resetWord_of_legalWord hw hop)) (by rw [hop]; rfl)

/-- Each register stands at its bits of `STATUS`, the `fault` output at bit 2, and nothing above bit 46 (R26). -/
theorem fields_status (s : State) :
    s.status.extractLsb' 0 2 = s.ph.bits ∧ s.status.extractLsb' 2 1 = s.faultOutput ∧
      s.status.extractLsb' 3 1 = BitVec.ofBool s.dt ∧ s.status.extractLsb' 4 4 = s.err ∧
      s.status.extractLsb' 8 10 = s.root ∧ s.status.extractLsb' 18 10 = s.cur ∧ s.status.extractLsb' 28 10 = s.qn ∧
      s.status.extractLsb' 38 9 = s.nint ∧ s.status.extractLsb' 47 17 = 0 := by
  unfold State.status
  refine ⟨?_, ?_, ?_, ?_, ?_, ?_, ?_, ?_, BitVec.eq_of_getLsbD_eq fun j hj => ?_⟩
  case refine_9 =>
    rw [BitVec.getLsbD_extractLsb', BitVec.getLsbD_setWidth, BitVec.getLsbD_of_ge _ (47 + j) (by omega)]
    simp
  -- A register's slice drops the fields below it, then those above it, and what is left is the register whole.
  all_goals
    simp (disch := decide) only [BitVec.extractLsb'_setWidth_of_le, BitVec.extractLsb'_append_eq_of_le,
      BitVec.extractLsb'_append_eq_of_add_le, Nat.reduceSub, BitVec.extractLsb'_eq_self]

/-- The lowest bit of a slice is the word's own bit at its start. -/
theorem getLsbD_of_extractLsb' {w n : Nat} {x : BitVec w} {b : Bool} (h : x.extractLsb' n 1 = BitVec.ofBool b) :
    x.getLsbD n = b := by
  simpa using congrArg (BitVec.getLsbD · 0) h

/-- Settles O19: both selectors are reads, and `STATUS` is read field by field. -/
theorem rdstReadsStatus : Obligations.RdstReadsStatus := by
  intro s
  obtain ⟨hph, hfault, hdt, herr, hroot, hcur, hqn, hnint, htop⟩ := fields_status s
  refine ⟨⟨s.status, execRdst_run s (by decide), hph, ?_, getLsbD_of_extractLsb' hdt, herr, hroot, hcur, hqn, hnint,
    htop, hfault.symm⟩, execRdst_run s (by decide)⟩
  have hflt : s.status.getLsbD 2 = s.faulted := getLsbD_of_extractLsb' hfault
  rw [hflt, Bool.eq_iff_iff, decide_eq_true_iff, faulted_eq_true]

end Sys2Proof.Machine
end

section
/-!
SUPPORT. Runs of commands that all answer `OK`, piece by piece (log entry 15), and the pieces the sequences of R153 and
R154 are made of.
-/

namespace Sys2Proof.Machine

/-! ## Runs that answer `OK` throughout -/

/-- A command takes one step of the run, from whatever state it answers. -/
theorem runCommands_of_exec {i : Instr} {rest : List Instr} {s t : State} (hw : i.wellFormed = true)
    (hx : exec i (s.present rest) = .next t) : runCommands (i :: rest) s = runCommands rest t := by
  obtain ⟨c, d, ⟨-, hhost⟩, -⟩ := exec_answers hx
  have hpresent : t.present rest = t := by
    rw [State.present, show rest.map (fun i => HostEvent.command (encode i)) = t.hostIn from hhost.symm]
  exact runCommands_cons hw (hpresent.symm ▸ hx)

/-- Presenting commands leaves the counts and the invariant. -/
theorem freqAt_present (s : State) (commands : List Instr) (k : Nat) : (s.present commands).freqAt k = s.freqAt k := rfl

theorem inv_present {s : State} (h : s.Inv) (commands : List Instr) : (s.present commands).Inv := inv_hostIn h _

/-- With `rest` still to come, the commands run from `s` to `t`, each answers `OK` with the data listed, and the
invariant is kept. -/
structure State.Completes (s : State) (commands rest : List Instr) (t : State) (data : List (BitVec 64)) : Prop where
  run : runCommands (commands ++ rest) s = runCommands rest t
  length : data.length = commands.length
  answers : t.rspOut = s.rspOut ++ data.map (Response.mk .ok)
  inv : s.Inv → t.Inv

theorem State.Completes.nil (s : State) (rest : List Instr) : s.Completes [] rest s [] :=
  ⟨rfl, rfl, (List.append_nil _).symm, id⟩

theorem State.Completes.cons {i : Instr} {commands rest : List Instr} {s t u : State} {d : BitVec 64}
    {data : List (BitVec 64)} (hw : i.wellFormed = true) (hx : exec i (s.present (commands ++ rest)) = .next t)
    (hd : t.rspOut = s.rspOut ++ [⟨.ok, d⟩]) (h : t.Completes commands rest u data) :
    s.Completes (i :: commands) rest u (d :: data) where
  run := (runCommands_of_exec hw hx).trans h.run
  length := congrArg Nat.succ h.length
  answers := by simp [h.answers, hd]
  inv := fun hs => by
    obtain ⟨t', hx', hinv⟩ := exec_spec (inv_present hs _) i
    exact h.inv (next_inj.1 (hx'.symm.trans hx) ▸ hinv)

/-- A run of one command. -/
theorem State.Completes.single {i : Instr} {rest : List Instr} {s t : State} {d : BitVec 64} (hw : i.wellFormed = true)
    (hx : exec i (s.present rest) = .next t) (hd : t.rspOut = s.rspOut ++ [⟨.ok, d⟩]) : s.Completes [i] rest t [d] :=
  .cons hw hx hd (.nil t rest)

theorem State.Completes.append {front back rest : List Instr} {s t u : State} {data data' : List (BitVec 64)}
    (h : s.Completes front (back ++ rest) t data) (h' : t.Completes back rest u data') :
    s.Completes (front ++ back) rest u (data ++ data') where
  run := by rw [List.append_assoc, h.run, h'.run]
  length := by rw [List.length_append, List.length_append, h.length, h'.length]
  answers := by rw [h'.answers, h.answers, List.map_append, List.append_assoc]
  inv := fun hs => h'.inv (h.inv hs)

/-- With nothing left to come the run ends. -/
theorem State.Completes.runCommands_eq {commands : List Instr} {s t : State} {data : List (BitVec 64)}
    (h : s.Completes commands [] t data) : runCommands commands s = .next (t.present []) := by
  rw [← runCommands_nil, ← h.run, List.append_nil]

/-! ## Filling the table (R90 to R92) -/

/-- RESET completes from any state, the invariant met or not, and meets it (R150). -/
theorem completes_reset (s : State) (rest : List Instr) :
    ∃ t, s.Completes [.reset] rest t [0] ∧ t.Inv ∧
      t = { s.release with hostIn := t.hostIn, rspOut := t.rspOut } :=
  ⟨_, .single rfl (execReset_run _) rfl, inv_respond (inv_release _) _ _, rfl⟩

/-- Counting commands that do not overflow a count complete and raise each count by the symbol's occurrences. -/
theorem completes_counting {commands : List Instr} {symbols : List Nat} (h : List.Forall₂ Counts commands symbols)
    (rest : List Instr) : ∀ {s : State}, s.err = 0 → s.ph = .table →
    (∀ k, (s.freqAt k).toNat + symbols.count k < 2 ^ 32) →
    ∃ t data, s.Completes commands rest t data ∧ (∀ k, (t.freqAt k).toNat = (s.freqAt k).toNat + symbols.count k) ∧
      t = { s with freq := t.freq, hostIn := t.hostIn, rspOut := t.rspOut } := by
  induction h with
  | nil => exact fun _ _ _ => ⟨_, _, .nil _ rest, fun _ => rfl, rfl⟩
  | @cons i j commands symbols hij _ ih =>
    intro s he hp hbound
    have hc : s.freqAt j ≠ 0xFFFFFFFF := by
      have := hbound j
      rw [List.count_cons_self] at this
      bv_omega
    obtain ⟨u, hx, hself, hother, hu⟩ := hij.exec_counts (s := s.present (commands ++ rest)) he hp hc
    have hcount (k : Nat) : (u.freqAt k).toNat + symbols.count k = (s.freqAt k).toNat + (j :: symbols).count k := by
      by_cases hk : k = j
      · rw [hk, hself, List.count_cons_self, Nat.add_right_comm, Nat.add_assoc]
        rfl
      · rw [hother k hk, List.count_cons_of_ne (Ne.symm hk)]
        rfl
    obtain ⟨t, data, hrun, ht, hframe⟩ := ih (s := u) (by rw [hu]; exact he) (by rw [hu]; exact hp)
      fun k => (hcount k).trans_lt (hbound k)
    refine ⟨t, _, .cons hij.wellFormed hx (congrArg State.rspOut hu) hrun, fun k => (ht k).trans (hcount k), ?_⟩
    rw [hu] at hframe
    exact hframe

/-- LDF commands complete; where each loads what `f` gives for its symbol, the table holds `f` at the symbols loaded and
is unchanged at the others (R92). -/
theorem completes_loading {f : Nat → Count} (rest : List Instr) (entries : List (Index × Count)) : ∀ {s : State},
    s.err = 0 → s.ph = .table → (∀ e ∈ entries, e.1.toNat ≤ 256 ∧ e.2 = f e.1.toNat) →
    ∃ t data, s.Completes (expandLdft entries) rest t data ∧
      (∀ k, t.freqAt k = f k ∨ (t.freqAt k = s.freqAt k ∧ ∀ e ∈ entries, e.1.toNat ≠ k)) ∧
      t = { s with freq := t.freq, hostIn := t.hostIn, rspOut := t.rspOut } := by
  induction entries with
  | nil => exact fun _ _ _ => ⟨_, _, .nil _ rest, fun _ => .inr ⟨rfl, fun _ he => absurd he List.not_mem_nil⟩, rfl⟩
  | cons e entries ih =>
    intro s he hp hall
    obtain ⟨⟨hsym, hval⟩, hall⟩ := List.forall_mem_cons.1 hall
    obtain ⟨u, hx, hself, hother, hu⟩ := ldfLoadsEntry (s.present (expandLdft entries ++ rest)) e.1 e.2 he hp hsym
    obtain ⟨t, data, hrun, ht, hframe⟩ := ih (s := u) (by rw [hu]; exact he) (by rw [hu]; exact hp) hall
    refine ⟨t, _, .cons (decide_eq_true hsym) hx (congrArg State.rspOut hu) hrun, fun k => ?_, ?_⟩
    · obtain hk | ⟨hk, hne⟩ := ht k
      · exact .inl hk
      · by_cases hke : k = e.1.toNat
        · exact .inl (by rw [hk, hke, hself, hval])
        · exact .inr ⟨hk.trans (hother k hke), List.forall_mem_cons.2 ⟨Ne.symm hke, hne⟩⟩
    · rw [hu] at hframe
      exact hframe

/-- RDF commands complete, answer the counts of their symbols and change nothing (R93). -/
theorem completes_reading (rest : List Instr) (symbols : List Nat) : ∀ (s : State), (∀ i ∈ symbols, i ≤ 256) →
    ∃ t, s.Completes (symbols.map fun i => .rdf (BitVec.ofNat 10 i)) rest t
        (symbols.map fun i => (s.freqAt i).setWidth 64) ∧
      t = { s with hostIn := t.hostIn, rspOut := t.rspOut } := by
  induction symbols with
  | nil => exact fun s _ => ⟨s, .nil s rest, rfl⟩
  | cons i symbols ih =>
    intro s hall
    obtain ⟨hi, hall⟩ := List.forall_mem_cons.1 hall
    have hidx : (BitVec.ofNat 10 i).toNat = i := by simp only [BitVec.toNat_ofNat]; omega
    have hx := rdfReadsEntry (s.present (symbols.map (fun i => .rdf (BitVec.ofNat 10 i)) ++ rest)) (BitVec.ofNat 10 i)
      (hidx.trans_le hi)
    rw [hidx] at hx
    obtain ⟨t, hrun, hframe⟩ := ih _ hall
    exact ⟨t, .cons (decide_eq_true (hidx.trans_le hi)) hx rfl hrun, hframe⟩

/-- ENC of a coded byte writes its code (R131). -/
theorem exec_enc_byte {s : State} {b : Byte} (he : s.err = 0) (hp : s.ph = .coded)
    (hcv : (s.codeAt b.toNat).cv = true) (hlen : (s.codeAt b.toNat).clen.toNat ≤ 256) :
    ∃ t d, exec (.enc (b.setWidth 10)) s = .next t ∧
      t = { s with bitOut := s.bitOut ++ (s.codeAt b.toNat).bits, rspOut := s.rspOut ++ [⟨.ok, d⟩] } := by
  have hidx : (b.setWidth 10).toNat = b.toNat := BitVec.toNat_setWidth_of_le (by decide)
  have hx : exec (.enc (b.setWidth 10)) s = writeCode (s.codeAt (b.setWidth 10).toNat) s :=
    execEnc_run he hp (by omega) (hidx ▸ hcv)
  rw [hidx] at hx
  exact ⟨_, _, hx.trans (writeCode_run hlen s), rfl⟩

/-- ENC commands of coded bytes complete and write the codes in order (R131). -/
theorem completes_encoding (rest : List Instr) (input : List Byte) : ∀ {s : State}, s.err = 0 → s.ph = .coded →
    (∀ b ∈ input, (s.codeAt b.toNat).cv = true ∧ (s.codeAt b.toNat).clen.toNat ≤ 256) →
    ∃ t data, s.Completes (expandEncs input) rest t data ∧ t = { s with
      bitOut := s.bitOut ++ input.flatMap fun b => (s.codeAt b.toNat).bits
      hostIn := t.hostIn, rspOut := t.rspOut } := by
  induction input with
  | nil => exact fun _ _ _ => ⟨_, _, .nil _ rest, by simp⟩
  | cons b input ih =>
    intro s he hp hall
    obtain ⟨⟨hcv, hlen⟩, hall⟩ := List.forall_mem_cons.1 hall
    obtain ⟨u, d, hx, hu⟩ := exec_enc_byte (s := s.present (expandEncs input ++ rest)) he hp hcv hlen
    obtain ⟨t, data, hrun, hframe⟩ := ih (s := u) (by rw [hu]; exact he) (by rw [hu]; exact hp) (by rw [hu]; exact hall)
    have hw : (Instr.enc (b.setWidth 10)).wellFormed = true := decide_eq_true (by
      rw [BitVec.toNat_setWidth_of_le (by decide)]
      omega)
    refine ⟨t, _, .cons hw hx (by rw [hu]; rfl) hrun, ?_⟩
    rw [hu] at hframe
    rw [List.flatMap_cons, ← List.append_assoc]
    exact hframe

/-- ENC of counted bytes and EEOS complete in phase 3 and write the encoded stream (R130 to R132). -/
theorem completes_stream {s : State} {input : List Byte} (h : s.Inv) (he : s.err = 0) (hp : s.ph = .coded)
    (hcounted : ∀ b ∈ input, s.freqAt b.toNat ≠ 0) (rest : List Instr) :
    ∃ t data, s.Completes (expandEncs input ++ [.eeos]) rest t data ∧
      t = { s with bitOut := s.bitOut ++ s.codeStream input, hostIn := t.hostIn, rspOut := t.rspOut } := by
  have hcoded (b) (hb : b ∈ input) : (s.codeAt b.toNat).cv = true :=
    ((h.codes hp).coded _ (by omega)).2 (hcounted b hb)
  obtain ⟨u, data, hencs, hu⟩ := completes_encoding ([.eeos] ++ rest) input he hp fun b hb =>
    ⟨hcoded b hb, clen_le h _ (hcoded b hb)⟩
  have hx : exec .eeos (u.present rest) = writeCode (s.codeAt 256) (u.present rest) := by
    rw [hu]
    exact execEeos_run he hp
  have heeos := State.Completes.single rfl (hx.trans (writeCode_run (clen_le h 256 (eos_coded h hp)) _)) rfl
  refine ⟨_, _, hencs.append heeos, ?_⟩
  rw [State.codeStream, ← List.append_assoc, hu]
  rfl

/-! ## The tree and its codes (R104, R121) -/

/-- States that agree on the valid slots have the same paths. -/
theorem follow_of_valid_eq {s t : State}
    (h : ∀ i, (s.nodeAt i).nv = (t.nodeAt i).nv ∧ ((s.nodeAt i).nv = true → s.nodeAt i = t.nodeAt i))
    (path : List Bool) : ∀ i, s.follow i path = t.follow i path := by
  induction path with
  | nil => exact fun _ => rfl
  | cons b path ih =>
    intro i
    obtain ⟨hnv, hnode⟩ := h i
    cases hv : (s.nodeAt i).nv with
    | false => simp [State.follow, hv, ← hnv]
    | true => simp only [State.follow, hnode hv, ih]

/-- Every machine that builds a tree from the counts of `t` gets the paths of `t`'s tree (R106). -/
def State.HasTreeOfTable (t : State) : Prop :=
  ∀ a b : State, a.Inv → a.err = 0 → a.ph = .table → (∀ i, i ≤ 256 → a.freqAt i = t.freqAt i) →
    exec .build a = .next b → ∀ path, b.follow b.root.toNat path = t.follow t.root.toNat path

theorem hasTreeOfTable_of_build {s t : State} (h : s.Inv) (he : s.err = 0) (hp : s.ph = .table)
    (hf : s.freqAt 256 ≠ 0) (hx : exec .build s = .next t) (hfreq : t.freq = s.freq) : t.HasTreeOfTable := by
  intro a b ha hae hap hcounts hb path
  have hcounts' (i) (hi : i ≤ 256) : s.freqAt i = a.freqAt i := ((hcounts i hi).trans (freqAt_congr hfreq i)).symm
  obtain ⟨t', b', ht', hb', hslots, hroot, -⟩ := treeIsFunctionOfTable s a h ha he hae hp hap hf hcounts'
  obtain rfl := next_inj.1 (ht'.symm.trans hx)
  obtain rfl := next_inj.1 (hb'.symm.trans hb)
  rw [← hroot]
  exact (follow_of_valid_eq hslots path _).symm

/-- The tree of the table is held in the arena and the root register. -/
theorem hasTreeOfTable_congr {s t : State} (h : s.HasTreeOfTable) (hfreq : t.freq = s.freq) (hnodes : t.nodes = s.nodes)
    (hroot : t.root = s.root) : t.HasTreeOfTable := by
  intro a b ha hae hap hcounts hb path
  rw [follow_congr hnodes, hroot]
  exact h a b ha hae hap (fun i hi => (hcounts i hi).trans (freqAt_congr hfreq i)) hb path

/-- BUILD completes from a table with an end-of-stream entry (R104). -/
theorem completes_build {s : State} (h : s.Inv) (he : s.err = 0) (hp : s.ph = .table) (hf : s.freqAt 256 ≠ 0)
    (rest : List Instr) :
    ∃ t d, exec .build (s.present rest) = .next t ∧ s.Completes [.build] rest t [d] ∧ t.HasTreeOfTable ∧ t = { s with
      nodes := t.nodes, nint := t.nint, qn := 1, root := t.root, cur := t.root, dt := t.dt, ph := .tree,
      hostIn := t.hostIn, rspOut := t.rspOut } := by
  have h' := inv_present h rest
  rw [← freqAt_present s rest] at hf
  obtain ⟨t, hx, -, -, -, -, -, -, -, hframe⟩ := buildCompletesTree (s.present rest) h' he (.inl ⟨hp, hf⟩)
  refine ⟨t, _, hx, .single rfl hx (congrArg State.rspOut hframe), hasTreeOfTable_of_build h' he hp hf hx ?_, ?_⟩
  · rw [hframe]
  · rw [hframe]
    rfl

/-- DERIVE completes from a complete tree (R121). -/
theorem completes_derive {s : State} (h : s.Inv) (he : s.err = 0) (hp : s.ph = .tree) (rest : List Instr) :
    ∃ t d, s.Completes [.derive] rest t [d] ∧
      t = { s with codes := t.codes, ph := .coded, hostIn := t.hostIn, rspOut := t.rspOut } := by
  obtain ⟨codes, hx, -⟩ := exec_derive (s := s.present rest) (inv_present h _) he hp
  exact ⟨_, _, .single rfl hx rfl, rfl⟩

/-- BUILD and DERIVE complete from a table with an end-of-stream entry; the counts and the bits written stay. -/
theorem completes_coding {s : State} (h : s.Inv) (he : s.err = 0) (hp : s.ph = .table) (hf : s.freqAt 256 ≠ 0)
    (rest : List Instr) :
    ∃ t data, s.Completes [.build, .derive] rest t data ∧ t.HasTreeOfTable ∧ t.err = 0 ∧ t.ph = .coded ∧
      t.freq = s.freq ∧ t.bitOut = s.bitOut := by
  obtain ⟨u, d, -, hbuild, htree, hu⟩ := completes_build h he hp hf (.derive :: rest)
  obtain ⟨t, d', hderive, ht⟩ := completes_derive (hbuild.inv h) (by rw [hu]; exact he) (by rw [hu]) rest
  refine ⟨t, _, hbuild.append hderive, ?_, ?_, ?_, ?_, ?_⟩
  · exact hasTreeOfTable_congr htree (by rw [ht]) (by rw [ht]) (by rw [ht])
  · rw [ht, hu]; exact he
  · rw [ht]
  · rw [ht, hu]
  · rw [ht, hu]

end Sys2Proof.Machine
end

section
/-!
SUPPORT. The compress sequence (R153): it completes from any state, with the counts, the tree and the stream of its
input.
-/

namespace Sys2Proof.Machine

/-- What the compress sequence leaves in `t` when it runs from `s`. -/
structure State.Compressed (s t : State) (input : List Byte) : Prop where
  inv : t.Inv
  err : t.err = 0
  ph : t.ph = .coded
  bitOut : t.bitOut = s.bitOut ++ t.codeStream input
  counts : ∀ k, (t.freqAt k).toNat = (countedSymbols input).count k
  tree : t.HasTreeOfTable

theorem byte_mem_countedSymbols {input : List Byte} {b : Byte} (hb : b ∈ input) : b.toNat ∈ countedSymbols input :=
  List.mem_append_left [256] (List.mem_map_of_mem hb)

theorem eos_mem_countedSymbols (input : List Byte) : 256 ∈ countedSymbols input :=
  List.mem_append_right (input.map BitVec.toNat) (List.mem_singleton_self 256)

/-- A symbol that was counted is in the table. -/
theorem freqAt_ne_zero {s : State} {symbols : List Nat} (h : ∀ k, (s.freqAt k).toNat = symbols.count k) {k : Nat}
    (hk : k ∈ symbols) : s.freqAt k ≠ 0 := by
  intro hzero
  have hpos := List.count_pos_iff.2 hk
  rw [← h k, hzero] at hpos
  exact absurd hpos (by decide)

/-- The first part of the compress sequence: a new table, and the counts of the input (R153). -/
def countCommands (input : List Byte) : List Instr := [.reset] ++ (expandCnts input ++ [.ceos])

/-- RESET, one CNT a byte and CEOS complete from any state and count the input (R94). -/
theorem completes_gathering {input : List Byte} (hinput : ∀ b, input.count b < 2 ^ 32) (s : State) (rest : List Instr) :
    ∃ t data, s.Completes (countCommands input) rest t data ∧ t.Inv ∧ t.err = 0 ∧ t.ph = .table ∧
      t.bitOut = s.bitOut ∧ ∀ k, (t.freqAt k).toNat = (countedSymbols input).count k := by
  obtain ⟨u, hreset, hinv, hu⟩ := completes_reset s (expandCnts input ++ [.ceos] ++ rest)
  have hzero (k : Nat) : (u.freqAt k).toNat = 0 := by rw [hu]; rfl
  obtain ⟨t, data, hcnts, hcounts, ht⟩ := completes_counting (counts_expandCnts input) rest (s := u) (by rw [hu]; rfl)
    (by rw [hu]; rfl) fun k => by
      rw [hzero, Nat.zero_add]
      exact count_countedSymbols_lt hinput k
  refine ⟨t, _, hreset.append hcnts, hcnts.inv hinv, ?_, ?_, ?_, fun k => by rw [hcounts, hzero, Nat.zero_add]⟩
  all_goals
    rw [ht, hu]
    rfl

/-- The last part of the compress sequence: the reads of the table and the encoded stream (R153). -/
def writeCommands (input : List Byte) : List Instr :=
  (List.range 257).map (fun i => .rdf (BitVec.ofNat 10 i)) ++ (expandEncs input ++ [.eeos])

theorem compressCommands_eq (input : List Byte) :
    compressCommands input = countCommands input ++ ([.build, .derive] ++ writeCommands input) := by
  simp [compressCommands, countCommands, writeCommands]

/-- What the reads of the compress sequence answer in `s` (R93, R153). -/
def State.readAnswers (s : State) : List (BitVec 64) := (List.range 257).map fun i => (s.freqAt i).setWidth 64

/-- In phase 3 the reads, ENC of counted bytes and EEOS complete: they answer the counts and write the stream. -/
theorem completes_writing {s : State} {input : List Byte} (h : s.Inv) (he : s.err = 0) (hp : s.ph = .coded)
    (hcounted : ∀ b ∈ input, s.freqAt b.toNat ≠ 0) (rest : List Instr) :
    ∃ t data, s.Completes (writeCommands input) rest t (s.readAnswers ++ data) ∧
      t = { s with bitOut := s.bitOut ++ s.codeStream input, hostIn := t.hostIn, rspOut := t.rspOut } := by
  obtain ⟨u, hreads, hu⟩ := completes_reading (expandEncs input ++ [.eeos] ++ rest) (List.range 257) s fun i hi =>
    Nat.le_of_lt_succ (List.mem_range.1 hi)
  obtain ⟨t, data, hstream, ht⟩ := completes_stream (s := u) (input := input) (hreads.inv h) (by rw [hu]; exact he)
    (by rw [hu]; exact hp) (by rw [hu]; exact hcounted) rest
  refine ⟨t, data, hreads.append hstream, ?_⟩
  rw [hu] at ht
  exact ht

/-- The compress sequence completes from any state; the answers of its reads are the counts (R153). -/
theorem completes_compress {input : List Byte} (hinput : ∀ b, input.count b < 2 ^ 32) (s : State) :
    ∃ t front back, s.Completes (compressCommands input) [] t (front ++ t.readAnswers ++ back) ∧
      front.length = input.length + 4 ∧ s.Compressed t input := by
  rw [compressCommands_eq]
  obtain ⟨s₁, d₁, run₁, inv₁, err₁, ph₁, out₁, counts₁⟩ := completes_gathering hinput s
    ([.build, .derive] ++ writeCommands input ++ [])
  have hcounted {k} (hk : k ∈ countedSymbols input) : s₁.freqAt k ≠ 0 := freqAt_ne_zero counts₁ hk
  obtain ⟨s₂, d₂, run₂, tree₂, err₂, ph₂, freq₂, out₂⟩ := completes_coding inv₁ err₁ ph₁
    (hcounted (eos_mem_countedSymbols input)) (writeCommands input ++ [])
  have hcounted₂ (b) (hb : b ∈ input) : s₂.freqAt b.toNat ≠ 0 :=
    freqAt_congr freq₂ b.toNat ▸ hcounted (byte_mem_countedSymbols hb)
  obtain ⟨t, d₃, run₃, ht⟩ := completes_writing (run₂.inv inv₁) err₂ ph₂ hcounted₂ []
  have hfreq : t.freq = s₂.freq := by rw [ht]
  have hreads : t.readAnswers = s₂.readAnswers := by rw [ht]; rfl
  have hstream : t.codeStream input = s₂.codeStream input := by rw [ht]; rfl
  refine ⟨t, d₁ ++ d₂, d₃, ?_, ?_, ?_⟩
  · rw [hreads]
    simpa only [List.append_assoc] using run₁.append (run₂.append run₃)
  · rw [List.length_append, run₁.length, run₂.length]
    simp [countCommands, expandCnts]
  · exact {
      inv := run₃.inv (run₂.inv inv₁)
      err := by rw [ht]; exact err₂
      ph := by rw [ht]; exact ph₂
      bitOut := by rw [hstream, ht, ← out₁, ← out₂]
      counts := fun k => by rw [freqAt_congr hfreq, freqAt_congr freq₂, counts₁]
      tree := hasTreeOfTable_congr tree₂ hfreq (by rw [ht]) (by rw [ht]) }

/-- The answers of the middle part of a run. -/
theorem take_drop_map {α β : Type} (f : α → β) (front mid back : List α) {m n : Nat} (hm : front.length = m)
    (hn : mid.length = n) : (((front ++ mid ++ back).map f).drop m).take n = mid.map f := by
  subst hm hn
  simp

theorem code_of_mem_answers {data : List (BitVec 64)} : ∀ r ∈ data.map (Response.mk .ok), r.code = .ok :=
  List.forall_mem_map.2 fun _ _ => rfl

/-- Settles O57: the sequence completes from any state, and the pieces it is made of leave what is claimed. -/
theorem compressNeverFaults : Obligations.CompressNeverFaults := by
  intro input s hinput
  obtain ⟨t, front, back, hrun, hfront, hc⟩ := completes_compress hinput s
  refine ⟨t.present [], _, hrun.runCommands_eq, inv_present hc.inv _, hc.err, hc.ph, hrun.answers, ?_,
    code_of_mem_answers, hc.bitOut, fun b => (hc.counts b.toNat).trans (count_countedSymbols_byte input b), ?_, ?_⟩
  · rw [List.length_map, hrun.length]
  · exact BitVec.eq_of_toNat_eq ((hc.counts 256).trans (count_countedSymbols_of_ge input le_rfl))
  · rw [take_drop_map _ front _ back hfront (by simp [State.readAnswers]), State.readAnswers, List.map_map]
    rfl

end Sys2Proof.Machine
end

section
/-!
SUPPORT. The decompress sequence (R154, R155): the table is restored from its entries, so the tree has the paths of the
compressing machine's tree, and its codes lead through it.
-/

namespace Sys2Proof.Machine

/-- The persisted entries are the symbols with a nonzero count, with their counts. -/
theorem mem_persistedEntries {s : State} {e : Index × Count} :
    e ∈ persistedEntries (s.readAnswers.map (Response.mk .ok)) ↔
      ∃ i, i < 257 ∧ s.freqAt i ≠ 0 ∧ e = (BitVec.ofNat 10 i, s.freqAt i) := by
  have hzero (n : Count) : n.setWidth 64 = 0 ↔ n = 0 := by bv_omega
  have hcount (n : Count) : (n.setWidth 64).setWidth 32 = n := by bv_omega
  have hget (i : Nat) (r : Response) : (s.readAnswers.map (Response.mk .ok))[i]? = some r ↔
      i < 257 ∧ ⟨.ok, (s.freqAt i).setWidth 64⟩ = r := by
    simp [State.readAnswers, List.getElem?_eq_some_iff]
  simp only [persistedEntries, List.mem_map, List.mem_filter, List.mem_zipIdx_iff_getElem?, bne_iff_ne]
  constructor
  · rintro ⟨⟨r, i⟩, ⟨hr, hne⟩, rfl⟩
    obtain ⟨hi, rfl⟩ := (hget i r).1 hr
    exact ⟨i, hi, fun h => hne ((hzero _).2 h), by rw [hcount]⟩
  · rintro ⟨i, hi, hne, rfl⟩
    exact ⟨(⟨.ok, (s.freqAt i).setWidth 64⟩, i), ⟨(hget i _).2 ⟨hi, rfl⟩, fun h => hne ((hzero _).1 h)⟩, by rw [hcount]⟩

/-- RESET and LDF of the entries of `c`'s table, in any order, complete from any state and restore that table. -/
theorem completes_restoring {c : State} {entries : List (Index × Count)}
    (hentries : entries.Perm (persistedEntries (c.readAnswers.map (Response.mk .ok)))) (u : State) (rest : List Instr) :
    ∃ t data, u.Completes ([.reset] ++ expandLdft entries) rest t data ∧ t.Inv ∧ t.err = 0 ∧ t.ph = .table ∧
      (∀ i, i ≤ 256 → t.freqAt i = c.freqAt i) ∧ t.bitIn = u.bitIn ∧ t.byteOut = u.byteOut := by
  have hmem (e) : e ∈ entries ↔ ∃ i, i < 257 ∧ c.freqAt i ≠ 0 ∧ e = (BitVec.ofNat 10 i, c.freqAt i) :=
    hentries.mem_iff.trans mem_persistedEntries
  have hidx {i : Nat} (hi : i < 257) : (BitVec.ofNat 10 i).toNat = i := by
    rw [BitVec.toNat_ofNat]
    omega
  obtain ⟨w, hreset, hinv, hw⟩ := completes_reset u (expandLdft entries ++ rest)
  have hzero (k : Nat) : w.freqAt k = 0 := by rw [hw]; rfl
  obtain ⟨t, data, hldfs, hfreq, ht⟩ := completes_loading (f := c.freqAt) rest entries (s := w) (by rw [hw]; rfl)
    (by rw [hw]; rfl) fun e he => by
      obtain ⟨i, hi, -, rfl⟩ := (hmem e).1 he
      exact ⟨by rw [hidx hi]; omega, by rw [hidx hi]⟩
  refine ⟨t, _, hreset.append hldfs, hldfs.inv hinv, ?_, ?_, fun i hi => ?_, ?_, ?_⟩
  case refine_3 =>
    obtain h | ⟨h, hne⟩ := hfreq i
    · exact h
    · by_contra hdiff
      have hcount : c.freqAt i ≠ 0 := fun h0 => hdiff (h.trans ((hzero i).trans h0.symm))
      exact hne _ ((hmem _).2 ⟨i, by omega, hcount, rfl⟩) (hidx (by omega))
  all_goals
    rw [ht, hw]
    rfl

/-- DECODE at the root of a tree in which the codes of `c` lead to their symbols writes the bytes of the stream and
reads no further bit (R143). It asks for paths only, not for equal slots, since R106 speaks of the valid slots. -/
theorem exec_decode_of_leadsBy {s c : State} {input : List Byte} {rest : List Bool} (h : s.Inv) (he : s.err = 0)
    (ht : s.hasTree) (hcur : s.cur = s.root) (hcodes : s.LeadsBy c input)
    (hbits : s.bitIn = c.codeStream input ++ rest) :
    exec .decode s = .next { s with
      bitIn := rest, byteOut := s.byteOut ++ input, cur := 256, dt := true
      rspOut := s.rspOut ++ [⟨.ok, BitVec.ofNat 64 input.length⟩] } := by
  have hexec : exec .decode s = decodeLoop s.bitIn 0 s := execDecode_run he ht
  cases hd : s.dt with
  | false =>
    rw [hexec, hbits, decodeLoop_codeStream input 0 rest h ht hd hcur hcodes, Nat.zero_add]
    rfl
  | true =>
    have hterm : s.cur = 256 := (h.tree ht).terminal.1 hd
    obtain ⟨rfl, hstream⟩ := eq_nil_of_terminal_root h ht (hcur ▸ hterm) hcodes
    have hrest : s.bitIn = rest := by rw [hbits, hstream, List.nil_append]
    rw [hexec, decodeLoop_terminal hd, List.append_nil, ← hrest, ← hterm, ← hd]
    rfl

/-- BUILD from the table of the compressing state `c`, then DECODE, complete and write the bytes of the stream. -/
theorem completes_decoding {s c : State} {input : List Byte} {bits : List Bool} (hc : c.Inv) (hcph : c.ph = .coded)
    (htree : c.HasTreeOfTable) (hcounted : ∀ b ∈ input, c.freqAt b.toNat ≠ 0) (h : s.Inv) (he : s.err = 0)
    (hp : s.ph = .table) (hfreq : ∀ i, i ≤ 256 → s.freqAt i = c.freqAt i)
    (hbits : s.bitIn = c.codeStream input ++ bits) :
    ∃ t d, s.Completes [.build, .decode] [] t [d, BitVec.ofNat 64 input.length] ∧ t.err = 0 ∧ t.bitIn = bits ∧
      t.byteOut = s.byteOut ++ input := by
  have heos : s.freqAt 256 ≠ 0 := hfreq 256 le_rfl ▸ (hc.loaded (hasTree_ne_table (.inr hcph))).eos
  obtain ⟨u, d, hx, hbuild, -, hu⟩ := completes_build h he hp heos [.decode]
  have hpaths := htree (s.present [.decode]) u (inv_present h _) he hp
    (fun i hi => (freqAt_present s _ i).trans (hfreq i hi)) hx
  have hcodes : u.LeadsBy c input := by
    simpa only [State.LeadsBy, hpaths] using leadsBy_own hc hcph hcounted
  have hdecode := exec_decode_of_leadsBy (s := u.present []) (inv_present (hbuild.inv h) _) (by rw [hu]; exact he)
    (.inl (by rw [hu]; rfl)) (by rw [hu]; rfl) (leadsBy_congr (s := u) rfl rfl hcodes)
    (by rw [hu]; exact hbits)
  refine ⟨_, d, hbuild.append (.single rfl hdecode rfl), ?_, rfl, ?_⟩
  · rw [hu]; exact he
  · rw [hu]; rfl

/-- The decompress sequence completes from any state and undoes the compress sequence that left `c` (R155). -/
theorem completes_decompress {s c u : State} {input : List Byte} {entries : List (Index × Count)} {bits : List Bool}
    (hc : s.Compressed c input) (hentries : entries.Perm (persistedEntries (c.readAnswers.map (Response.mk .ok))))
    (hbits : u.bitIn = c.codeStream input ++ bits) :
    ∃ t data, u.Completes (decompressCommands entries) [] t (data ++ [BitVec.ofNat 64 input.length]) ∧ t.err = 0 ∧
      t.bitIn = bits ∧ t.byteOut = u.byteOut ++ input := by
  have hcounted (b) (hb : b ∈ input) : c.freqAt b.toNat ≠ 0 :=
    freqAt_ne_zero hc.counts (byte_mem_countedSymbols hb)
  obtain ⟨v, data, hrestore, hinv, herr, hph, hfreq, hbitIn, hbyteOut⟩ := completes_restoring hentries u
    [.build, .decode]
  obtain ⟨t, d, hdecode, hterr, htbits, htbytes⟩ := completes_decoding hc.inv hc.ph hc.tree hcounted hinv herr hph
    hfreq (hbitIn.trans hbits)
  refine ⟨t, data ++ [d], ?_, hterr, htbits, by rw [htbytes, hbyteOut]⟩
  simpa [decompressCommands] using hrestore.append hdecode

/-- A complete tree of a table without bytes is the end-of-stream leaf alone: no node is internal (R38, R40). -/
theorem root_eq_eos {s : State} (h : s.Inv) (ht : s.hasTree) (hbytes : ∀ i, i < 256 → s.freqAt i = 0) :
    s.root.toNat = 256 := by
  have hL := h.loaded (hasTree_ne_table ht)
  have hT := h.tree ht
  have hv := h.queue.valid _ hT.root
  have hentries : s.numEntries = 1 :=
    calc s.numEntries = (List.range 257).countP (· == 256) := countP_range_congr fun k hk => by
          rw [Bool.eq_iff_iff, bne_iff_ne, beq_iff_eq]
          refine ⟨fun hne => ?_, fun h256 => h256 ▸ hL.eos⟩
          by_contra hk256
          exact hne (hbytes k (by omega))
      _ = 1 := List.count_eq_one_of_mem List.nodup_range (List.mem_range.2 (by decide))
  have hnint : s.nint.toNat = 0 := by
    have := hL.balance
    rw [hT.qn, hentries] at this
    exact Nat.add_left_cancel (n := 1) this
  by_cases hleaf : s.root.toNat < 257
  · have hcount := (hL.leaves _ hleaf).1 hv
    by_contra hne
    exact hcount (hbytes _ (by omega))
  · have hlt := lt_of_valid h.wf hv
    have hslot := (hL.inner (s.root.toNat - 257) (by omega)).1 (by rwa [Nat.add_sub_cancel' (by omega)])
    omega

/-- The stream of the empty input is empty (R130, R132). -/
theorem State.Compressed.codeStream_nil {s t : State} (hc : s.Compressed t []) : t.codeStream [] = [] := by
  have hbytes (i) (hi : i < 256) : t.freqAt i = 0 :=
    BitVec.eq_of_toNat_eq ((hc.counts i).trans (List.count_eq_zero.2 (by
      rw [countedSymbols, List.map_nil, List.nil_append, List.mem_singleton]
      omega)))
  exact (codeBits_eq_nil_iff hc.inv hc.ph (eos_coded hc.inv hc.ph)).2 (root_eq_eos hc.inv (.inr hc.ph) hbytes)

/-- Settles O58: the table is restored from its entries, so the same tree is built and the stream leads through it. -/
theorem decompressUndoesCompress : Obligations.DecompressUndoesCompress := by
  intro input s u entries rest hinput
  obtain ⟨t, front, back, hrun, hfront, hc⟩ := completes_compress hinput s
  refine ⟨t.present [], _, t.codeStream input, hrun.runCommands_eq, hrun.answers, hc.bitOut, ?_,
    fun hentries hbits => ?_⟩
  · rintro rfl
    exact hc.codeStream_nil
  · rw [take_drop_map _ front _ back hfront (by simp [State.readAnswers])] at hentries
    obtain ⟨v, data, hdecompress, herr, hbitIn, hbyteOut⟩ := completes_decompress hc hentries hbits
    exact ⟨v.present [], _, hdecompress.runCommands_eq, hbyteOut, hbitIn, herr, hdecompress.answers,
      code_of_mem_answers, by simp⟩

end Sys2Proof.Machine
end

section
/-!
SUPPORT. Every presented word goes through the front end with its own opcode (R77); what a step without a command does
(R185, R190) and what a faulted HFE does with each word (R171).
-/

namespace Sys2Proof.Machine

/-- Settles O8, by the branch of `step` for each event. -/
theorem stepWithoutCommand : Obligations.StepWithoutCommand := by
  intro s rest
  refine ⟨fun hh => ?_, fun hh => step_hardwareReset hh, fun bits hh => ?_⟩
  · simp only [step, hh]
  · simp only [step, hh]

/-- A legal word is run as the well-formed command it is the word of. -/
theorem step_of_legalWord {s : State} {w : Word} {rest : List HostEvent} (hh : s.hostIn = .command w :: rest)
    (hw : legalWord w) : ∃ i, w = encode i ∧ i.wellFormed = true ∧ step s = exec i { s with hostIn := rest } := by
  obtain ⟨i, rfl, hi⟩ := exists_encode_of_legalWord hw
  exact ⟨i, rfl, hi, stepRunsDecodedCommand s _ rest i hh (decode_encode hi)⟩

/-- Legal or not, a word that is not exempt is refused by a faulted HFE on its opcode alone (R171). -/
theorem step_halted {s : State} {w : Word} {rest : List HostEvent} (hh : s.hostIn = .command w :: rest)
    (he : s.err ≠ 0) (hx : exemptOp (opField w) = false) :
    step s = .next ({ s with hostIn := rest } : State).halt := by
  by_cases hw : legalWord w
  · obtain ⟨i, rfl, -, hstep⟩ := step_of_legalWord hh hw
    obtain ⟨rule, hrule⟩ := exec_command i { s with hostIn := rest }
    rw [encode, opField_makeWord] at hx
    exact hstep.trans (hrule.trans (frontEnd_halted he hx))
  · exact (step_of_not_legalWord hh hw).trans (frontEnd_halted he hx)

/-- The exempt commands are RESET and the four reads (R171). -/
theorem reset_or_read_of_exempt {i : Instr} (h : i.op ∈ exemptOpcodes) :
    i = .reset ∨ i.op ∈ [0x02, 0x13, 0x23, 0x31] := by
  cases i with
  | reset => exact .inl rfl
  | rdst | rdf | rdn | rdc => exact .inr (by simp [Instr.op])
  | _ => simp [Instr.op, exemptOpcodes] at h

/-- A well-formed exempt command answers `OK` in any state, faulted or not; all but RESET only answer (R171). -/
theorem exec_exempt {i : Instr} (hx : i.op ∈ exemptOpcodes) (hw : i.wellFormed = true) (s : State) :
    ∃ t d, exec i s = .next t ∧ t.rspOut = s.rspOut ++ [⟨.ok, d⟩] ∧ (i ≠ .reset → t = s.respond .ok d) := by
  obtain rfl | hread := reset_or_read_of_exempt hx
  · exact ⟨s.release.respond .ok 0, 0, execReset_run s, rfl, fun hne => absurd rfl hne⟩
  · exact ⟨s.respond .ok (readData i s), readData i s, exec_read hread hw s, rfl, fun _ => rfl⟩

/-- Settles O10: refused on the opcode alone, illegal under an exempt opcode, or an exempt command. -/
theorem faultedRefusesAllButExempt : Obligations.FaultedRefusesAllButExempt := by
  intro s w rest hh he
  refine ⟨fun hx => ?_, fun hx hw => ?_, fun hx hw => ?_⟩
  · exact step_halted hh he (Bool.eq_false_iff.2 (mt (exempt_iff _).1 hx))
  · simpa only [if_neg he] using step_illegal_exempt hh hw ((exempt_iff _).2 hx)
  · obtain ⟨i, rfl, hi, hstep⟩ := step_of_legalWord hh hw
    rw [encode, opField_makeWord] at hx
    obtain ⟨t, d, hexec, hrsp, hframe⟩ := exec_exempt hx hi { s with hostIn := rest }
    refine ⟨t, d, hstep.trans hexec, hrsp, fun hne => hframe ?_⟩
    rintro rfl
    exact hne rfl

end Sys2Proof.Machine
end

section
/-!
SUPPORT. Which faults a command can raise (R167), and what a fault leaves of the state before it (R43, R169, R170): the
inversion of `exec` by the response.
-/

namespace Sys2Proof.Machine

/-! ## The faults of a command -/

/-- The fault a command's own rule can raise in a phase, past the front end (R167): BUILD loads the queue in phase 0
only. -/
def ownFault : Instr → Phase → Option FaultCode
  | .cnt _, _ | .ceos, _ => some .cntOvf
  | .qload, ph | .build, ph => if ph = .table then some .malformed else none
  | .enc _, _ => some .noCode
  | .dstep, _ | .decode, _ => some .trunc
  | .reset, _ | .rdst _, _ | .ldf _ _, _ | .rdf _, _ | .merge, _ | .rdn _ _, _ | .derive, _ | .rdc _ _, _
  | .eeos, _ => none

/-- The faults a command can raise in a phase: the two of the front end, and its own (R77, R167). -/
def CanRaise (i : Instr) (ph : Phase) (f : FaultCode) : Prop :=
  f = .illegal ∨ (f = .seq ∧ legalPhase i ph = false) ∨ ownFault i ph = some f

section CanRaise

variable {i : Instr} {ph : Phase} {f : FaultCode}

theorem mem_responseCodes_of_ownFault (h : ownFault i ph = some f) : .fault f ∈ responseCodes i := by
  cases i with
  | qload | build =>
    obtain ⟨-, ⟨⟩⟩ := Option.ite_none_right_eq_some.1 h
    simp [responseCodes]
  | _ => simp_all [ownFault, responseCodes]

/-- A command that is legal in every phase has no `E_SEQ` in its row; every other command has (R74, R167). -/
theorem mem_responseCodes_of_illegalPhase (h : legalPhase i ph = false) : .fault .seq ∈ responseCodes i := by
  cases i <;> simp_all [legalPhase, responseCodes]

theorem CanRaise.mem_responseCodes (h : CanRaise i ph f) : .fault f ∈ responseCodes i := by
  obtain rfl | ⟨rfl, hp⟩ | ho := h
  · cases i <;> simp [responseCodes]
  · exact mem_responseCodes_of_illegalPhase hp
  · exact mem_responseCodes_of_ownFault ho

/-- `E_MALFORMED` is raised from phase 0 only (R167). -/
theorem CanRaise.phase_of_malformed (h : CanRaise i ph .malformed) : ph = .table := by
  obtain h | ⟨h, -⟩ | ho := h
  · cases h
  · cases h
  · cases i with
    | qload | build => exact (Option.ite_none_right_eq_some.1 ho).1
    | _ => cases ho

/-- `E_SEQ` is the front end's, no command's own rule raises it (R77). -/
theorem CanRaise.phase_of_seq (h : CanRaise i ph .seq) : legalPhase i ph = false := by
  obtain h | ⟨-, hp⟩ | ho := h
  · cases h
  · exact hp
  · cases i with
    | qload | build => cases (Option.ite_none_right_eq_some.1 ho).2
    | _ => cases ho

end CanRaise

/-! ## What a fault leaves -/

/-- The word `w` faults with `f` and takes `s` to `t`: the fault primitive runs on what DECODE (0x51) has decoded until
then, and on `s` itself for every other word (R43, R169). -/
def State.RaisedBy (s t : State) (f : FaultCode) (w : Word) : Prop :=
  ∃ used rest bytes c, s.bitIn = used ++ rest ∧
    (w ≠ 0x5100000000000000 → used = [] ∧ bytes = [] ∧ c = s.cur) ∧
    t = ({ s with bitIn := rest, byteOut := s.byteOut ++ bytes, cur := c } : State).raise f w

theorem raisedBy_raise (s : State) (f : FaultCode) (w : Word) : s.RaisedBy (s.raise f w) f w :=
  ⟨[], s.bitIn, [], s.cur, rfl, fun _ => ⟨rfl, rfl, rfl⟩, by rw [List.append_nil]⟩

theorem State.RaisedBy.rspOut_eq {s t : State} {f : FaultCode} {w : Word} (h : s.RaisedBy t f w) :
    t.rspOut = s.rspOut ++ [⟨.fault f, 0⟩] := by
  obtain ⟨used, rest, bytes, c, -, -, rfl⟩ := h
  exact rspOut_raise _ f w

/-- The fault primitive, element by element (R170). -/
theorem raise_eq_with (s : State) (f : FaultCode) (w : Word) : s.raise f w = { s with
    err := if s.err = 0 then f.errBits else s.err
    ecmd := if s.err = 0 then w else s.ecmd
    rspOut := s.rspOut ++ [⟨.fault f, 0⟩] } := by
  split
  · next he => exact raise_first he f w
  · next he => exact raise_later he f w

/-- A command's own rule answers `OK`, or raises its fault. -/
theorem ok_or_raised_of_ownEffect {i : Instr} {s t : State} (hp : legalPhase i s.ph = true) (h : OwnEffect s t i) :
    (∃ d, t.rspOut = s.rspOut ++ [⟨.ok, d⟩]) ∨ ∃ f, ownFault i s.ph = some f ∧ s.RaisedBy t f (encode i) := by
  cases i with
  | reset | ldf sym n => exact h ▸ .inl ⟨0, rfl⟩
  | rdst sel | rdf sym | rdn node sel | rdc sym sel =>
    obtain ⟨d, rfl⟩ := h
    exact .inl ⟨d, rfl⟩
  | derive =>
    obtain ⟨codes, d, -, rfl⟩ := h
    exact .inl ⟨d, rfl⟩
  | eeos =>
    obtain ⟨bits, d, rfl⟩ := h
    exact .inl ⟨d, rfl⟩
  | merge =>
    obtain ⟨a, b, d, -, -, rfl⟩ := h
    exact .inl ⟨d, ((sameButTree_joined s a b).answers d).1⟩
  | cnt byte | ceos | enc byte =>
    obtain rfl | ⟨x, d, rfl⟩ := h
    · exact .inr ⟨_, rfl, raisedBy_raise s _ _⟩
    · exact .inl ⟨d, rfl⟩
  | qload =>
    obtain rfl | ⟨u, d, hu, rfl⟩ := h
    · exact .inr ⟨.malformed, if_pos (eq_of_beq hp), raisedBy_raise s _ _⟩
    · exact .inl ⟨d, ((sameButTree_loadQueue hu).answers d).1⟩
  | build =>
    obtain ⟨hph, rfl⟩ | ⟨u, v, d, -, -, hv, -, rfl⟩ := h
    · exact .inr ⟨.malformed, if_pos hph, raisedBy_raise s _ _⟩
    · exact .inl ⟨d, (hv.answers d).1⟩
  | dstep =>
    obtain ⟨d, rfl⟩ | rfl | ⟨b, rest, c, e, bytes, d, -, -, rfl⟩ := h
    · exact .inl ⟨d, rfl⟩
    · exact .inr ⟨_, rfl, raisedBy_raise s _ _⟩
    · exact .inl ⟨d, rfl⟩
  | decode =>
    obtain ⟨used, rest, bytes, c, e, hb, -, ⟨d, rfl⟩ | ⟨rfl, -, rfl⟩⟩ := h
    · exact .inl ⟨d, rfl⟩
    · exact .inr ⟨_, rfl, used, rest, bytes, c, hb, fun hne => absurd rfl hne, rfl⟩

/-- The inversion of `exec` by the response: `OK`, refused while faulted, or a fault the command can raise. -/
theorem exec_response {i : Instr} {s t : State} (h : exec i s = .next t) :
    (∃ d, t.rspOut = s.rspOut ++ [⟨.ok, d⟩]) ∨ (s.err ≠ 0 ∧ exemptOp i.op = false ∧ t = s.halt) ∨
      ∃ f, CanRaise i s.ph f ∧ s.RaisedBy t f (encode i) := by
  obtain hhalt | ⟨-, -, rfl⟩ | ⟨-, -, hp, rfl⟩ | ⟨-, -, hp, ho⟩ := exec_next h
  · exact .inr (.inl hhalt)
  · exact .inr (.inr ⟨.illegal, .inl rfl, raisedBy_raise s _ _⟩)
  · exact .inr (.inr ⟨.seq, .inr (.inl ⟨rfl, hp⟩), raisedBy_raise s _ _⟩)
  · obtain hok | ⟨f, hf, hraised⟩ := ok_or_raised_of_ownEffect hp ho
    · exact .inl hok
    · exact .inr (.inr ⟨f, .inr (.inr hf), hraised⟩)

/-! ## The codes a command returns (R165, R167) -/

theorem ok_mem_responseCodes (i : Instr) : .ok ∈ responseCodes i := by
  cases i <;> simp [responseCodes]

/-- The exempt commands have no `E_HALTED` in their row; every other command has (R167, R171). -/
theorem halted_mem_responseCodes {i : Instr} (h : exemptOp i.op = false) : .halted ∈ responseCodes i := by
  cases i <;> simp_all [exemptOp, Instr.op, responseCodes]

/-- The one response a state has more than another has one code. -/
theorem code_unique {s t : State} {c c' : RspCode} {d d' : BitVec 64} (h : t.rspOut = s.rspOut ++ [⟨c, d⟩])
    (h' : t.rspOut = s.rspOut ++ [⟨c', d'⟩]) : c = c' := by
  simpa using congrArg (·.getLast?.map Response.code) (h.symm.trans h')

/-- Settles O14: the table of R165 evaluated, and each kind of response with its row of R167. -/
theorem responseCodesOfEachCommand : Obligations.ResponseCodesOfEachCommand := by
  refine ⟨⟨rfl, rfl, rfl, rfl, rfl, rfl, rfl, rfl, fun _ => rfl⟩, fun i s t c d h hc => ?_⟩
  obtain ⟨d', hok⟩ | ⟨he, hx, rfl⟩ | ⟨f, hf, hraised⟩ := exec_response h
  · obtain rfl := code_unique hc hok
    exact ⟨ok_mem_responseCodes i, nofun, nofun, nofun⟩
  · obtain rfl := code_unique hc (rspOut_halt s)
    exact ⟨halted_mem_responseCodes hx, fun _ => he, nofun, nofun⟩
  · obtain rfl := code_unique hc hraised.rspOut_eq
    refine ⟨hf.mem_responseCodes, nofun, ?_, ?_⟩
    · rintro ⟨⟩
      exact hf.phase_of_malformed
    · rintro ⟨⟩
      rw [← legalPhase_iff, hf.phase_of_seq]
      exact Bool.false_ne_true

end Sys2Proof.Machine
end

section
/-!
SUPPORT. Faults are precise (R43, R169): the fault primitive is all a faulting word does, but for the steps DECODE has
completed, and those are DSTEP commands that answer `OK`.
-/

namespace Sys2Proof.Machine

/-- A presented word that answers a fault has run the fault primitive. -/
theorem step_raisedBy {s t : State} {w : Word} {rest : List HostEvent} {f : FaultCode} {d : BitVec 64}
    (hh : s.hostIn = .command w :: rest) (h : step s = .next t) (hf : t.rspOut = s.rspOut ++ [⟨.fault f, d⟩]) :
    ({ s with hostIn := rest } : State).RaisedBy t f w := by
  by_cases hw : legalWord w
  · obtain ⟨i, rfl, -, hstep⟩ := step_of_legalWord hh hw
    obtain ⟨d', hok⟩ | ⟨-, -, rfl⟩ | ⟨f', -, hraised⟩ := exec_response (hstep.symm.trans h)
    · cases code_unique hf hok
    · cases code_unique hf (rspOut_halt _)
    · cases code_unique hf hraised.rspOut_eq
      exact hraised
  · obtain rfl | rfl := illegalWord_next ((step_of_not_legalWord hh hw).symm.trans h)
    · cases code_unique hf (rspOut_halt _)
    · cases code_unique hf (rspOut_raise _ _ _)
      exact raisedBy_raise _ _ _

/-! ## The steps a faulting DECODE has completed (R142) -/

/-- Some number of DSTEP commands, each answering `OK`, take the decoder of `s` to the ports and the position of `t`. -/
def State.DstepsReach (s t : State) : Prop :=
  ∃ n u data, s.Completes (List.replicate n .dstep) [] u data ∧
    t.bitIn = u.bitIn ∧ t.byteOut = u.byteOut ∧ t.cur = u.cur

/-- No DSTEP at all reaches a fault that keeps the decoder. -/
theorem dstepsReach_raise (s : State) (events : List HostEvent) (responses : List Response) (f : FaultCode)
    (w : Word) : s.DstepsReach ((s.withHost events responses).raise f w) :=
  ⟨0, s, [], .nil s [], bitIn_raise _ f w, byteOut_raise _ f w, cur_raise _ f w⟩

/-- A run of commands does not depend on what the host was about to do (log entry 15). -/
theorem State.Completes.withHostIn {s t : State} {commands rest : List Instr} {data : List (BitVec 64)}
    (h : s.Completes commands rest t data) (events : List HostEvent) :
    ({ s with hostIn := events } : State).Completes commands rest t data :=
  ⟨h.run, h.length, h.answers, fun hs => h.inv (inv_hostIn hs s.hostIn)⟩

/-- One DSTEP that answers `OK`, before the others. -/
theorem State.DstepsReach.cons {s u t : State} {d : BitVec 64}
    (hx : ∀ events, exec .dstep (s.withHost events s.rspOut) = .next ((u.withHost events s.rspOut).respond .ok d))
    (h : ((u.withHost [] s.rspOut).respond .ok d).DstepsReach t) : s.DstepsReach t := by
  obtain ⟨n, v, data, hrun, hends⟩ := h
  exact ⟨n + 1, v, d :: data, .cons rfl (hx _) rfl (hrun.withHostIn _), hends⟩

/-- A loop that faults has not started in the terminal state. -/
theorem dt_of_decodeLoop_faulted {s t : State} {bits : List Bool} {count : Nat} {f : FaultCode} {d : BitVec 64}
    (h : decodeLoop bits count s = .next t) (hf : t.rspOut = s.rspOut ++ [⟨.fault f, d⟩]) : s.dt = false := by
  cases hd : s.dt with
  | false => rfl
  | true =>
    obtain rfl := next_inj.1 ((decodeLoop_terminal hd bits count).symm.trans h)
    cases code_unique hf (rspOut_respond _ _ _)

/-- A loop that answers has walked its first bit. -/
theorem walk_ok_of_decodeLoop {s t : State} {b : Bool} {rest : List Bool} {count : Nat} (hd : s.dt = false)
    (h : decodeLoop (b :: rest) count s = .next t) : ∃ u a, { s with bitIn := rest }.walk b = .ok (u, a) := by
  cases hw : { s with bitIn := rest }.walk b with
  | ok r => exact ⟨r.1, r.2, rfl⟩
  | error e =>
    rw [decodeLoop_cons hd, hw] at h
    exact absurd h (fault_ne_next e t)

/-- When DECODE's loop faults, the steps it has completed are those of as many DSTEP commands, whatever was answered
before the loop. -/
theorem dstepsReach_of_decodeLoop (bits : List Bool) : ∀ {s t : State} {count : Nat} {events : List HostEvent}
    {responses : List Response} {f : FaultCode} {d : BitVec 64}, s.err = 0 → s.hasTree → s.bitIn = bits →
    decodeLoop bits count (s.withHost events responses) = .next t → t.rspOut = responses ++ [⟨.fault f, d⟩] →
    s.DstepsReach t := by
  induction bits with
  | nil =>
    intro s t count events responses f d he ht hb hloop hf
    have hd := dt_of_decodeLoop_faulted hloop hf
    obtain rfl := next_inj.1 ((decodeLoop_nil hd count).symm.trans hloop)
    exact dstepsReach_raise s events responses _ _
  | cons b rest ih =>
    intro s t count events responses f d he ht hb hloop hf
    have hd := dt_of_decodeLoop_faulted hloop hf
    obtain ⟨u, a, hw⟩ := walk_ok_of_decodeLoop hd hloop
    have hstep (events' : List HostEvent) := execDstep_run (s := s.withHost events' s.rspOut) he ht hd hb
      (walk_withHost_of_ok hw events' s.rspOut)
    have hnext := decodeLoop_cons_of_walk hd hw count
    obtain ⟨c, e, bytes, rfl, -⟩ := walk_ok hw
    exact .cons hstep (ih he ht rfl (hnext.symm.trans hloop) hf)

/-- The steps a faulting DECODE has completed are those of DSTEP commands; in the wrong phase it has completed none. -/
theorem dstepsReach_of_decode {s t : State} {rest : List HostEvent} {f : FaultCode} {d : BitVec 64}
    (h : exec .decode { s with hostIn := rest } = .next t) (hf : t.rspOut = s.rspOut ++ [⟨.fault f, d⟩]) :
    s.DstepsReach t := by
  obtain ⟨-, -, rfl⟩ | ⟨-, hw, -⟩ | ⟨-, -, -, rfl⟩ | ⟨he, -, hp, hloop⟩ := command_next (i := .decode) h
  · cases code_unique hf (rspOut_halt _)
  · cases hw
  · exact dstepsReach_raise s rest s.rspOut _ _
  · exact dstepsReach_of_decodeLoop s.bitIn (he.resolve_right Bool.false_ne_true) (hasTree_of_legal hp) rfl hloop hf

/-- The DSTEP commands as a run, with their responses. -/
theorem State.DstepsReach.runCommands_eq {s t : State} (h : s.DstepsReach t) :
    ∃ (u : State) (steps : List Response), runCommands (List.replicate steps.length .dstep) s = .next u ∧
      u.rspOut = s.rspOut ++ steps ∧ (∀ r ∈ steps, r.code = .ok) ∧ t.bitIn = u.bitIn ∧ t.byteOut = u.byteOut ∧
      t.cur = u.cur := by
  obtain ⟨n, u, data, hrun, hends⟩ := h
  have hn : (data.map (Response.mk .ok)).length = n := by
    rw [List.length_map, hrun.length, List.length_replicate]
  exact ⟨u.present [], data.map (Response.mk .ok), hn.symm ▸ hrun.runCommands_eq, hrun.answers,
    code_of_mem_answers, hends⟩

/-- Settles O15: the invariant by its step lemma, DECODE's steps by its loop, and the frame by the fault primitive. -/
theorem faultsArePrecise : Obligations.FaultsArePrecise := by
  intro s t w rest f d hh h hf
  refine ⟨fun hinv => stepKeepsInvariant s t hinv h, ?_, ?_⟩
  · rintro rfl
    have hexec := stepRunsDecodedCommand s _ rest .decode hh rfl
    exact (dstepsReach_of_decode (hexec.symm.trans h) hf).runCommands_eq
  · obtain ⟨used, bits, bytes, c, hb, hkept, rfl⟩ := step_raisedBy hh h hf
    refine ⟨used, bytes, ?_, ?_, ?_⟩
    · rw [bitIn_raise]
      exact hb
    · rw [cur_raise]
      exact hkept
    · rw [bitIn_raise, cur_raise]
      exact raise_eq_with _ f w

end Sys2Proof.Machine
end

section
/-!
SUPPORT. The reset state read element by element (R190, R191), and no reachable step stops (R201).
-/

namespace Sys2Proof.Machine

/-! ## The reset state -/

@[simp] theorem freqAt_reset (i : Nat) : State.reset.freqAt i = 0 := rfl
@[simp] theorem nodeAt_reset (i : Nat) : State.reset.nodeAt i = Slot.empty := rfl
@[simp] theorem codeAt_reset (i : Nat) : State.reset.codeAt i = CodeEntry.empty := rfl

/-- HFE leaves reset with the `fault` output low (R176). -/
@[simp] theorem faultOutput_reset : State.reset.faultOutput = 0 := rfl

/-- After reset `STATUS` shows the two node registers at their no-node value and everything else 0 (R26, R191). -/
@[simp] theorem status_reset : State.reset.status = 0x000000000FFFFF00 := by decide

/-- Settles O17: the registers and the histories are the fields of the reset state, the tables are empty. -/
theorem resetState : Obligations.ResetState :=
  ⟨rfl, rfl, rfl, rfl, rfl, rfl, rfl, rfl, freqAt_reset, nodeAt_reset, codeAt_reset, rfl, rfl, status_reset,
    faultOutput_reset⟩

/-! ## Progress -/

/-- Settles O55: the invariant rules out each stop of the model, event by event and command by command. -/
theorem stepAlwaysCompletes : Obligations.StepAlwaysCompletes := by
  intro s h
  obtain ⟨t, ht, -⟩ := step_spec h
  exact ⟨t, ht⟩

end Sys2Proof.Machine
end
